-- ==== Sys2Proof/Word.lean ====
section
/-! DEFINITION. The plain data the block works on: bytes, 32-bit words, the four-byte columns and sixteen-byte
blocks of the cipher, and the names of the three buffers. -/

namespace Sys2Proof

/-- A byte is 8 bits, value 0 to 255 (R8). -/
abbrev Byte := BitVec 8

/-- A 32-bit register value (R22), and a 32-bit word of the digests (R131). -/
abbrev Word := BitVec 32

/-- Four bytes: one column of the cipher's state, rows 0 to 3 (R185), and one word of its key schedule (R186). -/
structure Column where
  r0 : Byte
  r1 : Byte
  r2 : Byte
  r3 : Byte
  deriving DecidableEq, Repr

/-- Sixteen bytes, column by column: byte `r + 4 c` is row `r` of column `c` (R185).  The cipher's state, a data
block, a round key and the register `KEY` all have this shape. -/
structure Block where
  c0 : Column
  c1 : Column
  c2 : Column
  c3 : Column
  deriving DecidableEq, Repr

/-- Four zero bytes. -/
def Column.zero : Column := ⟨0, 0, 0, 0⟩

/-- Sixteen zero bytes: the value of `KEY` while no key is bound (R30) and the constant `ZERO_IV` (R199). -/
def Block.zero : Block := ⟨.zero, .zero, .zero, .zero⟩

/-- Bytewise exclusive-or of two columns. -/
def Column.xor (a b : Column) : Column :=
  ⟨a.r0 ^^^ b.r0, a.r1 ^^^ b.r1, a.r2 ^^^ b.r2, a.r3 ^^^ b.r3⟩

/-- `XOR` of two blocks (R9). -/
def Block.xor (a b : Block) : Block :=
  ⟨a.c0.xor b.c0, a.c1.xor b.c1, a.c2.xor b.c2, a.c3.xor b.c3⟩

/-- The three byte-addressed spaces `IN`, `AUX`, `OUT` (R60).  The register space `REG` is not among them: it is
reached by other transactions (R62). -/
inductive Space where
  | input
  | aux
  | output
  deriving DecidableEq, Repr

end Sys2Proof
end

