-- ==== Sys2Proof/Machine/Bytes.lean ====
section
/-! DEFINITION. Byte sequences and byte orders (R8 to R10): slices, cutting into pieces, little- and big-endian
conversions, the 32-bit rotations. -/

namespace Sys2Proof.Machine

/-- `B[i..j)`: the half-open slice of indices `i` to `j - 1` (R9). -/
def slice (bs : List Byte) (i j : Nat) : List Byte := (bs.drop i).take (j - i)

/-- `rep(b, n)`: `n` copies of a byte (R9). -/
def rep (b : Byte) (n : Nat) : List Byte := List.replicate n b

/-- `XOR(A, B)` of two sequences of equal length, bytewise (R9). -/
def xorBytes (a b : List Byte) : List Byte := List.zipWith (· ^^^ ·) a b

/-- The first `n` consecutive pieces of `k` elements each; piece `j` is `xs[k j .. k j + k)` (R131, R200). -/
def pieces {α : Type} (k : Nat) : Nat → List α → List (List α)
  | 0, _ => []
  | n + 1, xs => xs.take k :: pieces k n (xs.drop k)

/-- A byte sequence read as one big-endian integer. -/
def natOfBE (bs : List Byte) : Nat := bs.foldl (fun v b => 256 * v + b.toNat) 0

/-- A byte sequence read as one little-endian integer. -/
def natOfLE : List Byte → Nat
  | [] => 0
  | b :: bs => b.toNat + 256 * natOfLE bs

/-- `n` bytes of an integer, least significant first. -/
def bytesLE : Nat → Nat → List Byte
  | 0, _ => []
  | n + 1, v => BitVec.ofNat 8 v :: bytesLE n (v / 256)

/-- `BE32(B)` (R10). -/
def be32 (bs : List Byte) : Word := BitVec.ofNat 32 (natOfBE bs)

/-- `LE32(B)` (R10). -/
def le32 (bs : List Byte) : Word := BitVec.ofNat 32 (natOfLE bs)

/-- `toBE32(v)` (R10). -/
def toBE32 (v : Word) : List Byte := (bytesLE 4 v.toNat).reverse

/-- `toLE32(v)` (R10). -/
def toLE32 (v : Word) : List Byte := bytesLE 4 v.toNat

/-- `toBE64(v)`: byte `i` is `(v >> (8 (7 - i))) & 0xFF` (R10). -/
def toBE64 (v : BitVec 64) : List Byte :=
  (List.range 8).map fun i => BitVec.ofNat 8 (v.toNat >>> (8 * (7 - i)))

/-- `signed32(v)`: `v - 2^32` if `v >= 2^31`, else `v` (R8). -/
def signed32 (v : Word) : Int := if 2 ^ 31 ≤ v.toNat then (v.toNat : Int) - 2 ^ 32 else v.toNat

/-- `ROTL32(x, n)` for `0 < n < 32` (R8). -/
def rotl32 (x : Word) (n : Nat) : Word := (x <<< n) ||| (x >>> (32 - n))

/-- `ROTR32(x, n)` for `0 < n < 32` (R8). -/
def rotr32 (x : Word) (n : Nat) : Word := (x >>> n) ||| (x <<< (32 - n))

/-- The bytes of a column, row 0 first (R186: a schedule word is a sequence of 4 bytes). -/
def columnBytes (c : Column) : List Byte := [c.r0, c.r1, c.r2, c.r3]

/-- A block as its sixteen bytes in index order (R185). -/
def blockBytes (b : Block) : List Byte :=
  columnBytes b.c0 ++ columnBytes b.c1 ++ columnBytes b.c2 ++ columnBytes b.c3

/-- The column made of bytes `i` to `i + 3` of a sequence. -/
def columnAt (bs : List Byte) (i : Nat) : Column :=
  ⟨bs.getD i 0, bs.getD (i + 1) 0, bs.getD (i + 2) 0, bs.getD (i + 3) 0⟩

/-- A sixteen-byte sequence as a block: state index is byte index (R185). -/
def blockOfBytes (bs : List Byte) : Block :=
  ⟨columnAt bs 0, columnAt bs 4, columnAt bs 8, columnAt bs 12⟩

end Sys2Proof.Machine
end

