-- ==== Sys2Proof/Syntax.lean ====
section
/-! DEFINITION. The fifteen commands of the block (R92).  A command word carries no operand (R91), so no constructor
has an argument. -/

namespace Sys2Proof

/-- One constructor per row of the opcode table (R92). -/
inductive Instr where
  /-- `NOP`: acknowledge (R110). -/
  | nop
  /-- `LOADKEY`: bind a cipher key (R111). -/
  | loadkey
  /-- `CLEAR`: erase buffers and operand registers (R112). -/
  | clear
  /-- `ZEROIZE`: as `CLEAR`, and unbind the key (R113). -/
  | zeroize
  /-- `HASH160`: SHA-1 of `IN` (R146). -/
  | hash160
  /-- `HASH256`: SHA-256 of `IN` (R147). -/
  | hash256
  /-- `KDIG160`: HMAC over SHA-1 (R166). -/
  | kdig160
  /-- `KDIG256`: HMAC over SHA-256 (R167). -/
  | kdig256
  /-- `CBCENC`: AES-128 CBC encryption with padding (R206). -/
  | cbcenc
  /-- `CBCDEC`: AES-128 CBC decryption (R207). -/
  | cbcdec
  /-- `ECBENC`: AES-128 ECB encryption with padding (R208). -/
  | ecbenc
  /-- `ECBDEC`: AES-128 ECB decryption (R209). -/
  | ecbdec
  /-- `CENCODE`: build a container (R225). -/
  | cencode
  /-- `CDECODE`: open and verify a container (R229). -/
  | cdecode
  /-- `HOTP`: one-time password (R247). -/
  | hotp
  deriving DecidableEq, Repr

end Sys2Proof
end

