-- ==== Sys2Proof/Decode.lean ====
section
/-! DEFINITION. Command words (R90 to R95): the decoder, total on every word and on every byte sequence, and the
encoder. -/

namespace Sys2Proof

/-- Why a word is no command.  Every reason executes as the illegal command (R94); the names say which part of the
word is outside the table. -/
inductive DecodeError where
  /-- Not the four bytes of one 32-bit word (R95). -/
  | wrongLength
  /-- A nonzero bit in the field `zero`, bits 31:8 (R93). -/
  | zeroFieldSet
  /-- `unit` 5 to 15: wholly unused (R94). -/
  | unusedUnit
  /-- A used unit with a function number it does not have (R94). -/
  | unusedFunction
  deriving DecidableEq, Repr

/-- Field `zero`, bits 31:8 (R90). -/
def zeroField (w : Word) : BitVec 24 := w.extractLsb' 8 24

/-- Field `unit`, bits 7:4 (R90). -/
def unitField (w : Word) : BitVec 4 := w.extractLsb' 4 4

/-- Field `fn`, bits 3:0 (R90). -/
def fnField (w : Word) : BitVec 4 := w.extractLsb' 0 4

/-- Unit 0, SYS. -/
def decodeSys : Nat → Except DecodeError Instr
  | 0 => .ok .nop
  | 1 => .ok .loadkey
  | 2 => .ok .clear
  | 3 => .ok .zeroize
  | _ => .error .unusedFunction

/-- Unit 1, DIG. -/
def decodeDig : Nat → Except DecodeError Instr
  | 0 => .ok .hash160
  | 1 => .ok .hash256
  | 2 => .ok .kdig160
  | 3 => .ok .kdig256
  | _ => .error .unusedFunction

/-- Unit 2, CIP. -/
def decodeCip : Nat → Except DecodeError Instr
  | 0 => .ok .cbcenc
  | 1 => .ok .cbcdec
  | 2 => .ok .ecbenc
  | 3 => .ok .ecbdec
  | _ => .error .unusedFunction

/-- Unit 3, COD. -/
def decodeCod : Nat → Except DecodeError Instr
  | 0 => .ok .cencode
  | 1 => .ok .cdecode
  | _ => .error .unusedFunction

/-- Unit 4, OTP. -/
def decodeOtp : Nat → Except DecodeError Instr
  | 0 => .ok .hotp
  | _ => .error .unusedFunction

/-- The unit numbers of R90. -/
def decodeUnit : Nat → Nat → Except DecodeError Instr
  | 0, fn => decodeSys fn
  | 1, fn => decodeDig fn
  | 2, fn => decodeCip fn
  | 3, fn => decodeCod fn
  | 4, fn => decodeOtp fn
  | _, _ => .error .unusedUnit

/-- `decode(w)`: total on all words (R93). -/
def decode (w : Word) : Except DecodeError Instr :=
  if zeroField w = 0 then decodeUnit (unitField w).toNat (fnField w).toNat else .error .zeroFieldSet

/-- A word from its byte lanes, lane 0 (bits 7:0) first (R71). -/
def decodeBytes (lanes : List Byte) : Except DecodeError Instr :=
  if lanes.length = 4 then decode (Machine.le32 lanes) else .error .wrongLength

/-- `unit` and `fn` of each command, as the table of R92 gives them. -/
def fieldsOf : Instr → BitVec 4 × BitVec 4
  | .nop => (0, 0)
  | .loadkey => (0, 1)
  | .clear => (0, 2)
  | .zeroize => (0, 3)
  | .hash160 => (1, 0)
  | .hash256 => (1, 1)
  | .kdig160 => (1, 2)
  | .kdig256 => (1, 3)
  | .cbcenc => (2, 0)
  | .cbcdec => (2, 1)
  | .ecbenc => (2, 2)
  | .ecbdec => (2, 3)
  | .cencode => (3, 0)
  | .cdecode => (3, 1)
  | .hotp => (4, 0)

/-- The command word of an instruction, format `C` (R90): `zero`, `unit`, `fn` from the top bit down. -/
def encode (i : Instr) : Word := (0 : BitVec 24) ++ (fieldsOf i).1 ++ (fieldsOf i).2

/-- The byte lanes of a command word (R71). -/
def encodeBytes (i : Instr) : List Byte := Machine.toLE32 (encode i)

/-- What the decoder reads from an instruction whose bits are `w`, `nbits` of them counted (the host's question about
a row of the opcode table); bits above `nbits` are 0, and no command is longer than 32 bits (R95). -/
def decodeTableWord (nbits w : Nat) : Option Instr :=
  if w % 2 ^ nbits < 2 ^ 32 then
    match decodeBytes (Machine.bytesLE 4 (w % 2 ^ nbits)) with
    | .ok i => some i
    | .error _ => none
  else none

end Sys2Proof
end

