-- ==== Sys2Proof/Machine/Aes.lean ====
section
/-! DEFINITION. AES-128 (R181 to R194): the byte field, the tables, the key expansion, the round transformations and
their inverses, encryption and decryption of one block. -/

namespace Sys2Proof.Machine

/-! ### The field GF(2^8) -/

/-- Multiplication by `x` (R181). -/
def xtime (a : Byte) : Byte := if a.getLsbD 7 then (a <<< 1) ^^^ 0x1b else a <<< 1

/-- The loop of `gmul`: the remaining bits of `b`, lowest first, the current multiple of `a` and the sum so far
(R181). -/
def gmulLoop : Nat → Byte → Byte → Byte → Byte
  | 0, _, _, r => r
  | n + 1, a, b, r => gmulLoop n (xtime a) (b >>> 1) (if b.getLsbD 0 then r ^^^ a else r)

/-- `gmul(a, b)` (R181). -/
def gmul (a b : Byte) : Byte := gmulLoop 8 a b 0

/-! ### Tables -/

/-- `SBOX`, one row of R182 a line, its column 0 the most significant byte. -/
def sboxRows : List Nat :=
  [ 0x637c777bf26b6fc53001672bfed7ab76,
    0xca82c97dfa5947f0add4a2af9ca472c0,
    0xb7fd9326363ff7cc34a5e5f171d83115,
    0x04c723c31896059a071280e2eb27b275,
    0x09832c1a1b6e5aa0523bd6b329e32f84,
    0x53d100ed20fcb15b6acbbe394a4c58cf,
    0xd0efaafb434d338545f9027f503c9fa8,
    0x51a3408f929d38f5bcb6da2110fff3d2,
    0xcd0c13ec5f974417c4a77e3d645d1973,
    0x60814fdc222a908846eeb814de5e0bdb,
    0xe0323a0a4906245cc2d3ac629195e479,
    0xe7c8376d8dd54ea96c56f4ea657aae08,
    0xba78252e1ca6b4c6e8dd741f4bbd8b8a,
    0x703eb5664803f60e613557b986c11d9e,
    0xe1f8981169d98e949b1e87e9ce5528df,
    0x8ca1890dbfe6426841992d0fb054bb16 ]

/-- `INVSBOX`, one row of R183 a line, its column 0 the most significant byte. -/
def invSboxRows : List Nat :=
  [ 0x52096ad53036a538bf40a39e81f3d7fb,
    0x7ce339829b2fff87348e4344c4dee9cb,
    0x547b9432a6c2233dee4c950b42fac34e,
    0x082ea16628d924b2765ba2496d8bd125,
    0x72f8f66486689816d4a45ccc5d65b692,
    0x6c704850fdedb9da5e154657a78d9d84,
    0x90d8ab008cbcd30af7e45805b8b34506,
    0xd02c1e8fca3f0f02c1afbd0301138a6b,
    0x3a9111414f67dcea97f2cfcef0b4e673,
    0x96ac7422e7ad3585e2f937e81c75df6e,
    0x47f11a711d29c5896fb7620eaa18be1b,
    0xfc563e4bc6d279209adbc0fe78cd5af4,
    0x1fdda8338807c731b11210592780ec5f,
    0x60517fa919b54a0d2de57a9f93c99cef,
    0xa0e03b4dae2af5b0c8ebbb3c83539961,
    0x172b047eba77d626e169146355210c7d ]

/-- Entry `16 r + c` of a table given by its rows: byte `c`, from the left, of row `r` (R182). -/
def tableAt (rows : List Nat) (a : Byte) : Byte :=
  BitVec.ofNat 8 (rows.getD (a.toNat / 16) 0 >>> (8 * (15 - a.toNat % 16)))

/-- `SBOX[a]` (R182). -/
def sbox (a : Byte) : Byte := tableAt sboxRows a

/-- `INVSBOX[a]` (R183). -/
def invSbox (a : Byte) : Byte := tableAt invSboxRows a

/-- `RCON[1] .. RCON[10]` (R184). -/
def rconTable : List Byte := [0x01, 0x02, 0x04, 0x08, 0x10, 0x20, 0x40, 0x80, 0x1b, 0x36]

/-- `RCON[i]` for `1 <= i <= 10` (R184). -/
def rcon (i : Nat) : Byte := rconTable.getD (i - 1) 0

/-! ### Key expansion -/

/-- `RotWord`: rotate left by one byte (R186). -/
def rotWord (t : Column) : Column := ⟨t.r1, t.r2, t.r3, t.r0⟩

/-- `SubWord` (R186). -/
def subWord (t : Column) : Column := ⟨sbox t.r0, sbox t.r1, sbox t.r2, sbox t.r3⟩

/-- The word `t` that is added to `w[i-4]`, from `w[i-1]` (R186). -/
def scheduleTerm (i : Nat) (prev : Column) : Column :=
  if i % 4 = 0 then (subWord (rotWord prev)).xor ⟨rcon (i / 4), 0, 0, 0⟩ else prev

/-- The next `n` words of the key schedule, the first of them `w[i]`, put before the words so far, newest first
(R186). -/
def extendKey : Nat → Nat → List Column → List Column
  | 0, _, ws => ws
  | n + 1, i, ws =>
    extendKey n (i + 1) ((ws.getD 3 .zero).xor (scheduleTerm i (ws.getD 0 .zero)) :: ws)

/-- The 44 words `w[0..44)` of a key (R186). -/
def keySchedule (k : Block) : List Column := (extendKey 40 4 [k.c3, k.c2, k.c1, k.c0]).reverse

/-- `RK_k`, the round key of round `k`, from the schedule (R186). -/
def roundKey (w : List Column) (k : Nat) : Block :=
  ⟨w.getD (4 * k) .zero, w.getD (4 * k + 1) .zero, w.getD (4 * k + 2) .zero, w.getD (4 * k + 3) .zero⟩

/-! ### Round transformations -/

/-- `AddRoundKey(s, k)`, given the round key (R187). -/
def addRoundKey (s rk : Block) : Block := s.xor rk

/-- Apply a byte function to every byte of a column. -/
def mapColumn (f : Byte → Byte) (c : Column) : Column := ⟨f c.r0, f c.r1, f c.r2, f c.r3⟩

/-- Apply a byte function to every byte of a block. -/
def mapBlock (f : Byte → Byte) (s : Block) : Block :=
  ⟨mapColumn f s.c0, mapColumn f s.c1, mapColumn f s.c2, mapColumn f s.c3⟩

/-- `SubBytes` (R188). -/
def subBytes (s : Block) : Block := mapBlock sbox s

/-- `InvSubBytes` (R188). -/
def invSubBytes (s : Block) : Block := mapBlock invSbox s

/-- `ShiftRows`: row `r` of column `c` comes from column `(c + r) mod 4` (R189). -/
def shiftRows (s : Block) : Block where
  c0 := ⟨s.c0.r0, s.c1.r1, s.c2.r2, s.c3.r3⟩
  c1 := ⟨s.c1.r0, s.c2.r1, s.c3.r2, s.c0.r3⟩
  c2 := ⟨s.c2.r0, s.c3.r1, s.c0.r2, s.c1.r3⟩
  c3 := ⟨s.c3.r0, s.c0.r1, s.c1.r2, s.c2.r3⟩

/-- `InvShiftRows`: row `r` of column `c` comes from column `(c - r) mod 4` (R189). -/
def invShiftRows (s : Block) : Block where
  c0 := ⟨s.c0.r0, s.c3.r1, s.c2.r2, s.c1.r3⟩
  c1 := ⟨s.c1.r0, s.c0.r1, s.c3.r2, s.c2.r3⟩
  c2 := ⟨s.c2.r0, s.c1.r1, s.c0.r2, s.c3.r3⟩
  c3 := ⟨s.c3.r0, s.c2.r1, s.c1.r2, s.c0.r3⟩

/-- `MixColumns` on one column (R190). -/
def mixColumn (a : Column) : Column where
  r0 := gmul a.r0 2 ^^^ gmul a.r1 3 ^^^ a.r2 ^^^ a.r3
  r1 := a.r0 ^^^ gmul a.r1 2 ^^^ gmul a.r2 3 ^^^ a.r3
  r2 := a.r0 ^^^ a.r1 ^^^ gmul a.r2 2 ^^^ gmul a.r3 3
  r3 := gmul a.r0 3 ^^^ a.r1 ^^^ a.r2 ^^^ gmul a.r3 2

/-- `InvMixColumns` on one column (R191). -/
def invMixColumn (a : Column) : Column where
  r0 := gmul a.r0 14 ^^^ gmul a.r1 11 ^^^ gmul a.r2 13 ^^^ gmul a.r3 9
  r1 := gmul a.r0 9 ^^^ gmul a.r1 14 ^^^ gmul a.r2 11 ^^^ gmul a.r3 13
  r2 := gmul a.r0 13 ^^^ gmul a.r1 9 ^^^ gmul a.r2 14 ^^^ gmul a.r3 11
  r3 := gmul a.r0 11 ^^^ gmul a.r1 13 ^^^ gmul a.r2 9 ^^^ gmul a.r3 14

/-- `MixColumns` (R190). -/
def mixColumns (s : Block) : Block := ⟨mixColumn s.c0, mixColumn s.c1, mixColumn s.c2, mixColumn s.c3⟩

/-- `InvMixColumns` (R191). -/
def invMixColumns (s : Block) : Block :=
  ⟨invMixColumn s.c0, invMixColumn s.c1, invMixColumn s.c2, invMixColumn s.c3⟩

/-! ### One block -/

/-- A full encryption round (the loop body of R192). -/
def encryptRound (w : List Column) (s : Block) (k : Nat) : Block :=
  addRoundKey (mixColumns (shiftRows (subBytes s))) (roundKey w k)

/-- A full decryption round (the loop body of R193). -/
def decryptRound (w : List Column) (s : Block) (k : Nat) : Block :=
  invMixColumns (addRoundKey (invSubBytes (invShiftRows s)) (roundKey w k))

/-- `AesEncryptBlock(K, X)` (R192): the last round has no `MixColumns`. -/
def aesEncryptBlock (k x : Block) : Block :=
  let w := keySchedule k
  let s := [1, 2, 3, 4, 5, 6, 7, 8, 9].foldl (encryptRound w) (addRoundKey x (roundKey w 0))
  addRoundKey (shiftRows (subBytes s)) (roundKey w 10)

/-- `AesDecryptBlock(K, Y)` (R193). -/
def aesDecryptBlock (k y : Block) : Block :=
  let w := keySchedule k
  let s := [9, 8, 7, 6, 5, 4, 3, 2, 1].foldl (decryptRound w) (addRoundKey y (roundKey w 10))
  addRoundKey (invSubBytes (invShiftRows s)) (roundKey w 0)

end Sys2Proof.Machine
end

