-- ==== Sys2Proof/Config.lean ====
section
/-! DEFINITION. What an implementation of the block fixes (the buffer capacities of R6, the identity word of R23)
and the one value the spec leaves open (a buffer byte never written since reset, R35). -/

namespace Sys2Proof

/-- The parameters a model takes as arguments (R6).  They are constant for the life of a block; State carries them so
that one machine type covers every block. -/
structure Params where
  /-- `IN_CAP`, the capacity of buffer `IN` in bytes. -/
  inCap : Nat
  /-- `AUX_CAP`, the capacity of buffer `AUX` in bytes. -/
  auxCap : Nat
  deriving DecidableEq, Repr

/-- The defaults of R6. -/
def Params.default : Params := ⟨4096, 256⟩

/-- `OUT_CAP = IN_CAP + 72` (R6): not free. -/
def Params.outCap (p : Params) : Nat := p.inCap + 72

/-- The capacity of a buffer. -/
def Params.capacity (p : Params) : Space → Nat
  | .input => p.inCap
  | .aux => p.auxCap
  | .output => p.outCap

/-- The constraints of R6. -/
abbrev Params.wellFormed (p : Params) : Prop :=
  16 ≤ p.inCap ∧ p.inCap ≤ 2 ^ 32 - 73 ∧ 16 ≤ p.auxCap ∧ p.auxCap ≤ 2 ^ 32 - 1

namespace Config

/-- The constant `ID` reads as: ASCII `C`, `A`, `4`, then 7 (R23). -/
def idWord : Word := 0x43413407

/-- FREE VALUE.  What byte `i` of a buffer holds when nothing has written it since reset number `draw`: "each byte
has some value, fixed until it is next written, that no rule determines" (R35; notes/assumptions/1.md). -/
opaque unwrittenByte (draw : Nat) (space : Space) (i : Nat) : Byte

end Config

end Sys2Proof
end

