-- ==== Sys2Proof/Machine/Transaction.lean ====
section
/-! DEFINITION. What the host can do to the block (R62), the registers by name (R22), and the lines of a host script
(R96, R97). -/

namespace Sys2Proof.Machine

/-- The fourteen registers of `REG` (R22). -/
inductive Reg where
  | id
  | cmd
  | status
  | err
  | inLen
  | auxLen
  | outLen
  | result
  | ctrLo
  | ctrHi
  | vfy
  | inCap
  | auxCap
  | outCap
  deriving DecidableEq, Repr

/-- The four host transactions (R62).  An offset or index is any number: which of them exist is
`Transaction.wellFormed`. -/
inductive Transaction where
  /-- `RegRead(off)`. -/
  | regRead (off : Nat)
  /-- `RegWrite(off, v)`. -/
  | regWrite (off : Nat) (v : Word)
  /-- `BufRead(S, i)`. -/
  | bufRead (space : Space) (i : Nat)
  /-- `BufWrite(S, i, b)`. -/
  | bufWrite (space : Space) (i : Nat) (b : Byte)
  deriving DecidableEq, Repr

/-- What reaches the block from outside: a host transaction, or the external reset (R62, R300). -/
inductive HostEvent where
  | transact (t : Transaction)
  | reset
  deriving DecidableEq, Repr

/-- What a read transaction returns to the host (R62). -/
inductive Reply where
  /-- The 32-bit value of a `RegRead`. -/
  | word (v : Word)
  /-- The byte of a `BufRead`. -/
  | byte (b : Byte)
  deriving DecidableEq, Repr

/-- A line of a host script: the six lines of R96, then the six pseudo-lines of R97. -/
inductive ScriptLine where
  /-- `WRR name, value`. -/
  | wrr (name : Reg) (value : Word)
  /-- `RDR name`. -/
  | rdr (name : Reg)
  /-- `WRB space, index, hex`. -/
  | wrb (space : Space) (index : Nat) (hex : List Byte)
  /-- `RDB space, index, count`. -/
  | rdb (space : Space) (index count : Nat)
  /-- `CMD mnemonic`. -/
  | cmd (i : Instr)
  /-- `CMDW value`. -/
  | cmdw (value : Word)
  /-- `SETIN hex`. -/
  | setin (hex : List Byte)
  /-- `SETAUX hex`. -/
  | setaux (hex : List Byte)
  /-- `SETCTR v`. -/
  | setctr (v : BitVec 64)
  /-- `KEY hex`. -/
  | key (hex : List Byte)
  /-- `GETOUT`. -/
  | getout
  /-- `OUT2IN`. -/
  | out2in
  deriving DecidableEq, Repr

end Sys2Proof.Machine
end

