-- ==== Sys2Proof/Machine/State.lean ====
section
/-! DEFINITION. The state of the block (R20), as plain data, and the state after reset (R40). -/

namespace Sys2Proof.Machine

/-- What the bytes of a buffer that are not listed read as. -/
inductive Background where
  /-- Zero: the buffer was erased by `CLEAR` or `ZEROIZE` (R112, R113). -/
  | zero
  /-- The free values of the draw made at reset number `draw` (R35). -/
  | unwritten (space : Space) (draw : Nat)
  deriving DecidableEq, Repr

/-- The contents of one buffer: the bytes written, by index, over what an unlisted index reads as.  The canonical
form is `Memory.wf` (Machine/Ops.lean). -/
structure Memory where
  base : Background
  cells : List Host.Cell
  deriving DecidableEq, Repr

/-- The errors a command can end with (R261).  `IoError` (6) is the collaborator's and has no constructor
(R263, U8). -/
inductive CmdError where
  | keyLength
  | inputLength
  | padding
  | truncatedContainer
  | digestMismatch
  | illegalCommand
  | noKey
  | lengthRange
  deriving DecidableEq, Repr

/-- What a successful command hands to its completion (R264): the data result, the scalar result, `VFY`. -/
structure Result where
  data : List Byte
  scalar : Word
  vfy : BitVec 2
  deriving DecidableEq, Repr

/-- What a failing command hands to its completion (R265): the error, and the two digest bits (0 but for a
`DigestMismatchError`). -/
structure Failure where
  error : CmdError
  vfy : BitVec 2
  deriving DecidableEq, Repr

/-- The machine never stops with a fault: "no access faults in the sense of a bus error: every defined transaction
completes" (93_implementation_defined.md; R278), so no constructor is raised by anyone. -/
inductive Fault where
  deriving DecidableEq, Repr

/-- Why a step has no meaning. -/
inductive Refusal where
  /-- An instruction without a meaning; raised by no arm of `exec` (every command has its meaning).  Safe. -/
  | notModelled (mnemonic : String)
  /-- A register access that does not exist at the interface: its offset is no multiple of 4 or is above 0xFC.  Raised
  by `transact` before anything else happens.  Safe: "a model refuses it rather than giving it a meaning" (R63). -/
  | noSuchRegisterAccess (off : Nat)
  deriving DecidableEq, Repr

/-- The complete architectural state of R20, the block's parameters, and three fields of the model's own: the host's
events still to come, the values the host has read, and the number of resets so far. -/
structure State where
  /-- `IN_CAP` and `AUX_CAP`, constant for the life of the block (R6). -/
  params : Params
  /-- `KEY`, the bound cipher key, 16 bytes (R30). -/
  key : Block
  /-- `KEYV`, `STATUS[2]` (R25). -/
  keyv : Bool
  /-- `DONE`, `STATUS[0]` (R25). -/
  done : Bool
  /-- `FAIL`, `STATUS[1]` (R25). -/
  fail : Bool
  /-- `ERR[7:0]`; bits 31:8 of the register read 0 (R26). -/
  err : BitVec 8
  /-- `IN_LEN` (R27). -/
  inLen : Word
  /-- `AUX_LEN` (R27). -/
  auxLen : Word
  /-- `OUT_LEN` (R28). -/
  outLen : Word
  /-- `RESULT` (R29). -/
  result : Word
  /-- `CTR`, seen by the host as `CTR_LO` and `CTR_HI` (R31). -/
  ctr : BitVec 64
  /-- `VFY[1:0]`; bits 31:2 of the register read 0 (R32). -/
  vfy : BitVec 2
  /-- Buffer `IN` (R34). -/
  input : Memory
  /-- Buffer `AUX` (R34). -/
  aux : Memory
  /-- Buffer `OUT` (R34). -/
  output : Memory
  /-- The model's own: the host's events still to come, next one first (notes/assumptions/2.md). -/
  pending : List HostEvent
  /-- The model's own: the values read so far, oldest first (R84; notes/assumptions/3.md). -/
  replies : List Reply
  /-- The model's own: how many resets came after the first; it numbers the draws of R35. -/
  resets : Nat
  deriving DecidableEq, Repr

/-- A buffer no byte of which was written since reset number `draw` (R35). -/
def Memory.unwritten (space : Space) (draw : Nat) : Memory := ⟨.unwritten space draw, []⟩

/-- The reset state of a block with parameters `p` (R40), with the unspecified buffer contents of draw `draw`. -/
def State.resetOf (p : Params) (draw : Nat) : State where
  params := p
  key := .zero
  keyv := false
  done := false
  fail := false
  err := 0
  inLen := 0
  auxLen := 0
  outLen := 0
  result := 0
  ctr := 0
  vfy := 0
  input := .unwritten .input draw
  aux := .unwritten .aux draw
  output := .unwritten .output draw
  pending := []
  replies := []
  resets := draw

/-- The block right after reset (R40), with the default parameters of R6 and no host event waiting. -/
def State.reset : State := State.resetOf Params.default 0

end Sys2Proof.Machine
end

