-- ==== Sys2Proof/Machine/Flags.lean ====
section
/-! DEFINITION. The values of the status registers: `STATUS` and `VFY` from their flags (R25, R32, R36), `ERR` from the
error's name (R261). -/

namespace Sys2Proof.Machine

/-- The error codes of R261. -/
def CmdError.code : CmdError → BitVec 8
  | .keyLength => 1
  | .inputLength => 2
  | .padding => 3
  | .truncatedContainer => 4
  | .digestMismatch => 5
  | .illegalCommand => 8
  | .noKey => 9
  | .lengthRange => 10

/-- `STATUS`: bit 0 `DONE`, bit 1 `FAIL`, bit 2 `KEYV`, bits 31:3 zero (R22, R25). -/
def statusWord (s : State) : Word :=
  (0 : BitVec 29) ++ BitVec.ofBool s.keyv ++ BitVec.ofBool s.fail ++ BitVec.ofBool s.done

/-- `ERR`: the code in bits 7:0, bits 31:8 zero (R26). -/
def errWord (s : State) : Word := s.err.setWidth 32

/-- `VFY`: bit 0 `D160_OK`, bit 1 `D256_OK`, bits 31:2 zero (R22, R32). -/
def vfyWord (s : State) : Word := s.vfy.setWidth 32

/-- The two verification bits: bit 0 for the 160-bit digest, bit 1 for the 256-bit digest (R230). -/
def verifyBits (d160Ok d256Ok : Bool) : BitVec 2 := BitVec.ofBool d256Ok ++ BitVec.ofBool d160Ok

end Sys2Proof.Machine
end

