-- ==== Sys2Proof/Machine/Ops.lean ====
section
/-! DEFINITION. The operations over buffers and registers that the commands and the host's transactions share: byte
and range access, erasing, binding a key, and the completions: successful (R264), failing (R265, the block's only
"exception entry", R275) and `NOP`'s (R110).  There is no return from an exception: the next completion rewrites
`ERR` and `FAIL` (R276). -/

namespace Sys2Proof.Machine

/-! ### One buffer -/

/-- What an unlisted index of a buffer reads as: zero after an erasure (R112), the free value of its draw before the
first write since reset (R35). -/
def Background.byteAt : Background → Nat → Byte
  | .zero, _ => 0
  | .unwritten space draw, i => Config.unwrittenByte draw space i

/-- Whether the background is KNOWN to read as `b` everywhere; never so for a free value. -/
def Background.isKnownAs : Background → Byte → Bool
  | .zero, b => b == 0
  | .unwritten _ _, _ => false

/-- The byte listed for an index. -/
def findCell : List Host.Cell → Nat → Option Byte
  | [], _ => none
  | (a, b) :: cs, i => if a = i then some b else findCell cs i

/-- List `b` at index `i`, keeping the indices rising. -/
def putCell : List Host.Cell → Nat → Byte → List Host.Cell
  | [], i, b => [(i, b)]
  | (a, c) :: cs, i, b =>
    if i < a then (i, b) :: (a, c) :: cs
    else if a = i then (i, b) :: cs
    else (a, c) :: putCell cs i b

/-- Take index `i` off the list. -/
def dropCell : List Host.Cell → Nat → List Host.Cell
  | [], _ => []
  | (a, c) :: cs, i => if a = i then cs else (a, c) :: dropCell cs i

/-- The byte at an index of a buffer. -/
def Memory.read (m : Memory) (i : Nat) : Byte :=
  match findCell m.cells i with
  | some b => b
  | none => m.base.byteAt i

/-- Store a byte at an index; storing what the index is known to read as unlisted takes it off the list. -/
def Memory.write (m : Memory) (i : Nat) (b : Byte) : Memory :=
  if m.base.isKnownAs b then { m with cells := dropCell m.cells i }
  else { m with cells := putCell m.cells i b }

/-- `MemRead(S:i, n)`: the `n` bytes at indices `i` to `i + n - 1` (R11). -/
def Memory.readRange (m : Memory) (i n : Nat) : List Byte :=
  (List.range n).map fun k => m.read (i + k)

/-- `MemWrite(S:i, n, v)`: store the bytes of `v` from index `i` on (R11). -/
def Memory.writeRange (m : Memory) (i : Nat) : List Byte → Memory
  | [] => m
  | b :: bs => Memory.writeRange (m.write i b) (i + 1) bs

/-- A buffer every byte of which is zero (R112). -/
def Memory.erased : Memory := ⟨.zero, []⟩

/-- The canonical form: indices strictly rising, and no listed byte equal to what its index is known to read as
unlisted. -/
abbrev Memory.wf (m : Memory) : Prop :=
  m.cells.Pairwise (fun x y => x.1 < y.1) ∧ ∀ c ∈ m.cells, m.base.isKnownAs c.2 = false

/-- Every listed index exists in a buffer of `cap` bytes (R61). -/
abbrev Memory.within (m : Memory) (cap : Nat) : Prop := ∀ c ∈ m.cells, c.1 < cap

/-! ### The buffers by name -/

/-- The buffer of a space. -/
def State.buffer (s : State) : Space → Memory
  | .input => s.input
  | .aux => s.aux
  | .output => s.output

/-- `BufRead(S, i)`: what the host reads (R65, R66). -/
def State.bufRead (s : State) : Space → Nat → Byte
  | .input, i => if i < s.params.inCap then s.input.read i else 0
  | .aux, i => if i < s.params.auxCap then s.aux.read i else 0
  | .output, i => if i < s.outLen.toNat then s.output.read i else 0

/-- `BufWrite(S, i, b)`: what the host's write does (R64, R67). -/
def State.bufWrite (s : State) : Space → Nat → Byte → State
  | .input, i, b => if i < s.params.inCap then { s with input := s.input.write i b } else s
  | .aux, i, b => if i < s.params.auxCap then { s with aux := s.aux.write i b } else s
  | .output, _, _ => s

/-- Set every byte of the three buffers, `IN_LEN`, `AUX_LEN` and `CTR` to 0 (R112). -/
def State.erase (s : State) : State :=
  { s with input := .erased, aux := .erased, output := .erased, inLen := 0, auxLen := 0, ctr := 0 }

/-! ### The key -/

/-- Bind a key: `KEY <- k`, `KEYV <- 1` (R111). -/
def State.bindKey (s : State) (k : Block) : State := { s with key := k, keyv := true }

/-- Unbind the key: `KEY <- rep(0x00, 16)`, `KEYV <- 0` (R113). -/
def State.unbindKey (s : State) : State := { s with key := .zero, keyv := false }

/-! ### Completion -/

/-- Successful completion (R264), with the data result written to `OUT` from index 0 (R11). -/
def State.complete (s : State) (r : Result) : State :=
  { s with
    output := s.output.writeRange 0 r.data
    outLen := BitVec.ofNat 32 r.data.length
    result := r.scalar
    vfy := r.vfy
    err := 0
    fail := false
    done := true }

/-- Failing completion, the meaning of `raise` (R265): six writes and nothing else (R266). -/
def State.raise (s : State) (f : Failure) : State :=
  { s with
    outLen := 0
    result := 0
    vfy := f.vfy
    err := f.error.code
    fail := true
    done := true }

/-- The completion of `NOP`: `ERR`, `FAIL` and `DONE` only (R110). -/
def State.acknowledge (s : State) : State := { s with err := 0, fail := false, done := true }

/-- The result of a command without a data or scalar result (R264). -/
def Result.none : Result := ⟨[], 0, 0⟩

/-- The result of a command whose only result is data (R264). -/
def Result.ofData (bs : List Byte) : Result := ⟨bs, 0, 0⟩

/-- An error that reports no digest bits (R265). -/
def Failure.of (e : CmdError) : Failure := ⟨e, 0⟩

/-- End a command: a body that ended without `raise` has its completed state, one that raised `f` has the failing
completion over the state before the command (R99, R266). -/
def conclude (s : State) (body : Except Failure State) : Host.Outcome State Fault Refusal :=
  .next (match body with
    | .ok t => t
    | .error f => s.raise f)

end Sys2Proof.Machine
end

