-- ==== Sys2Proof/Machine/Operands.lean ====
section
/-! DEFINITION. The operands of the commands (R39, R91, R103): all implicit, read from the state as it is when the
command word arrives (R75), each behind the check that guards it (R270, R271). -/

namespace Sys2Proof.Machine

/-- `IN*`: the bytes of `IN` below `IN_LEN` (R11), if `IN_LEN <= IN_CAP` (R270). -/
def inOperand (s : State) : Except Failure (List Byte) :=
  if s.inLen.toNat ≤ s.params.inCap then .ok (s.input.readRange 0 s.inLen.toNat)
  else .error (.of .lengthRange)

/-- `AUX*`: the bytes of `AUX` below `AUX_LEN` (R11), if `AUX_LEN <= AUX_CAP` (R270). -/
def auxOperand (s : State) : Except Failure (List Byte) :=
  if s.auxLen.toNat ≤ s.params.auxCap then .ok (s.aux.readRange 0 s.auxLen.toNat)
  else .error (.of .lengthRange)

/-- The bound key, if there is one (R271). -/
def keyOperand (s : State) : Except Failure Block :=
  if s.keyv then .ok s.key else .error (.of .noKey)

/-- A command over `IN*` (R146, R147): the length-range check, then the body. -/
def withInput (s : State) (body : List Byte → Except Failure Result) : Except Failure State :=
  match inOperand s with
  | .error f => .error f
  | .ok m =>
    match body m with
    | .error f => .error f
    | .ok r => .ok (s.complete r)

/-- A command over `AUX*` (R247): the length-range check, then the body. -/
def withAux (s : State) (body : List Byte → Except Failure Result) : Except Failure State :=
  match auxOperand s with
  | .error f => .error f
  | .ok a =>
    match body a with
    | .error f => .error f
    | .ok r => .ok (s.complete r)

/-- A command over `AUX*` and `IN*` (R166, R167): both length-range checks, then the body. -/
def withAuxAndInput (s : State) (body : List Byte → List Byte → Except Failure Result) :
    Except Failure State :=
  match auxOperand s with
  | .error f => .error f
  | .ok a => withInput s (body a)

/-- A command over `KEY` and `IN*`: the length-range check, the key check, then the body, in this order (R99,
R267). -/
def withKeyAndInput (s : State) (body : Block → List Byte → Except Failure Result) :
    Except Failure State :=
  withInput s fun m =>
    match keyOperand s with
    | .error f => .error f
    | .ok k => body k m

end Sys2Proof.Machine
end

