-- ==== Sys2Proof/Machine/Cipher.lean ====
section
/-! DEFINITION. The cipher unit: padding (R195 to R198), the CBC and ECB modes (R199 to R205) and the commands `CBCENC`,
`CBCDEC`, `ECBENC`, `ECBDEC` (R206 to R209). -/

namespace Sys2Proof.Machine

/-! ### Padding -/

/-- `N = 16 - (n mod 16)` for a sequence of length `n` (R196). -/
def padCount (n : Nat) : Nat := 16 - n % 16

/-- `Pad(P)` (R196). -/
def pad (p : List Byte) : List Byte :=
  p ++ rep (BitVec.ofNat 8 (padCount p.length)) (padCount p.length)

/-- `Unpad(Q)` for a sequence whose length is a positive multiple of 16 (R197): the last byte names the count, the count
is one the padder makes, and each of that many last bytes holds it. -/
def unpad (q : List Byte) : Except CmdError (List Byte) :=
  let last := q.getD (q.length - 1) 0
  let n := last.toNat
  if n = 0 ∨ 16 < n then .error .padding
  else if (q.drop (q.length - n)).all (· == last) then .ok (q.take (q.length - n))
  else .error .padding

/-! ### Modes -/

/-- The 16-byte blocks of a sequence whose length is a multiple of 16 (R200). -/
def blocksOf (q : List Byte) : List Block := (pieces 16 (q.length / 16) q).map blockOfBytes

/-- The bytes of a list of blocks, in order. -/
def bytesOf (bs : List Block) : List Byte := bs.flatMap blockBytes

/-- `C_j = AesEncryptBlock(K, XOR(Q_j, C_(j-1)))`, from the chaining block on (R201). -/
def cbcEncryptBlocks (k : Block) : Block → List Block → List Block
  | _, [] => []
  | chain, q :: qs =>
    let c := aesEncryptBlock k (q.xor chain)
    c :: cbcEncryptBlocks k c qs

/-- `Q_j = XOR(AesDecryptBlock(K, C_j), C_(j-1))`, from the chaining block on (R202). -/
def cbcDecryptBlocks (k : Block) : Block → List Block → List Block
  | _, [] => []
  | chain, c :: cs => (aesDecryptBlock k c).xor chain :: cbcDecryptBlocks k c cs

/-- `ZERO_IV`: the fixed all-zero initialization block (R199). -/
def zeroIv : Block := .zero

/-- `CbcEncrypt(K, P)` (R201). -/
def cbcEncrypt (k : Block) (p : List Byte) : List Byte :=
  bytesOf (cbcEncryptBlocks k zeroIv (blocksOf (pad p)))

/-- The input length check of decryption (R203). -/
def ciphertextLengthOk (c : List Byte) : Bool := c.length ≠ 0 && c.length % 16 = 0

/-- `CbcDecrypt(K, C)` (R202): the length check comes before any block is decrypted. -/
def cbcDecrypt (k : Block) (c : List Byte) : Except CmdError (List Byte) :=
  if ciphertextLengthOk c then unpad (bytesOf (cbcDecryptBlocks k zeroIv (blocksOf c)))
  else .error .inputLength

/-- `EcbEncrypt(K, P)` (R204). -/
def ecbEncrypt (k : Block) (p : List Byte) : List Byte :=
  bytesOf ((blocksOf (pad p)).map (aesEncryptBlock k))

/-- `EcbDecrypt(K, C)` (R205). -/
def ecbDecrypt (k : Block) (c : List Byte) : Except CmdError (List Byte) :=
  if ciphertextLengthOk c then unpad (bytesOf ((blocksOf c).map (aesDecryptBlock k)))
  else .error .inputLength

/-! ### The commands -/

/-- The data result of a function that can fail with an error name. -/
def dataOrRaise (r : Except CmdError (List Byte)) : Except Failure Result :=
  match r with
  | .ok bs => .ok (.ofData bs)
  | .error e => .error (.of e)

/-- `CBCENC` (R206). -/
def execCbcenc (s : State) : Host.Outcome State Fault Refusal :=
  conclude s (withKeyAndInput s fun k p => .ok (.ofData (cbcEncrypt k p)))

/-- `CBCDEC` (R207). -/
def execCbcdec (s : State) : Host.Outcome State Fault Refusal :=
  conclude s (withKeyAndInput s fun k c => dataOrRaise (cbcDecrypt k c))

/-- `ECBENC` (R208). -/
def execEcbenc (s : State) : Host.Outcome State Fault Refusal :=
  conclude s (withKeyAndInput s fun k p => .ok (.ofData (ecbEncrypt k p)))

/-- `ECBDEC` (R209). -/
def execEcbdec (s : State) : Host.Outcome State Fault Refusal :=
  conclude s (withKeyAndInput s fun k c => dataOrRaise (ecbDecrypt k c))

end Sys2Proof.Machine
end

