-- ==== Sys2Proof/Machine/Sha.lean ====
section
/-! DEFINITION. The two hash cores: SHA-1 (R132 to R136) and SHA-256 (R137 to R142) over the common padding and block
parsing (R130, R131). -/

namespace Sys2Proof.Machine

/-! ### Padding and parsing -/

/-- The number of zero bytes in `ShaPad` of an `n`-byte message: `(55 - n) mod 64`, the smallest `z` with
`(n + 1 + z) mod 64 = 56` (R130). -/
def shaZeros (n : Nat) : Nat := (119 - n % 64) % 64

/-- `ShaPad(M)` (R130). -/
def shaPad (m : List Byte) : List Byte :=
  m ++ [0x80] ++ rep 0x00 (shaZeros m.length) ++ toBE64 (BitVec.ofNat 64 (8 * m.length))

/-- The 64-byte blocks of a padded message (R131). -/
def shaBlocks (m : List Byte) : List (List Byte) :=
  pieces 64 ((shaPad m).length / 64) (shaPad m)

/-- The sixteen message words of a block (R131). -/
def messageWords (block : List Byte) : List Word := (pieces 4 16 block).map be32

/-- A digest from the words of the final state, each big-endian (R136, R142). -/
def digestBytes (ws : List Word) : List Byte := ws.flatMap toBE32

/-! ### SHA-1 -/

/-- The chaining state of SHA-1 and its working variables `a` to `e` (R132, R135). -/
structure Sha1State where
  a : Word
  b : Word
  c : Word
  d : Word
  e : Word
  deriving DecidableEq, Repr

/-- The initial state (R132). -/
def sha1Init : Sha1State := ⟨0x67452301, 0xEFCDAB89, 0x98BADCFE, 0x10325476, 0xC3D2E1F0⟩

/-- `f_t(b, c, d)` (R133). -/
def sha1F (t : Nat) (b c d : Word) : Word :=
  if t < 20 then (b &&& c) ||| ((~~~b) &&& d)
  else if t < 40 then b ^^^ c ^^^ d
  else if t < 60 then (b &&& c) ||| (b &&& d) ||| (c &&& d)
  else b ^^^ c ^^^ d

/-- `K_t` (R133). -/
def sha1K (t : Nat) : Word :=
  if t < 20 then 0x5A827999
  else if t < 40 then 0x6ED9EBA1
  else if t < 60 then 0x8F1BBCDC
  else 0xCA62C1D6

/-- The next `n` schedule words, put before the words so far, newest first (R134). -/
def sha1Extend : Nat → List Word → List Word
  | 0, ws => ws
  | n + 1, ws =>
    sha1Extend n
      (rotl32 (ws.getD 2 0 ^^^ ws.getD 7 0 ^^^ ws.getD 13 0 ^^^ ws.getD 15 0) 1 :: ws)

/-- The message schedule `W_0 .. W_79` of a block (R134). -/
def sha1Schedule (block : List Byte) : List Word :=
  (sha1Extend 64 (messageWords block).reverse).reverse

/-- One round (the loop body of R135). -/
def sha1Round (t : Nat) (w : Word) (s : Sha1State) : Sha1State where
  a := rotl32 s.a 5 + sha1F t s.b s.c s.d + s.e + sha1K t + w
  b := s.a
  c := rotl32 s.b 30
  d := s.c
  e := s.d

/-- The rounds from `t` on, one for each schedule word. -/
def sha1Rounds : Nat → List Word → Sha1State → Sha1State
  | _, [], s => s
  | t, w :: ws, s => sha1Rounds (t + 1) ws (sha1Round t w s)

/-- Compression of one block (R135). -/
def sha1Compress (h : Sha1State) (block : List Byte) : Sha1State :=
  let s := sha1Rounds 0 (sha1Schedule block) h
  ⟨h.a + s.a, h.b + s.b, h.c + s.c, h.d + s.d, h.e + s.e⟩

/-- `Hash160(M)` (R136). -/
def hash160 (m : List Byte) : List Byte :=
  let h := (shaBlocks m).foldl sha1Compress sha1Init
  digestBytes [h.a, h.b, h.c, h.d, h.e]

/-! ### SHA-256 -/

/-- The chaining state of SHA-256 and its working variables `a` to `h` (R137, R141). -/
structure Sha256State where
  a : Word
  b : Word
  c : Word
  d : Word
  e : Word
  f : Word
  g : Word
  h : Word
  deriving DecidableEq, Repr

/-- The initial state (R137). -/
def sha256Init : Sha256State :=
  ⟨0x6a09e667, 0xbb67ae85, 0x3c6ef372, 0xa54ff53a, 0x510e527f, 0x9b05688c, 0x1f83d9ab, 0x5be0cd19⟩

/-- The round constants `K256_0 .. K256_63`, one line of R138 a line. -/
def sha256Constants : List Word :=
  [0x428a2f98, 0x71374491, 0xb5c0fbcf, 0xe9b5dba5, 0x3956c25b, 0x59f111f1, 0x923f82a4, 0xab1c5ed5] ++
  [0xd807aa98, 0x12835b01, 0x243185be, 0x550c7dc3, 0x72be5d74, 0x80deb1fe, 0x9bdc06a7, 0xc19bf174] ++
  [0xe49b69c1, 0xefbe4786, 0x0fc19dc6, 0x240ca1cc, 0x2de92c6f, 0x4a7484aa, 0x5cb0a9dc, 0x76f988da] ++
  [0x983e5152, 0xa831c66d, 0xb00327c8, 0xbf597fc7, 0xc6e00bf3, 0xd5a79147, 0x06ca6351, 0x14292967] ++
  [0x27b70a85, 0x2e1b2138, 0x4d2c6dfc, 0x53380d13, 0x650a7354, 0x766a0abb, 0x81c2c92e, 0x92722c85] ++
  [0xa2bfe8a1, 0xa81a664b, 0xc24b8b70, 0xc76c51a3, 0xd192e819, 0xd6990624, 0xf40e3585, 0x106aa070] ++
  [0x19a4c116, 0x1e376c08, 0x2748774c, 0x34b0bcb5, 0x391c0cb3, 0x4ed8aa4a, 0x5b9cca4f, 0x682e6ff3] ++
  [0x748f82ee, 0x78a5636f, 0x84c87814, 0x8cc70208, 0x90befffa, 0xa4506ceb, 0xbef9a3f7, 0xc67178f2]

/-- `Ch` (R139). -/
def sha256Ch (x y z : Word) : Word := (x &&& y) ^^^ ((~~~x) &&& z)

/-- `Maj` (R139). -/
def sha256Maj (x y z : Word) : Word := (x &&& y) ^^^ (x &&& z) ^^^ (y &&& z)

/-- `BSIG0` (R139). -/
def sha256BSig0 (x : Word) : Word := rotr32 x 2 ^^^ rotr32 x 13 ^^^ rotr32 x 22

/-- `BSIG1` (R139). -/
def sha256BSig1 (x : Word) : Word := rotr32 x 6 ^^^ rotr32 x 11 ^^^ rotr32 x 25

/-- `SSIG0` (R139). -/
def sha256SSig0 (x : Word) : Word := rotr32 x 7 ^^^ rotr32 x 18 ^^^ (x >>> 3)

/-- `SSIG1` (R139). -/
def sha256SSig1 (x : Word) : Word := rotr32 x 17 ^^^ rotr32 x 19 ^^^ (x >>> 10)

/-- The next `n` schedule words, put before the words so far, newest first (R140). -/
def sha256Extend : Nat → List Word → List Word
  | 0, ws => ws
  | n + 1, ws =>
    sha256Extend n
      ((sha256SSig1 (ws.getD 1 0) + ws.getD 6 0 + sha256SSig0 (ws.getD 14 0) + ws.getD 15 0) :: ws)

/-- The message schedule `W_0 .. W_63` of a block (R140). -/
def sha256Schedule (block : List Byte) : List Word :=
  (sha256Extend 48 (messageWords block).reverse).reverse

/-- One round (the loop body of R141), with its constant and its schedule word. -/
def sha256Round (s : Sha256State) (kw : Word × Word) : Sha256State :=
  let t1 := s.h + sha256BSig1 s.e + sha256Ch s.e s.f s.g + kw.1 + kw.2
  let t2 := sha256BSig0 s.a + sha256Maj s.a s.b s.c
  ⟨t1 + t2, s.a, s.b, s.c, s.d + t1, s.e, s.f, s.g⟩

/-- Compression of one block (R141). -/
def sha256Compress (h : Sha256State) (block : List Byte) : Sha256State :=
  let s := (sha256Constants.zip (sha256Schedule block)).foldl sha256Round h
  ⟨h.a + s.a, h.b + s.b, h.c + s.c, h.d + s.d, h.e + s.e, h.f + s.f, h.g + s.g, h.h + s.h⟩

/-- `Hash256(M)` (R142). -/
def hash256 (m : List Byte) : List Byte :=
  let h := (shaBlocks m).foldl sha256Compress sha256Init
  digestBytes [h.a, h.b, h.c, h.d, h.e, h.f, h.g, h.h]

end Sys2Proof.Machine
end

