-- ==== Sys2Proof/Machine/Container.lean ====
section
/-! DEFINITION. The container codec (R220 to R231): packing, the derived "password", parsing with its bounds check, the
verification of both digests, and the commands `CENCODE`, `CDECODE`. -/

namespace Sys2Proof.Machine

/-- `Pack(P)`: length, 160-bit digest, payload, 256-bit digest (R220, R221). -/
def pack (p : List Byte) : List Byte :=
  toLE32 (BitVec.ofNat 32 p.length) ++ hash160 p ++ p ++ hash256 p

/-- `password(P)`: the first four bytes of the 256-bit digest, little-endian (R226). -/
def password (p : List Byte) : Word := le32 (slice (hash256 p) 0 4)

/-- The "password" as D00's signed integer (R226). -/
def signedPassword (p : List Byte) : Int := signed32 (password p)

/-- `Encode(K, P)`: ciphertext and password (R223). -/
def encodeContainer (k : Block) (p : List Byte) : List Byte × Word :=
  (cbcEncrypt k (pack p), password p)

/-- The parts of a parsed container (R228). -/
structure Parsed where
  d160 : List Byte
  payload : List Byte
  d256 : List Byte
  deriving DecidableEq, Repr

/-- The length field of a plaintext form (R228). -/
def lengthField (q : List Byte) : Nat := (le32 (slice q 0 4)).toNat

/-- Parse with bounds check (R228); trailing bytes after `digest256` are ignored.  The subtraction is made only after
`m >= 56` is known (R237). -/
def parseContainer (q : List Byte) : Except CmdError Parsed :=
  let m := q.length
  if m < 56 then .error .truncatedContainer
  else
    let l := lengthField q
    if m - 56 < l then .error .truncatedContainer
    else .ok ⟨slice q 4 24, slice q 24 (24 + l), slice q (24 + l) (24 + l + 32)⟩

/-- Verification (R230): both digests are recomputed and both compared. -/
def verifyParsed (c : Parsed) : BitVec 2 :=
  verifyBits (c.d160 == hash160 c.payload) (c.d256 == hash256 c.payload)

/-- Decrypt and parse (R227, R228): the steps of Decode before verification, their errors propagated. -/
def openContainer (k : Block) (c : List Byte) : Except CmdError Parsed :=
  match cbcDecrypt k c with
  | .error e => .error e
  | .ok q => parseContainer q

/-- `Decode(K, C)` with what it reports (R229 to R231): the payload only if both digests match. -/
def decodeContainer (k : Block) (c : List Byte) : Except Failure Result :=
  match openContainer k c with
  | .error e => .error (.of e)
  | .ok parsed =>
    let v := verifyParsed parsed
    if v = 3 then .ok ⟨parsed.payload, 0, 3⟩ else .error ⟨.digestMismatch, v⟩

/-- `CENCODE` (R225). -/
def execCencode (s : State) : Host.Outcome State Fault Refusal :=
  conclude s (withKeyAndInput s fun k p =>
    .ok ⟨(encodeContainer k p).1, (encodeContainer k p).2, 0⟩)

/-- `CDECODE` (R229). -/
def execCdecode (s : State) : Host.Outcome State Fault Refusal :=
  conclude s (withKeyAndInput s fun k c => decodeContainer k c)

end Sys2Proof.Machine
end

