-- ==== Sys2Proof/Machine/Digest.lean ====
section
/-! DEFINITION. The digest unit: `HASH160`, `HASH256` (R146, R147), and the keyed digest `KDIG160`, `KDIG256` (R160 to
R167). -/

namespace Sys2Proof.Machine

/-! ### HMAC -/

/-- Key normalisation: a secret of more than 64 bytes is first hashed; then zero bytes up to 64 (R162). -/
def hmacKey (hash : List Byte → List Byte) (secret : List Byte) : List Byte :=
  let short := if 64 < secret.length then hash secret else secret
  short ++ rep 0x00 (64 - short.length)

/-- `IPAD` (R163). -/
def innerPad (k0 : List Byte) : List Byte := xorBytes k0 (rep 0x36 64)

/-- `OPAD` (R164). -/
def outerPad (k0 : List Byte) : List Byte := xorBytes k0 (rep 0x5c 64)

/-- `Hmac(H, S, M)`: two digest passes (R165). -/
def hmac (hash : List Byte → List Byte) (secret message : List Byte) : List Byte :=
  let k0 := hmacKey hash secret
  hash (outerPad k0 ++ hash (innerPad k0 ++ message))

/-! ### The commands -/

/-- `HASH160` (R146). -/
def execHash160 (s : State) : Host.Outcome State Fault Refusal :=
  conclude s (withInput s fun m => .ok (.ofData (hash160 m)))

/-- `HASH256` (R147). -/
def execHash256 (s : State) : Host.Outcome State Fault Refusal :=
  conclude s (withInput s fun m => .ok (.ofData (hash256 m)))

/-- `KDIG160` (R166): the secret is `AUX*`, the message `IN*`. -/
def execKdig160 (s : State) : Host.Outcome State Fault Refusal :=
  conclude s (withAuxAndInput s fun secret m => .ok (.ofData (hmac hash160 secret m)))

/-- `KDIG256` (R167): the secret is `AUX*`, the message `IN*`. -/
def execKdig256 (s : State) : Host.Outcome State Fault Refusal :=
  conclude s (withAuxAndInput s fun secret m => .ok (.ofData (hmac hash256 secret m)))

end Sys2Proof.Machine
end

