-- ==== Sys2Proof/Machine/Otp.lean ====
section
/-! DEFINITION. The one-time-password generator (R245 to R252) and the command `HOTP`. -/

namespace Sys2Proof.Machine

/-- `mac[19] & 0x0F` (R245 step 3). -/
def truncationOffset (mac : List Byte) : Nat := (mac.getD 19 0 &&& 0x0F).toNat

/-- `binCode`: four bytes from the offset, big-endian, the top bit masked off (R245 step 4, R246). -/
def binCode (mac : List Byte) : Nat :=
  let o := truncationOffset mac
  natOfBE [mac.getD o 0 &&& 0x7F, mac.getD (o + 1) 0, mac.getD (o + 2) 0, mac.getD (o + 3) 0]

/-- `Hotp(S, c)` (R245). -/
def hotp (secret : List Byte) (counter : BitVec 64) : Nat :=
  binCode (hmac hash160 secret (toBE64 counter)) % 1000000

/-- `HOTP` (R247): the code is the scalar result; there is no data result. -/
def execHotp (s : State) : Host.Outcome State Fault Refusal :=
  conclude s (withAux s fun secret => .ok ⟨[], BitVec.ofNat 32 (hotp secret s.ctr), 0⟩)

end Sys2Proof.Machine
end

