-- ==== Sys2Proof/Machine/System.lean ====
section
/-! DEFINITION. The system commands `NOP`, `LOADKEY`, `CLEAR`, `ZEROIZE` (R110 to R115), and the illegal command
(R94). -/

namespace Sys2Proof.Machine

/-- `NOP` (R110). -/
def execNop (s : State) : Host.Outcome State Fault Refusal :=
  conclude s (.ok s.acknowledge)

/-- The key `LOADKEY` binds: the length-range check, then the length 16 (R111). -/
def keyToBind (s : State) : Except Failure Block :=
  match auxOperand s with
  | .error f => .error f
  | .ok _ =>
    if s.auxLen = 16 then .ok (blockOfBytes (s.aux.readRange 0 16)) else .error (.of .keyLength)

/-- `LOADKEY` (R111). -/
def execLoadkey (s : State) : Host.Outcome State Fault Refusal :=
  conclude s
    (match keyToBind s with
    | .error f => .error f
    | .ok k => .ok ((s.bindKey k).complete .none))

/-- `CLEAR` (R112). -/
def execClear (s : State) : Host.Outcome State Fault Refusal :=
  conclude s (.ok (s.erase.complete .none))

/-- `ZEROIZE` (R113). -/
def execZeroize (s : State) : Host.Outcome State Fault Refusal :=
  conclude s (.ok (s.erase.unbindKey.complete .none))

/-- A command word outside the table (R94, R269): no operand is read. -/
def execIllegal (s : State) : Host.Outcome State Fault Refusal :=
  conclude s (.error (.of .illegalCommand))

end Sys2Proof.Machine
end

