-- ==== Sys2Proof/Machine/Dispatch.lean ====
section
/-! DEFINITION. One arm per command of the opcode table (R92). -/

namespace Sys2Proof.Machine

def exec (i : Instr) (s : State) : Host.Outcome State Fault Refusal :=
  match i with
  | .nop => Sys2Proof.Machine.execNop s
  | .loadkey => Sys2Proof.Machine.execLoadkey s
  | .clear => Sys2Proof.Machine.execClear s
  | .zeroize => Sys2Proof.Machine.execZeroize s
  | .hash160 => Sys2Proof.Machine.execHash160 s
  | .hash256 => Sys2Proof.Machine.execHash256 s
  | .kdig160 => Sys2Proof.Machine.execKdig160 s
  | .kdig256 => Sys2Proof.Machine.execKdig256 s
  | .cbcenc => Sys2Proof.Machine.execCbcenc s
  | .cbcdec => Sys2Proof.Machine.execCbcdec s
  | .ecbenc => Sys2Proof.Machine.execEcbenc s
  | .ecbdec => Sys2Proof.Machine.execEcbdec s
  | .cencode => Sys2Proof.Machine.execCencode s
  | .cdecode => Sys2Proof.Machine.execCdecode s
  | .hotp => Sys2Proof.Machine.execHotp s

end Sys2Proof.Machine
end

