-- ==== Sys2Proof/WellFormed.lean ====
section
/-! DEFINITION. Which terms stand for something the interface has.  A command word has no operand field (R91), so
every `Instr` is well formed; what can be ill formed is a register access (R63) and a script line that needs one of
the sizes of R96 and R97. -/

namespace Sys2Proof

/-- Every command is well formed: there is no operand to check (R91, R101). -/
def Instr.wellFormed : Instr → Bool
  | .nop | .loadkey | .clear | .zeroize => true
  | .hash160 | .hash256 | .kdig160 | .kdig256 => true
  | .cbcenc | .cbcdec | .ecbenc | .ecbdec => true
  | .cencode | .cdecode => true
  | .hotp => true

namespace Machine

/-- A register access exists only at a multiple of 4 from 0x00 to 0xFC (R63, R72). -/
def registerOffsetOk (off : Nat) : Bool := off % 4 == 0 && off ≤ 0xFC

/-- Which transactions exist at the interface: register accesses as R63 says; every buffer access (R64 to R67 give
a result for every index). -/
def Transaction.wellFormed : Transaction → Bool
  | .regRead off => registerOffsetOk off
  | .regWrite off _ => registerOffsetOk off
  | .bufRead _ _ => true
  | .bufWrite _ _ _ => true

/-- Reset always exists (R300). -/
def HostEvent.wellFormed : HostEvent → Bool
  | .transact t => t.wellFormed
  | .reset => true

/-- A script line whose expansion stays meaningful on a block with parameters `p` when the host has just read `n` from
`OUT_LEN`: `SETIN`, `SETAUX` and `KEY` write a length register, a 32-bit value, so the string has fewer than `2^32`
bytes; `OUT2IN` "needs `n <= IN_CAP`" (R97). -/
def ScriptLine.wellFormed (p : Params) (n : Nat) : ScriptLine → Bool
  | .setin hex | .setaux hex | .key hex => hex.length < 2 ^ 32
  | .out2in => n ≤ p.inCap
  | .wrr _ _ | .rdr _ | .wrb _ _ _ | .rdb _ _ _ | .cmd _ | .cmdw _ | .setctr _ | .getout => true

end Machine

end Sys2Proof
end

