-- ==== Sys2Proof/Machine/Port.lean ====
section
/-! DEFINITION. The host port (R62 to R67): register offsets and accesses, the execution of a command word inside its
`CMD` write (R24, R75, R99), buffer accesses, and the external reset (R300). -/

namespace Sys2Proof.Machine

/-- The offset of a register (R22). -/
def Reg.offset : Reg → Nat
  | .id => 0x00
  | .cmd => 0x04
  | .status => 0x08
  | .err => 0x0C
  | .inLen => 0x10
  | .auxLen => 0x14
  | .outLen => 0x18
  | .result => 0x1C
  | .ctrLo => 0x20
  | .ctrHi => 0x24
  | .vfy => 0x28
  | .inCap => 0x2C
  | .auxCap => 0x30
  | .outCap => 0x34

/-- The register at an offset; none at 0x38 to 0xFC (R22). -/
def regAt (off : Nat) : Option Reg :=
  match off with
  | 0x00 => some .id
  | 0x04 => some .cmd
  | 0x08 => some .status
  | 0x0C => some .err
  | 0x10 => some .inLen
  | 0x14 => some .auxLen
  | 0x18 => some .outLen
  | 0x1C => some .result
  | 0x20 => some .ctrLo
  | 0x24 => some .ctrHi
  | 0x28 => some .vfy
  | 0x2C => some .inCap
  | 0x30 => some .auxCap
  | 0x34 => some .outCap
  | _ => none

/-- What a register reads as (R22 to R33). -/
def readReg (s : State) : Reg → Word
  | .id => Config.idWord
  | .cmd => 0
  | .status => statusWord s
  | .err => errWord s
  | .inLen => s.inLen
  | .auxLen => s.auxLen
  | .outLen => s.outLen
  | .result => s.result
  | .ctrLo => s.ctr.extractLsb' 0 32
  | .ctrHi => s.ctr.extractLsb' 32 32
  | .vfy => vfyWord s
  | .inCap => BitVec.ofNat 32 s.params.inCap
  | .auxCap => BitVec.ofNat 32 s.params.auxCap
  | .outCap => BitVec.ofNat 32 s.params.outCap

/-- What a write to a register stores (R22, R63): the RW registers take the value, the RO registers ignore it.  `CMD`
stores nothing; its effect is `command`. -/
def writeReg (s : State) (v : Word) : Reg → State
  | .inLen => { s with inLen := v }
  | .auxLen => { s with auxLen := v }
  | .ctrLo => { s with ctr := s.ctr.extractLsb' 32 32 ++ v }
  | .ctrHi => { s with ctr := v ++ s.ctr.extractLsb' 0 32 }
  | .id | .cmd | .status | .err | .outLen | .result | .vfy | .inCap | .auxCap | .outCap => s

/-- `RegRead(off)`: offsets without a register read 0 (R63). -/
def regRead (s : State) (off : Nat) : Word :=
  match regAt off with
  | some r => readReg s r
  | none => 0

/-- The execution of a command word (R24, R93, R94, R99). -/
def command (w : Word) (s : State) : Host.Outcome State Fault Refusal :=
  match decode w with
  | .ok i => exec i s
  | .error _ => execIllegal s

/-- `RegWrite(off, v)`: a write to `CMD` executes a command, writes to offsets without a register do nothing (R63). -/
def regWrite (s : State) (off : Nat) (v : Word) : Host.Outcome State Fault Refusal :=
  match regAt off with
  | some .cmd => command v s
  | some r => .next (writeReg s v r)
  | none => .next s

/-- Hand a value to the host (R62). -/
def State.reply (s : State) (r : Reply) : State := { s with replies := s.replies ++ [r] }

/-- One host transaction, atomic (R62, R75). -/
def perform (t : Transaction) (s : State) : Host.Outcome State Fault Refusal :=
  match t with
  | .regRead off => .next (s.reply (.word (regRead s off)))
  | .regWrite off v => regWrite s off v
  | .bufRead space i => .next (s.reply (.byte (s.bufRead space i)))
  | .bufWrite space i b => .next (s.bufWrite space i b)

/-- The register offset a transaction names. -/
def Transaction.offset : Transaction → Nat
  | .regRead off => off
  | .regWrite off _ => off
  | .bufRead _ _ => 0
  | .bufWrite _ _ _ => 0

/-- A transaction that exists at the interface is performed; another is refused (R63, R278). -/
def transact (t : Transaction) (s : State) : Host.Outcome State Fault Refusal :=
  if t.wellFormed then perform t s else .refused (.noSuchRegisterAccess t.offset)

/-- The external reset (R300): every item of R20 to its reset value, the buffers to a new draw of unspecified bytes.
The host's own events and what it has read are no state of the block. -/
def State.resetAgain (s : State) : State :=
  { State.resetOf s.params (s.resets + 1) with pending := s.pending, replies := s.replies }

/-- One event from outside. -/
def deliver (e : HostEvent) (s : State) : Host.Outcome State Fault Refusal :=
  match e with
  | .transact t => transact t s
  | .reset => .next s.resetAgain

/-- Take the next host event, if there is one; between events the block is idle (R62, R301). -/
def takeEvent (s : State) : Host.Outcome State Fault Refusal :=
  match s.pending with
  | [] => .next s
  | e :: rest => deliver e { s with pending := rest }

/-- The host transaction that carries a command word (R24). -/
def commandWrite (w : Word) : HostEvent := .transact (.regWrite 0x04 w)

/-- Put an event before all that are waiting. -/
def State.offer (s : State) (e : HostEvent) : State := { s with pending := e :: s.pending }

end Sys2Proof.Machine
end

