-- ==== Sys2Proof/Machine/Step.lean ====
section
/-! DEFINITION. One step of the machine: the next host event (R84), and where the host places a command word for the
step to take. -/

namespace Sys2Proof.Machine

/-- One step: the next host transaction or reset takes effect completely (R76, R84). -/
def step (s : State) : Host.Outcome State Fault Refusal := takeEvent s

/-- The state in which the very next step executes the command word `w`: a `CMD` write of it is the host's next
transaction.  Bits of `w` above `nbits` count as 0. -/
def State.withFetchWord (s : State) (nbits w : Nat) : State :=
  s.offer (commandWrite (BitVec.ofNat 32 (w % 2 ^ nbits)))

end Sys2Proof.Machine
end

