-- ==== Sys2Proof/Machine/Script.lean ====
section
/-! DEFINITION. Host scripts (R96, R97): the transactions each line stands for.  `GETOUT` and `OUT2IN` use what the host
reads on the way, so the expansion of a line depends on the state the line starts from; reads have no effect (R69). -/

namespace Sys2Proof.Machine

/-- `WRR name, value` (R96). -/
def wrrEvents (name : Reg) (value : Word) : List HostEvent := [.transact (.regWrite name.offset value)]

/-- `RDR name` (R96). -/
def rdrEvents (name : Reg) : List HostEvent := [.transact (.regRead name.offset)]

/-- `WRB space, index, hex`: ascending indices (R96). -/
def wrbEvents (space : Space) : Nat → List Byte → List HostEvent
  | _, [] => []
  | i, b :: bs => .transact (.bufWrite space i b) :: wrbEvents space (i + 1) bs

/-- `RDB space, index, count` (R96). -/
def rdbEvents (space : Space) (i n : Nat) : List HostEvent :=
  (List.range n).map fun k => .transact (.bufRead space (i + k))

/-- `SETIN hex`: the bytes, then `IN_LEN` (R97). -/
def setinEvents (hex : List Byte) : List HostEvent :=
  wrbEvents .input 0 hex ++ wrrEvents .inLen (BitVec.ofNat 32 hex.length)

/-- `SETAUX hex`: the bytes, then `AUX_LEN` (R97). -/
def setauxEvents (hex : List Byte) : List HostEvent :=
  wrbEvents .aux 0 hex ++ wrrEvents .auxLen (BitVec.ofNat 32 hex.length)

/-- `OUT2IN` from state `s`: read `OUT_LEN`, move each byte, write `IN_LEN` (R97). -/
def out2inEvents (s : State) : List HostEvent :=
  rdrEvents .outLen ++
  ((List.range s.outLen.toNat).flatMap fun k =>
    [.transact (.bufRead .output k), .transact (.bufWrite .input k (s.bufRead .output k))]) ++
  wrrEvents .inLen s.outLen

/-- The host events a script line stands for when it starts in state `s` (R96, R97). -/
def lineEvents (s : State) : ScriptLine → List HostEvent
  | .wrr name value => wrrEvents name value
  | .rdr name => rdrEvents name
  | .wrb space index hex => wrbEvents space index hex
  | .rdb space index count => rdbEvents space index count
  | .cmd i => [commandWrite (encode i)]
  | .cmdw value => [commandWrite value]
  | .setin hex => setinEvents hex
  | .setaux hex => setauxEvents hex
  | .setctr v => wrrEvents .ctrLo (v.extractLsb' 0 32) ++ wrrEvents .ctrHi (v.extractLsb' 32 32)
  | .key hex => setauxEvents hex ++ [commandWrite (encode .loadkey)]
  | .getout => rdrEvents .outLen ++ rdbEvents .output 0 s.outLen.toNat
  | .out2in => out2inEvents s

/-- Deliver events one after another, each to the state the one before left (R84). -/
def runEvents : List HostEvent → State → Host.Outcome State Fault Refusal
  | [], s => .next s
  | e :: es, s =>
    match deliver e s with
    | .next t => runEvents es t
    | .fault r => .fault r
    | .refused r => .refused r

/-- Run a script from a state: its lines top to bottom (R96).  A run in the sense of R84 is a script from a reset
state. -/
def runScript : List ScriptLine → State → Host.Outcome State Fault Refusal
  | [], s => .next s
  | l :: ls, s =>
    match runEvents (lineEvents s l) s with
    | .next t => runScript ls t
    | .fault r => .fault r
    | .refused r => .refused r

end Sys2Proof.Machine
end

