-- ==== Sys2Proof/Safety.lean ====
section
/-! DEFINITION. What holds in every state a run can reach: the invariants of R41, the constraints of R6, and the
canonical form of the three buffers; and what it means that a machine does not stop. -/

namespace Sys2Proof

open Sys2Proof.Machine

/-- The commands that read `IN` (R270). -/
def readsIn : Instr → Bool
  | .hash160 | .hash256 | .kdig160 | .kdig256 | .cbcenc | .cbcdec | .ecbenc | .ecbdec | .cencode | .cdecode => true
  | .nop | .loadkey | .clear | .zeroize | .hotp => false

/-- The commands that read `AUX` (R270). -/
def readsAux : Instr → Bool
  | .loadkey | .kdig160 | .kdig256 | .hotp => true
  | .nop | .clear | .zeroize | .hash160 | .hash256 | .cbcenc | .cbcdec | .ecbenc | .ecbdec | .cencode
  | .cdecode => false

/-- The commands that use `KEY` (R271). -/
def usesKey : Instr → Bool
  | .cbcenc | .cbcdec | .ecbenc | .ecbdec | .cencode | .cdecode => true
  | .nop | .loadkey | .clear | .zeroize | .hash160 | .hash256 | .kdig160 | .kdig256 | .hotp => false

/-- The length registers a command uses are in range (R270). -/
abbrev OperandsInRange (i : Instr) (s : State) : Prop :=
  (readsIn i = true → s.inLen.toNat ≤ s.params.inCap) ∧ (readsAux i = true → s.auxLen.toNat ≤ s.params.auxCap)

/-- The error codes a command can end with: the rows of R268, code 0 included. -/
def possibleCodes : Instr → List (BitVec 8)
  | .nop | .clear | .zeroize => [0]
  | .loadkey => [0, 1, 10]
  | .hash160 | .hash256 | .kdig160 | .kdig256 | .hotp => [0, 10]
  | .cbcenc | .ecbenc | .cencode => [0, 9, 10]
  | .cbcdec | .ecbdec => [0, 2, 3, 9, 10]
  | .cdecode => [0, 2, 3, 4, 5, 9, 10]

/-- The values `ERR` can hold (R41 g, R261). -/
def errCodes : List (BitVec 8) := [0, 1, 2, 3, 4, 5, 8, 9, 10]

/-- The state invariants of R41, clause by clause, with the parameter constraints of R6 and the canonical form of the
buffers. -/
structure BlockInv (s : State) : Prop where
  /-- R6. -/
  params : s.params.wellFormed
  /-- R41 (a). -/
  outLen_le : s.outLen.toNat ≤ s.params.outCap
  /-- R41 (b). -/
  key_zero : s.keyv = false → s.key = .zero
  /-- R41 (c). -/
  fail_iff : s.fail = true ↔ s.err ≠ 0
  /-- R41 (d). -/
  fail_clears : s.fail = true → s.outLen = 0 ∧ s.result = 0
  /-- R41 (e). -/
  verified : s.vfy = 3 → s.fail = false
  /-- R41 (g). -/
  err_code : s.err ∈ errCodes
  /-- The canonical form of `IN`, and no byte beyond its capacity. -/
  input_wf : s.input.wf ∧ s.input.within s.params.inCap
  /-- The canonical form of `AUX`, and no byte beyond its capacity. -/
  aux_wf : s.aux.wf ∧ s.aux.within s.params.auxCap
  /-- The canonical form of `OUT`, and no byte beyond its capacity. -/
  output_wf : s.output.wf ∧ s.output.within s.params.outCap

/-- Every host event still to come exists at the interface (R63, R85). -/
def PendingOk (s : State) : Prop := ∀ e ∈ s.pending, e.wellFormed = true

/-- The states a run can reach from a reset state with any parameters R6 allows, any draw of the unspecified bytes and
any host events (R84). -/
inductive Reachable : State → Prop where
  | reset (p : Params) (draw : Nat) (events : List HostEvent) (h : p.wellFormed) :
      Reachable { State.resetOf p draw with pending := events }
  | step {s t : State} (hs : Reachable s) (h : Machine.step s = .next t) : Reachable t

end Sys2Proof
end

