-- ==== Sys2Proof/Certificates/Slice0/Obligations.lean ====
section
/-! DEFINITION. The statements for the provers: what the numbered rules of the spec say of the commands, the host's
transactions, reset, and the machine as a whole. -/

namespace Sys2Proof.Claims

open Sys2Proof.Machine

/-- `IN*` as the host sees it: the bytes of `IN` below `IN_LEN` (R11, R79). -/
def inStar (s : State) : List Byte := (List.range s.inLen.toNat).map fun i => s.bufRead .input i

/-- `AUX*` as the host sees it (R11, R79). -/
def auxStar (s : State) : List Byte := (List.range s.auxLen.toNat).map fun i => s.bufRead .aux i

/-- The six register writes of a successful completion (R264) and the data result as the host reads it (R66). -/
structure Completed (t : State) (data : List Byte) (scalar : Word) (v : BitVec 2) : Prop where
  outLen : t.outLen.toNat = data.length
  out : ∀ i, t.bufRead .output i = data.getD i 0
  result : t.result = scalar
  vfy : t.vfy = v
  err : t.err = 0
  fail : t.fail = false
  done : t.done = true

/-- The six register writes of a failing completion with an error code (R265), and that no byte of `OUT` can be
read (R66). -/
structure Failed (t : State) (code : BitVec 8) (v : BitVec 2) : Prop where
  outLen : t.outLen = 0
  out : ∀ i, t.bufRead .output i = 0
  result : t.result = 0
  vfy : t.vfy = v
  err : t.err = code
  fail : t.fail = true
  done : t.done = true

/-- The host-written operands (`IN_LEN`, `AUX_LEN`, `CTR`, every byte of `IN` and `AUX`) are as before, and so are the
parameters and everything outside the block. -/
structure KeepsOperands (s t : State) : Prop where
  inLen : t.inLen = s.inLen
  auxLen : t.auxLen = s.auxLen
  ctr : t.ctr = s.ctr
  input : t.input = s.input
  aux : t.aux = s.aux
  params : t.params = s.params
  pending : t.pending = s.pending
  replies : t.replies = s.replies
  resets : t.resets = s.resets

/-- `KEY` and `KEYV` are as before. -/
structure KeepsKey (s t : State) : Prop where
  key : t.key = s.key
  keyv : t.keyv = s.keyv

/-- The command ends in the failing completion with code `code` and digest bits `v`, everything else kept (R265,
R266). -/
def FailsWith (i : Instr) (s : State) (code : BitVec 8) (v : BitVec 2) : Prop :=
  ∃ t, exec i s = .next t ∧ Failed t code v ∧ KeepsOperands s t ∧ KeepsKey s t

/-- The command ends in the successful completion with these results, everything else kept (R264). -/
def CompletesWith (i : Instr) (s : State) (data : List Byte) (scalar : Word) (v : BitVec 2) : Prop :=
  ∃ t, exec i s = .next t ∧ Completed t data scalar v ∧ KeepsOperands s t ∧ KeepsKey s t

/-- The two common checks, in their order, of a command that reads `IN` and uses `KEY` (R270, R271). -/
def CommonErrors (i : Instr) (s : State) : Prop :=
  (s.params.inCap < s.inLen.toNat → FailsWith i s 10 0) ∧
  (s.inLen.toNat ≤ s.params.inCap → s.keyv = false → FailsWith i s 9 0)

/-- Two states that differ at most in `KEY`. -/
def SameButKey (s t : State) : Prop := t = { s with key := t.key }

/-- The next host event is a `CMD` write of one of the six commands that use `KEY`. -/
def NextUsesKey (s : State) : Prop :=
  ∃ w i rest, s.pending = commandWrite w :: rest ∧ decode w = .ok i ∧ usesKey i = true

/-- Two states that agree on everything a command may read: `KEY`, `KEYV`, the buffers, the host-written registers and
the parameters (R39). -/
structure SameOperands (s t : State) : Prop where
  key : t.key = s.key
  keyv : t.keyv = s.keyv
  inLen : t.inLen = s.inLen
  auxLen : t.auxLen = s.auxLen
  ctr : t.ctr = s.ctr
  input : t.input = s.input
  aux : t.aux = s.aux
  params : t.params = s.params

/-- Two states show the host the same block: every register and every byte it can read. -/
structure SameView (s t : State) : Prop where
  regs : ∀ off, regRead t off = regRead s off
  bytes : ∀ space i, t.bufRead space i = s.bufRead space i

/-- What the registers read as, offset by offset (R22 to R33). -/
def registerTable (s : State) : List (Nat × Word) :=
  [ (0x00, 0x43413407), (0x04, 0),
    (0x08, BitVec.ofNat 32 (4 * s.keyv.toNat + 2 * s.fail.toNat + s.done.toNat)),
    (0x0C, s.err.setWidth 32), (0x10, s.inLen), (0x14, s.auxLen), (0x18, s.outLen), (0x1C, s.result),
    (0x20, BitVec.ofNat 32 (s.ctr.toNat % 2 ^ 32)), (0x24, BitVec.ofNat 32 (s.ctr.toNat / 2 ^ 32)),
    (0x28, s.vfy.setWidth 32), (0x2C, BitVec.ofNat 32 s.params.inCap),
    (0x30, BitVec.ofNat 32 s.params.auxCap), (0x34, BitVec.ofNat 32 (s.params.inCap + 72)) ]

/-- The four bytes from index `i` on as one word, the first most significant (R131). -/
def wordAt (bs : List Byte) (i : Nat) : Word :=
  (bs.getD i 0 ++ bs.getD (i + 1) 0 ++ bs.getD (i + 2) 0 ++ bs.getD (i + 3) 0 : BitVec (8 + 8 + 8 + 8))

/-- The four bytes of a word, most significant first (R10). -/
def bigEndian (w : Word) : List Byte :=
  [w.extractLsb' 24 8, w.extractLsb' 16 8, w.extractLsb' 8 8, w.extractLsb' 0 8]

/-- The four bytes of a word, least significant first (R10). -/
def littleEndian (w : Word) : List Byte :=
  [w.extractLsb' 0 8, w.extractLsb' 8 8, w.extractLsb' 16 8, w.extractLsb' 24 8]

/-- The first four bytes of a sequence as one word, the first least significant (R10). -/
def firstWordLE (bs : List Byte) : Word :=
  (bs.getD 3 0 ++ bs.getD 2 0 ++ bs.getD 1 0 ++ bs.getD 0 0 : BitVec (8 + 8 + 8 + 8))

/-- Byte `i` of a block (R185). -/
def byteOf (b : Block) (i : Nat) : Byte := (blockBytes b).getD i 0

/-- The block at bytes `16 j` to `16 j + 15` of a sequence (R200). -/
def blockAt (bs : List Byte) (j : Nat) : Block := blockOfBytes ((bs.drop (16 * j)).take 16)

/-- The block whose bytes are `0x00` to `0x0f`, the key of the spec's examples. -/
def countingKey : Block := blockOfBytes ((List.range 16).map (BitVec.ofNat 8))

/-- The first key of the examples of R186. -/
def sampleKey : Block :=
  blockOfBytes [0x2b, 0x7e, 0x15, 0x16, 0x28, 0xae, 0xd2, 0xa6, 0xab, 0xf7, 0x15, 0x88, 0x09, 0xcf, 0x4f, 0x3c]

/-- The first 64 primes (R137, R138). -/
def firstPrimes : List Nat :=
  [2, 3, 5, 7, 11, 13, 17, 19, 23, 29, 31, 37, 41, 43, 47, 53, 59, 61, 67, 71, 73, 79] ++
  [83, 89, 97, 101, 103, 107, 109, 113, 127, 131, 137, 139, 149, 151, 157, 163, 167, 173, 179, 181, 191, 193] ++
  [197, 199, 211, 223, 227, 229, 233, 239, 241, 251, 257, 263, 269, 271, 277, 281, 283, 293, 307, 311]

/-- The initial words of R137. -/
def initialWords : List Word :=
  [0x6a09e667, 0xbb67ae85, 0x3c6ef372, 0xa54ff53a, 0x510e527f, 0x9b05688c, 0x1f83d9ab, 0x5be0cd19]

/-- The round constants of R138, left to right, top to bottom. -/
def roundConstants : List Word :=
  [0x428a2f98, 0x71374491, 0xb5c0fbcf, 0xe9b5dba5, 0x3956c25b, 0x59f111f1, 0x923f82a4, 0xab1c5ed5] ++
  [0xd807aa98, 0x12835b01, 0x243185be, 0x550c7dc3, 0x72be5d74, 0x80deb1fe, 0x9bdc06a7, 0xc19bf174] ++
  [0xe49b69c1, 0xefbe4786, 0x0fc19dc6, 0x240ca1cc, 0x2de92c6f, 0x4a7484aa, 0x5cb0a9dc, 0x76f988da] ++
  [0x983e5152, 0xa831c66d, 0xb00327c8, 0xbf597fc7, 0xc6e00bf3, 0xd5a79147, 0x06ca6351, 0x14292967] ++
  [0x27b70a85, 0x2e1b2138, 0x4d2c6dfc, 0x53380d13, 0x650a7354, 0x766a0abb, 0x81c2c92e, 0x92722c85] ++
  [0xa2bfe8a1, 0xa81a664b, 0xc24b8b70, 0xc76c51a3, 0xd192e819, 0xd6990624, 0xf40e3585, 0x106aa070] ++
  [0x19a4c116, 0x1e376c08, 0x2748774c, 0x34b0bcb5, 0x391c0cb3, 0x4ed8aa4a, 0x5b9cca4f, 0x682e6ff3] ++
  [0x748f82ee, 0x78a5636f, 0x84c87814, 0x8cc70208, 0x90befffa, 0xa4506ceb, 0xbef9a3f7, 0xc67178f2]

/-- The keyed digest over a hash function (R162 to R165): the key block is the secret, or the hash of a secret of more
than 64 bytes, filled up with zero bytes to 64; then the inner and the outer pass. -/
def HmacRules (hash : List Byte → List Byte) : Prop :=
  ∀ secret message : List Byte, ∃ k0 : List Byte, k0.length = 64 ∧
    (secret.length ≤ 64 → k0 = secret ++ List.replicate (64 - secret.length) 0) ∧
    (65 ≤ secret.length → k0 = hash secret ++ List.replicate (64 - (hash secret).length) 0) ∧
    hmac hash secret message = hash (k0.map (· ^^^ 0x5c) ++ hash (k0.map (· ^^^ 0x36) ++ message))

/-- A plaintext form with chosen stored digests: length field, 160-bit digest, payload, 256-bit digest (R220). -/
def packWith (d160 payload d256 : List Byte) : List Byte :=
  littleEndian (BitVec.ofNat 32 payload.length) ++ d160 ++ payload ++ d256

end Sys2Proof.Claims

open Sys2Proof Sys2Proof.Machine Sys2Proof.Claims

/-! ### Encoding -/

/-- R92: the fifteen command words, as the table prints them, and the commands they decode to. -/
def Obligations.TableWordsDecode : Prop :=
  [0x00, 0x01, 0x02, 0x03, 0x10, 0x11, 0x12, 0x13, 0x20, 0x21, 0x22, 0x23, 0x30, 0x31, 0x40].map decode =
    [Instr.nop, .loadkey, .clear, .zeroize, .hash160, .hash256, .kdig160, .kdig256, .cbcenc, .cbcdec, .ecbenc,
      .ecbdec, .cencode, .cdecode, .hotp].map Except.ok

/-- R93, with the table of R92 written out: a word decodes to a command exactly when it is that command's row; every
other word is illegal. -/
def Obligations.OnlyTableWordsAreCommands : Prop :=
  ∀ (w : Word) (i : Instr), decode w = .ok i ↔ (w, i) ∈
    [ (0x00000000, Instr.nop), (0x00000001, .loadkey), (0x00000002, .clear), (0x00000003, .zeroize),
      (0x00000010, .hash160), (0x00000011, .hash256), (0x00000012, .kdig160), (0x00000013, .kdig256),
      (0x00000020, .cbcenc), (0x00000021, .cbcdec), (0x00000022, .ecbenc), (0x00000023, .ecbdec),
      (0x00000030, .cencode), (0x00000031, .cdecode), (0x00000040, .hotp) ]

/-- R90, R93: a word decodes to a command exactly when it is the word the encoder gives that command; no bit of it is
ignored. -/
def Obligations.DecodeAgreesWithEncode : Prop :=
  ∀ (w : Word) (i : Instr), decode w = .ok i ↔ w = encode i

/-- R93, R95, over the model's own reading of a command word as bytes: a byte sequence decodes to a command exactly
when it is the four lanes of that command's word. That a command word is a byte sequence at all, with bits 7:0 at
the lowest address, is the model's choice (DEDUCED from the byte lanes of R71, notes/assumptions/7.md); the spec
gives command words as 32-bit values only. -/
def Obligations.DecodeBytesAgreesWithEncodeBytes : Prop :=
  (∀ (lanes : List Byte) (i : Instr), decodeBytes lanes = .ok i ↔ lanes = encodeBytes i) ∧
  ∀ i : Instr, encodeBytes i = littleEndian (encode i)

/-- R94, R269: every word that is no command's word, written to `CMD`, completes with `IllegalCommandError` (8) and
changes nothing but the six registers of R265. -/
def Obligations.OtherWordsAreIllegalCommands : Prop :=
  ∀ (w : Word) (s : State) (rest : List HostEvent), (∀ i, w ≠ encode i) → s.pending = commandWrite w :: rest →
    ∃ t, step s = .next t ∧ Failed t 8 0 ∧ KeepsOperands { s with pending := rest } t ∧ KeepsKey s t

/-! ### Steps and host transactions -/

/-- R24, R75: when the host's next transaction writes a command's word to `CMD`, the step is the whole execution of
the command on the state as it is then, that transaction taken. -/
def Obligations.StepRunsTheDecodedCommand : Prop :=
  ∀ (s : State) (w : Word) (i : Instr) (rest : List HostEvent),
    s.pending = commandWrite w :: rest → decode w = .ok i → step s = exec i { s with pending := rest }

/-- R21, R301: with no host transaction waiting the block is idle and a step changes nothing (that an idle step
exists is the model's choice, notes/assumptions/2.md). -/
def Obligations.IdleStepChangesNothing : Prop :=
  ∀ s : State, s.pending = [] → step s = .next s

/-- R22, R63: `RegRead` at each of the fourteen offsets returns the value of its register, and 0 at the other
offsets. -/
def Obligations.RegReadReturnsTheRegister : Prop :=
  ∀ (s : State) (off : Nat) (rest : List HostEvent),
    s.pending = .transact (.regRead off) :: rest → off % 4 = 0 → off ≤ 0xFC →
    ∃ v, ((off, v) ∈ registerTable s ∨ (0x38 ≤ off ∧ v = 0)) ∧
      step s = .next { s with pending := rest, replies := s.replies ++ [.word v] }

/-- R22, R31, R63: `RegWrite` to `IN_LEN`, `AUX_LEN`, `CTR_LO`, `CTR_HI` stores the value (each half of `CTR`
alone); to every other offset but `CMD`'s it does nothing. -/
def Obligations.RegWriteStoresOnlyRwRegisters : Prop :=
  ∀ (s : State) (off : Nat) (v : Word) (rest : List HostEvent),
    s.pending = .transact (.regWrite off v) :: rest → off % 4 = 0 → off ≤ 0xFC → off ≠ 0x04 →
    step s = .next
      (if off = 0x10 then { s with pending := rest, inLen := v }
       else if off = 0x14 then { s with pending := rest, auxLen := v }
       else if off = 0x20 then
        { s with pending := rest, ctr := BitVec.ofNat 64 (2 ^ 32 * (s.ctr.toNat / 2 ^ 32) + v.toNat) }
       else if off = 0x24 then
        { s with pending := rest, ctr := BitVec.ofNat 64 (2 ^ 32 * v.toNat + s.ctr.toNat % 2 ^ 32) }
       else { s with pending := rest })

/-- R63, R72: a register access at an offset that is no multiple of 4, or above 0xFC, is refused. -/
def Obligations.MissingRegisterAccessIsRefused : Prop :=
  ∀ (s : State) (off : Nat) (v : Word) (rest : List HostEvent), off % 4 ≠ 0 ∨ 0xFC < off →
    (s.pending = .transact (.regRead off) :: rest → step s = .refused (.noSuchRegisterAccess off)) ∧
    (s.pending = .transact (.regWrite off v) :: rest → step s = .refused (.noSuchRegisterAccess off))

/-- R65, R66, R69: `BufRead` returns the byte (0 outside the buffer, 0 in `OUT` at and above `OUT_LEN`) and changes
nothing in the block. -/
def Obligations.BufReadReturnsTheMaskedByte : Prop :=
  ∀ (s : State) (space : Space) (i : Nat) (rest : List HostEvent),
    s.pending = .transact (.bufRead space i) :: rest →
    step s = .next { s with
      pending := rest
      replies := s.replies ++ [.byte (match space with
        | .input => if i < s.params.inCap then s.input.read i else 0
        | .aux => if i < s.params.auxCap then s.aux.read i else 0
        | .output => if i < s.outLen.toNat then s.output.read i else 0)] }

/-- R64, R67: `BufWrite` stores its byte in `IN` or `AUX` below the capacity, where the host then reads it; every
other byte reads as before; nothing happens beyond the capacity or in `OUT`; no register changes. -/
def Obligations.BufWriteStoresOneByte : Prop :=
  ∀ (s : State) (space : Space) (i : Nat) (b : Byte) (rest : List HostEvent), BlockInv s →
    s.pending = .transact (.bufWrite space i b) :: rest →
    ∃ t, step s = .next t ∧
      (∀ sp j, t.bufRead sp j =
        if sp = space ∧ j = i ∧ space ≠ .output ∧ i < s.params.capacity space then b else s.bufRead sp j) ∧
      t = { s with pending := rest, input := t.input, aux := t.aux } ∧
      (space ≠ .input ∨ s.params.inCap ≤ i → t.input = s.input) ∧
      (space ≠ .aux ∨ s.params.auxCap ≤ i → t.aux = s.aux)

/-- R278: every step whose host event exists at the interface yields a next state: no word in any state stops the
block, and no step ever faults. -/
def Obligations.EveryDefinedTransactionCompletes : Prop :=
  ∀ s : State, PendingOk s → ∃ t, step s = .next t ∧ PendingOk t

/-- R40, R300: the external reset puts every register to its reset value and keeps the parameters, and every byte of
`OUT` then reads 0. Four clauses are the model's choice (DESIGN CHOICE), since R40 leaves the contents of `IN` and
`AUX` unspecified: a byte of either is the free value of a draw (notes/assumptions/1.md), the draw is a new one,
numbered one above the last (notes/assumptions/6.md), the events still to come are the rest of the list
(notes/assumptions/2.md), and the values read so far stay (notes/assumptions/3.md). -/
def Obligations.ResetLeavesTheResetValues : Prop :=
  ∀ (s : State) (rest : List HostEvent), s.pending = .reset :: rest →
    ∃ t, step s = .next t ∧ t.key = .zero ∧ t.keyv = false ∧ t.done = false ∧ t.fail = false ∧ t.err = 0 ∧
      t.inLen = 0 ∧ t.auxLen = 0 ∧ t.outLen = 0 ∧ t.result = 0 ∧ t.ctr = 0 ∧ t.vfy = 0 ∧
      (∀ i, t.bufRead .output i = 0) ∧ t.params = s.params ∧
      regRead t 0x00 = 0x43413407 ∧ regRead t 0x08 = 0 ∧ regRead t 0x2C = BitVec.ofNat 32 s.params.inCap ∧
      regRead t 0x30 = BitVec.ofNat 32 s.params.auxCap ∧ regRead t 0x34 = BitVec.ofNat 32 (s.params.inCap + 72) ∧
      t.resets = s.resets + 1 ∧
      (∀ i, t.input.read i = Config.unwrittenByte t.resets .input i) ∧
      (∀ i, t.aux.read i = Config.unwrittenByte t.resets .aux i) ∧
      t.pending = rest ∧ t.replies = s.replies

/-! ### Invariants and whole-machine rules -/

/-- R40, R41: the reset state, for any parameters R6 allows and any draw of the unspecified bytes, meets the
invariants. -/
def Obligations.ResetStateMeetsInvariant : Prop :=
  (∀ (p : Params) (draw : Nat), p.wellFormed → BlockInv (State.resetOf p draw)) ∧ BlockInv State.reset

/-- R41: the invariants hold after every host transaction and every reset. -/
def Obligations.StepKeepsInvariant : Prop :=
  ∀ s t : State, BlockInv s → step s = .next t → BlockInv t

/-- R33: `IN_CAP`, `AUX_CAP` and `OUT_CAP` read the parameters of R6, and no step changes them. -/
def Obligations.ParametersNeverChange : Prop :=
  (∀ s : State, regRead s 0x2C = BitVec.ofNat 32 s.params.inCap ∧
    regRead s 0x30 = BitVec.ofNat 32 s.params.auxCap ∧
    regRead s 0x34 = BitVec.ofNat 32 (s.params.inCap + 72)) ∧
  ∀ s t : State, step s = .next t → t.params = s.params

/-- R30, R25: `KEY` and `KEYV` change only by a `LOADKEY` that succeeds, a `ZEROIZE`, or reset. -/
def Obligations.OnlyThreeEventsChangeTheKey : Prop :=
  ∀ s t : State, step s = .next t → (t.key ≠ s.key ∨ t.keyv ≠ s.keyv) →
    ∃ e rest, s.pending = e :: rest ∧
      ((e = commandWrite 0x00000001 ∧ t.fail = false) ∨ e = commandWrite 0x00000003 ∨ e = .reset)

/-- R303, R25: reset is the only event that clears `DONE`. -/
def Obligations.OnlyResetClearsDone : Prop :=
  ∀ s t : State, step s = .next t → s.done = true → t.done = false → ∃ rest, s.pending = .reset :: rest

/-- R22, R27, R34: no command other than `CLEAR` and `ZEROIZE` writes a host-written register or a byte of `IN` or
`AUX`. -/
def Obligations.CommandsKeepTheirOperands : Prop :=
  ∀ (i : Instr) (s t : State), i ≠ .clear → i ≠ .zeroize → exec i s = .next t → KeepsOperands s t

/-- The model's choice (notes/assumptions/4.md), for bytes the host cannot read: a command other than `CLEAR` and
`ZEROIZE` stores nothing in `OUT` at or above the length of its result, and nothing at all when it fails. -/
def Obligations.OutOutsideTheResultIsKept : Prop :=
  ∀ (i : Instr) (s t : State) (j : Nat), BlockInv s → i ≠ .clear → i ≠ .zeroize → exec i s = .next t →
    t.fail = true ∨ t.outLen.toNat ≤ j → t.output.read j = s.output.read j

/-- R268: the error codes each command can end with. -/
def Obligations.CommandsEndWithTheListedCodes : Prop :=
  ∀ (i : Instr) (s t : State), exec i s = .next t → t.err ∈ possibleCodes i

/-- R265, R266: after a failing command, illegal words among them, the state is the state before it, changed only by
the six writes of R265; `VFY` is nonzero only after a `CDECODE` that ended with `DigestMismatchError`, and then
below 3; no byte of `OUT` can be read. -/
def Obligations.FailureChangesSixRegistersOnly : Prop :=
  ∀ (w : Word) (s t : State), command w s = .next t → t.fail = true →
    t = { s with outLen := 0, result := 0, vfy := t.vfy, err := t.err, fail := true, done := true } ∧
      (∀ i, t.bufRead .output i = 0) ∧ t.err ≠ 0 ∧ t.err ∈ errCodes ∧
      (t.vfy ≠ 0 → decode w = .ok .cdecode ∧ t.err = 5 ∧ t.vfy ≠ 3)

/-- R32: `VFY = 3` after a command other than `NOP` exactly when it was a successful `CDECODE`. -/
def Obligations.BothDigestBitsMeanSuccessfulDecode : Prop :=
  ∀ (i : Instr) (s t : State), i ≠ .nop → exec i s = .next t → (t.vfy = 3 ↔ i = .cdecode ∧ t.fail = false)

/-- R69: the same command word written twice in a row leaves the same state as written once (`DONE` is set by the
first). -/
def Obligations.RepeatedCommandChangesNothing : Prop :=
  ∀ (w : Word) (s t : State), BlockInv s → command w s = .next t → command w t = .next t

/-- R36: no command's outcome depends on the outcome of an earlier command other than through `KEY`, the buffers and
the host-written registers: from two states that agree on those, a command other than `NOP` leaves the host the same
view. -/
def Obligations.OutcomesDependOnOperandsOnly : Prop :=
  ∀ (i : Instr) (s₁ s₂ t₁ t₂ : State), i ≠ .nop → BlockInv s₁ → BlockInv s₂ → SameOperands s₁ s₂ →
    exec i s₁ = .next t₁ → exec i s₂ = .next t₂ → SameView t₁ t₂

/-- R30: two states that differ only in `KEY` are driven alike by every host event but a command that uses `KEY`: if
a step from one answers a next state, so does a step from the other, the same values are returned, and the states
after differ at most in `KEY`. -/
def Obligations.KeyFlowsOnlyThroughCipherCommands : Prop :=
  ∀ s₁ s₂ t₁ : State, SameButKey s₁ s₂ → ¬ NextUsesKey s₁ → step s₁ = .next t₁ →
    ∃ t₂, step s₂ = .next t₂ ∧ SameButKey t₁ t₂

/-! ### Common checks -/

/-- R270: a command that uses a length register above its buffer's capacity ends with `LengthRangeError` (10),
whatever else is wrong with it, and no other command does. -/
def Obligations.LengthAboveCapacityFailsFirst : Prop :=
  ∀ (i : Instr) (s : State), (¬ OperandsInRange i s → FailsWith i s 10 0) ∧
    (OperandsInRange i s → ∃ t, exec i s = .next t ∧ t.err ≠ 10)

/-- R271, after the check of R270: a command that uses `KEY` ends with `NoKeyError` (9) while no key is bound, and
no other command does. -/
def Obligations.MissingKeyFailsSecond : Prop :=
  ∀ (i : Instr) (s : State), OperandsInRange i s → (usesKey i = true → s.keyv = false → FailsWith i s 9 0) ∧
    (usesKey i = false ∨ s.keyv = true → ∃ t, exec i s = .next t ∧ t.err ≠ 9)

/-! ### System commands -/

/-- R110: `NOP` acknowledges and changes nothing else. -/
def Obligations.NopOnlyAcknowledges : Prop :=
  decode 0x00000000 = .ok .nop ∧
  ∀ s : State, exec .nop s = .next { s with err := 0, fail := false, done := true }

/-- R111: `LOADKEY` with `AUX_LEN = 16` binds the first sixteen bytes of `AUX`, leaving `AUX` as it was; with
another length within `AUX_CAP` it ends with `KeyLengthError` (1), with one above with `LengthRangeError` (10), and
leaves the key as it was. -/
def Obligations.LoadkeyBindsSixteenBytes : Prop :=
  decode 0x00000001 = .ok .loadkey ∧
  ∀ s : State,
    (s.auxLen = 16 → 16 ≤ s.params.auxCap →
      ∃ t, exec .loadkey s = .next t ∧ blockBytes t.key = auxStar s ∧ t.keyv = true ∧
        Completed t [] 0 0 ∧ KeepsOperands s t) ∧
    (s.auxLen.toNat ≤ s.params.auxCap → s.auxLen ≠ 16 → FailsWith .loadkey s 1 0) ∧
    (s.params.auxCap < s.auxLen.toNat → FailsWith .loadkey s 10 0)

/-- R112: `CLEAR` zeroes every byte of the three buffers, `IN_LEN`, `AUX_LEN` and `CTR`, and keeps the key. -/
def Obligations.ClearErasesAllButTheKey : Prop :=
  decode 0x00000002 = .ok .clear ∧
  ∀ s : State, ∃ t, exec .clear s = .next t ∧ Completed t [] 0 0 ∧ KeepsKey s t ∧
    t.inLen = 0 ∧ t.auxLen = 0 ∧ t.ctr = 0 ∧
    (∀ i, t.input.read i = 0) ∧ (∀ i, t.aux.read i = 0) ∧ (∀ i, t.output.read i = 0) ∧
    t.params = s.params ∧ t.pending = s.pending ∧ t.replies = s.replies ∧ t.resets = s.resets

/-- R113: `ZEROIZE` leaves the reset state, except that `DONE = 1` and that every byte of the buffers is 0. -/
def Obligations.ZeroizeReturnsToTheResetState : Prop :=
  decode 0x00000003 = .ok .zeroize ∧
  ∀ s : State, ∃ t, exec .zeroize s = .next t ∧
    t = { State.resetOf s.params s.resets with
      done := true, input := t.input, aux := t.aux, output := t.output, pending := s.pending, replies := s.replies } ∧
    (∀ i, t.input.read i = 0) ∧ (∀ i, t.aux.read i = 0) ∧ (∀ i, t.output.read i = 0)

/-! ### Digest unit -/

/-- R146, R147: `HASH160` and `HASH256` of the input, with no key and whatever `AUX` holds. What the two functions
are, `Obligations.Hash160FollowsItsRules` and `Obligations.Hash256FollowsItsRules` say. -/
def Obligations.HashCommandsDigestTheInput : Prop :=
  decode 0x00000010 = .ok .hash160 ∧ decode 0x00000011 = .ok .hash256 ∧
  ∀ s : State, BlockInv s →
    (s.inLen.toNat ≤ s.params.inCap →
      CompletesWith .hash160 s (hash160 (inStar s)) 0 0 ∧ (hash160 (inStar s)).length = 20 ∧
      CompletesWith .hash256 s (hash256 (inStar s)) 0 0 ∧ (hash256 (inStar s)).length = 32) ∧
    (s.params.inCap < s.inLen.toNat → FailsWith .hash160 s 10 0 ∧ FailsWith .hash256 s 10 0)

/-- R166, R167: `KDIG160` and `KDIG256`, the secret in `AUX`, the message in `IN`, with no key; and R162 to R165 for
both: a secret of up to 64 bytes is used as it is, one of 65 or more is hashed first, and two digest passes follow;
with the two examples of R165. -/
def Obligations.KeyedDigestsAuthenticateTheInput : Prop :=
  decode 0x00000012 = .ok .kdig160 ∧ decode 0x00000013 = .ok .kdig256 ∧
  (∀ s : State, BlockInv s →
    (s.auxLen.toNat ≤ s.params.auxCap → s.inLen.toNat ≤ s.params.inCap →
      CompletesWith .kdig160 s (hmac hash160 (auxStar s) (inStar s)) 0 0 ∧
      (hmac hash160 (auxStar s) (inStar s)).length = 20 ∧
      CompletesWith .kdig256 s (hmac hash256 (auxStar s) (inStar s)) 0 0 ∧
      (hmac hash256 (auxStar s) (inStar s)).length = 32) ∧
    (s.params.auxCap < s.auxLen.toNat ∨ s.params.inCap < s.inLen.toNat →
      FailsWith .kdig160 s 10 0 ∧ FailsWith .kdig256 s 10 0)) ∧
  HmacRules hash160 ∧ HmacRules hash256 ∧
  natOfBE (hmac hash160 (List.replicate 20 0x0b) [0x48, 0x69, 0x20, 0x54, 0x68, 0x65, 0x72, 0x65]) =
    0xb617318655057264e28bc0b6fb378c8ef146be00 ∧
  natOfBE (hmac hash256 (List.replicate 20 0x0b) [0x48, 0x69, 0x20, 0x54, 0x68, 0x65, 0x72, 0x65]) =
    0xb0344c61d8db38535ca8afceaf0bf12b881dc200c9833da726e9376c2e32cff7

/-- R7, R136, R142, R165, R264: `OUT_LEN` after a successful command whose result has a fixed size: 20 and 32 bytes
for the plain and keyed digests, none for a system command or `HOTP`. -/
def Obligations.FixedResultSizes : Prop :=
  ∀ (i : Instr) (s t : State), exec i s = .next t → t.fail = false →
    (i = .hash160 ∨ i = .kdig160 → t.outLen = 20) ∧ (i = .hash256 ∨ i = .kdig256 → t.outLen = 32) ∧
    (i = .loadkey ∨ i = .clear ∨ i = .zeroize ∨ i = .hotp → t.outLen = 0)

/-- R130: `ShaPad(M)` is the message, 0x80, fewer than 64 zero bytes and the bit length in 8 bytes, most significant
first; its length is a positive multiple of 64. -/
def Obligations.ShaPadFillsWholeBlocks : Prop :=
  ∀ m : List Byte, 8 * m.length < 2 ^ 64 →
    ∃ z, z < 64 ∧ (m.length + 1 + z) % 64 = 56 ∧
      ∃ len : List Byte, len.length = 8 ∧ natOfBE len = 8 * m.length ∧
        shaPad m = m ++ [0x80] ++ List.replicate z 0 ++ len ∧ (shaPad m).length % 64 = 0

/-- R131 to R136: SHA-1, rule by rule. The schedule of a block is its sixteen big-endian words and the recurrence;
the compression is eighty rounds from the state before the block; the digest is the compression of the padded
message's blocks in order from the initial state; and the two examples of R136. -/
def Obligations.Hash160FollowsItsRules : Prop :=
  (∀ block : List Byte, block.length = 64 →
    let w := fun t => (sha1Schedule block).getD t 0
    (sha1Schedule block).length = 80 ∧ (∀ t, t < 16 → w t = wordAt block (4 * t)) ∧
    ∀ t, 16 ≤ t → t < 80 → w t = (w (t - 3) ^^^ w (t - 8) ^^^ w (t - 14) ^^^ w (t - 16)).rotateLeft 1) ∧
  (∀ (h : Sha1State) (block : List Byte), block.length = 64 →
    ∃ v : Nat → Sha1State, v 0 = h ∧
      (∀ t, t < 80 → v (t + 1) =
        { a := (v t).a.rotateLeft 5 +
            (if t < 20 then ((v t).b &&& (v t).c) ||| (~~~(v t).b &&& (v t).d)
              else if 40 ≤ t ∧ t < 60 then ((v t).b &&& (v t).c) ||| ((v t).b &&& (v t).d) ||| ((v t).c &&& (v t).d)
              else (v t).b ^^^ (v t).c ^^^ (v t).d) + (v t).e +
            [0x5A827999, 0x6ED9EBA1, 0x8F1BBCDC, 0xCA62C1D6].getD (t / 20) 0 + (sha1Schedule block).getD t 0
          b := (v t).a, c := (v t).b.rotateLeft 30, d := (v t).c, e := (v t).d }) ∧
      sha1Compress h block =
        ⟨h.a + (v 80).a, h.b + (v 80).b, h.c + (v 80).c, h.d + (v 80).d, h.e + (v 80).e⟩) ∧
  (∀ m : List Byte, ∃ v : Nat → Sha1State,
    v 0 = ⟨0x67452301, 0xEFCDAB89, 0x98BADCFE, 0x10325476, 0xC3D2E1F0⟩ ∧
    (∀ j, j < (shaPad m).length / 64 → v (j + 1) = sha1Compress (v j) (((shaPad m).drop (64 * j)).take 64)) ∧
    let f := v ((shaPad m).length / 64)
    hash160 m = bigEndian f.a ++ bigEndian f.b ++ bigEndian f.c ++ bigEndian f.d ++ bigEndian f.e) ∧
  natOfBE (hash160 []) = 0xda39a3ee5e6b4b0d3255bfef95601890afd80709 ∧
  natOfBE (hash160 [0x61, 0x62, 0x63]) = 0xa9993e364706816aba3e25717850c26c9cd0d89d

/-- R131, R137 to R142: SHA-256, rule by rule. The initial state and the round constants are the literals of the
spec and the first 32 bits of the fractional parts of square and cube roots of primes; the schedule of a block is
its sixteen big-endian words and the recurrence; the compression is sixty-four rounds from the state before the
block; the digest is the compression of the padded message's blocks in order from the initial state; and the two
examples of R142. -/
def Obligations.Hash256FollowsItsRules : Prop :=
  (∀ t, t < 64 → ∃ c, c ≤ 6 ∧
    (c * 2 ^ 32 + (roundConstants.getD t 0).toNat) ^ 3 ≤ firstPrimes.getD t 0 * 2 ^ 96 ∧
    firstPrimes.getD t 0 * 2 ^ 96 < (c * 2 ^ 32 + (roundConstants.getD t 0).toNat + 1) ^ 3) ∧
  (∀ t, t < 8 → ∃ c, c ≤ 4 ∧
    (c * 2 ^ 32 + (initialWords.getD t 0).toNat) ^ 2 ≤ firstPrimes.getD t 0 * 2 ^ 64 ∧
    firstPrimes.getD t 0 * 2 ^ 64 < (c * 2 ^ 32 + (initialWords.getD t 0).toNat + 1) ^ 2) ∧
  (∀ block : List Byte, block.length = 64 →
    let w := fun t => (sha256Schedule block).getD t 0
    (sha256Schedule block).length = 64 ∧ (∀ t, t < 16 → w t = wordAt block (4 * t)) ∧
    ∀ t, 16 ≤ t → t < 64 → w t =
      ((w (t - 2)).rotateRight 17 ^^^ (w (t - 2)).rotateRight 19 ^^^ (w (t - 2) >>> 10)) + w (t - 7) +
      ((w (t - 15)).rotateRight 7 ^^^ (w (t - 15)).rotateRight 18 ^^^ (w (t - 15) >>> 3)) + w (t - 16)) ∧
  (∀ (h : Sha256State) (block : List Byte), block.length = 64 →
    ∃ v : Nat → Sha256State, v 0 = h ∧
      (∀ t, t < 64 →
        let x := v t
        let t1 := x.h + (x.e.rotateRight 6 ^^^ x.e.rotateRight 11 ^^^ x.e.rotateRight 25) +
          ((x.e &&& x.f) ^^^ (~~~x.e &&& x.g)) + roundConstants.getD t 0 + (sha256Schedule block).getD t 0
        let t2 := (x.a.rotateRight 2 ^^^ x.a.rotateRight 13 ^^^ x.a.rotateRight 22) +
          ((x.a &&& x.b) ^^^ (x.a &&& x.c) ^^^ (x.b &&& x.c))
        v (t + 1) =
          { a := t1 + t2, b := x.a, c := x.b, d := x.c, e := x.d + t1, f := x.e, g := x.f, h := x.g }) ∧
      sha256Compress h block = ⟨h.a + (v 64).a, h.b + (v 64).b, h.c + (v 64).c, h.d + (v 64).d,
        h.e + (v 64).e, h.f + (v 64).f, h.g + (v 64).g, h.h + (v 64).h⟩) ∧
  (∀ m : List Byte, ∃ v : Nat → Sha256State,
    [(v 0).a, (v 0).b, (v 0).c, (v 0).d, (v 0).e, (v 0).f, (v 0).g, (v 0).h] = initialWords ∧
    (∀ j, j < (shaPad m).length / 64 → v (j + 1) = sha256Compress (v j) (((shaPad m).drop (64 * j)).take 64)) ∧
    let f := v ((shaPad m).length / 64)
    hash256 m = bigEndian f.a ++ bigEndian f.b ++ bigEndian f.c ++ bigEndian f.d ++ bigEndian f.e ++ bigEndian f.f ++
      bigEndian f.g ++ bigEndian f.h) ∧
  natOfBE (hash256 []) = 0xe3b0c44298fc1c149afbf4c8996fb92427ae41e4649b934ca495991b7852b855 ∧
  natOfBE (hash256 [0x61, 0x62, 0x63]) = 0xba7816bf8f01cfea414140de5dae2223b00361a396177a9cb410ff61f20015ad

/-! ### Cipher unit -/

/-- R181, R182, R183: multiplication by `x` and the loop of `gmul`; each entry of the substitution table is the affine
map of its index's inverse in that field (of 0 for index 0), and the two tables undo each other. -/
def Obligations.SubstitutionTables : Prop :=
  (∀ a : Byte, (xtime a).toNat = if a.toNat < 128 then 2 * a.toNat else (2 * a.toNat - 256) ^^^ 0x1b) ∧
  (∀ a b : Byte, gmul a b =
    (List.range 8).foldl (fun r i => if b.getLsbD i then r ^^^ Nat.iterate xtime i a else r) 0) ∧
  gmul 0x57 0x13 = 0xfe ∧ gmul 0x57 0x83 = 0xc1 ∧
  sbox 0 = 0x63 ∧
  (∀ a : Byte, a ≠ 0 → ∃ b, gmul a b = 1 ∧ sbox a =
    b ^^^ b.rotateLeft 1 ^^^ b.rotateLeft 2 ^^^ b.rotateLeft 3 ^^^ b.rotateLeft 4 ^^^ 0x63) ∧
  (∀ a : Byte, invSbox (sbox a) = a ∧ sbox (invSbox a) = a)

/-- R184, R186: the round constants; the recurrence of the key schedule, word by word, from the four words of the key;
the round keys; and the examples of R186. -/
def Obligations.KeyScheduleRecurrence : Prop :=
  (List.range 10).map (fun i => rcon (i + 1)) = [0x01, 0x02, 0x04, 0x08, 0x10, 0x20, 0x40, 0x80, 0x1b, 0x36] ∧
  (∀ i, 1 ≤ i → i < 10 → rcon (i + 1) = xtime (rcon i)) ∧
  (∀ k : Block, (keySchedule k).length = 44 ∧
    (keySchedule k).take 4 = [k.c0, k.c1, k.c2, k.c3] ∧
    (∀ i, 4 ≤ i → i < 44 →
      let prev := (keySchedule k).getD (i - 1) .zero
      let base := (keySchedule k).getD (i - 4) .zero
      (keySchedule k).getD i .zero =
        if i % 4 = 0 then
          ⟨base.r0 ^^^ (sbox prev.r1 ^^^ rcon (i / 4)), base.r1 ^^^ sbox prev.r2, base.r2 ^^^ sbox prev.r3,
            base.r3 ^^^ sbox prev.r0⟩
        else ⟨base.r0 ^^^ prev.r0, base.r1 ^^^ prev.r1, base.r2 ^^^ prev.r2, base.r3 ^^^ prev.r3⟩) ∧
    ∀ j, j ≤ 10 →
      blockBytes (roundKey (keySchedule k) j) = (((keySchedule k).drop (4 * j)).take 4).flatMap columnBytes) ∧
  ((keySchedule sampleKey).drop 4).take 4 = [⟨0xa0, 0xfa, 0xfe, 0x17⟩, ⟨0x88, 0x54, 0x2c, 0xb1⟩,
    ⟨0x23, 0xa3, 0x39, 0x39⟩, ⟨0x2a, 0x6c, 0x76, 0x05⟩] ∧
  (keySchedule sampleKey).drop 43 = [⟨0xb6, 0x63, 0x0c, 0xa6⟩] ∧
  natOfBE (blockBytes (roundKey (keySchedule countingKey) 1)) = 0xd6aa74fdd2af72fadaa678f1d6ab76fe ∧
  natOfBE (blockBytes (roundKey (keySchedule countingKey) 10)) = 0x13111d7fe3944a17f307a78b4d2b30c5

/-- R190, R191: the two column transformations byte by byte, that each is the inverse of the other, and the
examples. -/
def Obligations.InvMixColumnsUndoesMixColumns : Prop :=
  (∀ (s : Block) (c : Nat), c < 4 →
    let a := fun r => byteOf s (r + 4 * c)
    let b := fun r => byteOf (mixColumns s) (r + 4 * c)
    let d := fun r => byteOf (invMixColumns s) (r + 4 * c)
    b 0 = gmul (a 0) 2 ^^^ gmul (a 1) 3 ^^^ a 2 ^^^ a 3 ∧
    b 1 = a 0 ^^^ gmul (a 1) 2 ^^^ gmul (a 2) 3 ^^^ a 3 ∧
    b 2 = a 0 ^^^ a 1 ^^^ gmul (a 2) 2 ^^^ gmul (a 3) 3 ∧
    b 3 = gmul (a 0) 3 ^^^ a 1 ^^^ a 2 ^^^ gmul (a 3) 2 ∧
    d 0 = gmul (a 0) 14 ^^^ gmul (a 1) 11 ^^^ gmul (a 2) 13 ^^^ gmul (a 3) 9 ∧
    d 1 = gmul (a 0) 9 ^^^ gmul (a 1) 14 ^^^ gmul (a 2) 11 ^^^ gmul (a 3) 13 ∧
    d 2 = gmul (a 0) 13 ^^^ gmul (a 1) 9 ^^^ gmul (a 2) 14 ^^^ gmul (a 3) 11 ∧
    d 3 = gmul (a 0) 11 ^^^ gmul (a 1) 13 ^^^ gmul (a 2) 9 ^^^ gmul (a 3) 14) ∧
  (∀ s : Block, invMixColumns (mixColumns s) = s ∧ mixColumns (invMixColumns s) = s) ∧
  mixColumns ⟨⟨0xdb, 0x13, 0x53, 0x45⟩, .zero, .zero, .zero⟩ =
    ⟨⟨0x8e, 0x4d, 0xa1, 0xbc⟩, .zero, .zero, .zero⟩ ∧
  invMixColumns ⟨⟨0x8e, 0x4d, 0xa1, 0xbc⟩, .zero, .zero, .zero⟩ =
    ⟨⟨0xdb, 0x13, 0x53, 0x45⟩, .zero, .zero, .zero⟩

/-- R187 to R189, R192 to R194: the other round transformations byte by byte, encryption and decryption as ten
rounds over the round keys, that the two are inverse to each other under every key, and the examples of R192 and
R193. -/
def Obligations.BlockCipherIsInvertible : Prop :=
  (∀ (s rk : Block) (i : Nat), i < 16 →
    byteOf (addRoundKey s rk) i = byteOf s i ^^^ byteOf rk i ∧ byteOf (s.xor rk) i = byteOf s i ^^^ byteOf rk i ∧
    byteOf (subBytes s) i = sbox (byteOf s i) ∧ byteOf (invSubBytes s) i = invSbox (byteOf s i)) ∧
  (∀ s rk : Block, addRoundKey (addRoundKey s rk) rk = s ∧
    blockBytes (shiftRows s) = [0, 5, 10, 15, 4, 9, 14, 3, 8, 13, 2, 7, 12, 1, 6, 11].map (byteOf s) ∧
    blockBytes (invShiftRows s) = [0, 13, 10, 7, 4, 1, 14, 11, 8, 5, 2, 15, 12, 9, 6, 3].map (byteOf s)) ∧
  (∀ (s : Block) (r c : Nat), r < 4 → c < 4 →
    byteOf (shiftRows s) (r + 4 * c) = byteOf s (r + 4 * ((c + r) % 4)) ∧
    byteOf (invShiftRows s) (r + 4 * c) = byteOf s (r + 4 * ((c + 4 - r) % 4))) ∧
  (∀ k x : Block, ∃ v : Nat → Block, v 0 = addRoundKey x (roundKey (keySchedule k) 0) ∧
    (∀ j, j < 9 →
      v (j + 1) = addRoundKey (mixColumns (shiftRows (subBytes (v j)))) (roundKey (keySchedule k) (j + 1))) ∧
    aesEncryptBlock k x = addRoundKey (shiftRows (subBytes (v 9))) (roundKey (keySchedule k) 10)) ∧
  (∀ k y : Block, ∃ v : Nat → Block, v 10 = addRoundKey y (roundKey (keySchedule k) 10) ∧
    (∀ j, 1 ≤ j → j ≤ 9 →
      v j = invMixColumns (addRoundKey (invSubBytes (invShiftRows (v (j + 1)))) (roundKey (keySchedule k) j))) ∧
    aesDecryptBlock k y = addRoundKey (invSubBytes (invShiftRows (v 1))) (roundKey (keySchedule k) 0)) ∧
  (∀ k x : Block, aesDecryptBlock k (aesEncryptBlock k x) = x ∧ aesEncryptBlock k (aesDecryptBlock k x) = x) ∧
  natOfBE (blockBytes (aesEncryptBlock countingKey (blockOfBytes
    [0x00, 0x11, 0x22, 0x33, 0x44, 0x55, 0x66, 0x77, 0x88, 0x99, 0xaa, 0xbb, 0xcc, 0xdd, 0xee, 0xff]))) =
      0x69c4e0d86a7b0430d8cdb78070b4c55a ∧
  natOfBE (blockBytes (aesDecryptBlock countingKey (blockOfBytes
    [0x69, 0xc4, 0xe0, 0xd8, 0x6a, 0x7b, 0x04, 0x30, 0xd8, 0xcd, 0xb7, 0x80, 0x70, 0xb4, 0xc5, 0x5a]))) =
      0x00112233445566778899aabbccddeeff

/-- R196, R198: the padded length, and that unpadding undoes padding. -/
def Obligations.UnpadUndoesPad : Prop :=
  ∀ p : List Byte, (pad p).length = 16 * (p.length / 16 + 1) ∧ unpad (pad p) = .ok p

/-- R197: which sequences `Unpad` accepts, and with what result; every other one is a `PaddingError`. -/
def Obligations.UnpadAcceptsExactlyConsistentPadding : Prop :=
  ∀ q : List Byte, q.length ≠ 0 → q.length % 16 = 0 →
    (∀ p, unpad q = .ok p ↔
      ∃ n, 1 ≤ n ∧ n ≤ 16 ∧ q = p ++ List.replicate n (BitVec.ofNat 8 n)) ∧
    (∀ e, unpad q = .error e → e = .padding)

/-- R201, R202, R204, R205: the two modes block by block. In CBC each padded block is combined with the ciphertext
block before it (the zero block before the first) and encrypted; in ECB each is encrypted alone; decryption checks
the length, inverts each block and unpads. Decryption undoes encryption, for every key and plaintext; at most 15
bytes encrypt alike in both; and the examples of R201 and R202. -/
def Obligations.CipherModesRoundTrip : Prop :=
  (∀ (k : Block) (p : List Byte),
    (cbcEncrypt k p).length = 16 * (p.length / 16 + 1) ∧ (ecbEncrypt k p).length = 16 * (p.length / 16 + 1) ∧
    ∀ j, j < p.length / 16 + 1 →
      blockAt (cbcEncrypt k p) j =
        aesEncryptBlock k ((blockAt (pad p) j).xor (if j = 0 then .zero else blockAt (cbcEncrypt k p) (j - 1))) ∧
      blockAt (ecbEncrypt k p) j = aesEncryptBlock k (blockAt (pad p) j)) ∧
  (∀ (k : Block) (c : List Byte), c.length = 0 ∨ c.length % 16 ≠ 0 →
    cbcDecrypt k c = .error .inputLength ∧ ecbDecrypt k c = .error .inputLength) ∧
  (∀ (k : Block) (c : List Byte), c.length ≠ 0 → c.length % 16 = 0 →
    let q := bytesOf (cbcDecryptBlocks k zeroIv (blocksOf c))
    let e := bytesOf ((blocksOf c).map (aesDecryptBlock k))
    cbcDecrypt k c = unpad q ∧ ecbDecrypt k c = unpad e ∧ q.length = c.length ∧ e.length = c.length ∧
    ∀ j, j < c.length / 16 →
      blockAt q j = (aesDecryptBlock k (blockAt c j)).xor (if j = 0 then .zero else blockAt c (j - 1)) ∧
      blockAt e j = aesDecryptBlock k (blockAt c j)) ∧
  (∀ (k : Block) (p : List Byte), cbcDecrypt k (cbcEncrypt k p) = .ok p ∧ ecbDecrypt k (ecbEncrypt k p) = .ok p ∧
    (p.length ≤ 15 → ecbEncrypt k p = cbcEncrypt k p)) ∧
  natOfBE (cbcEncrypt countingKey []) = 0x954f64f2e4e86e9eee82d20216684899 ∧
  cbcDecrypt countingKey
    [0x95, 0x4f, 0x64, 0xf2, 0xe4, 0xe8, 0x6e, 0x9e, 0xee, 0x82, 0xd2, 0x02, 0x16, 0x68, 0x48, 0x99] = .ok []

/-- R213, with R194 and R202: after a change of one ciphertext block, its own plaintext block is changed, the next one
differs by exactly the change, and the blocks before it and those after the next are unchanged. -/
def Obligations.CbcErrorPropagation : Prop :=
  ∀ (k chain c c' : Block) (before after : List Block),
    let q := cbcDecryptBlocks k chain (before ++ c :: after)
    let q' := cbcDecryptBlocks k chain (before ++ c' :: after)
    q.length = before.length + 1 + after.length ∧ q'.length = q.length ∧
    (∀ j, j < before.length → q'.getD j .zero = q.getD j .zero) ∧
    (∀ j, before.length + 2 ≤ j → q'.getD j .zero = q.getD j .zero) ∧
    (c ≠ c' → q'.getD before.length .zero ≠ q.getD before.length .zero) ∧
    (0 < after.length →
      q'.getD (before.length + 1) .zero = (q.getD (before.length + 1) .zero).xor (c.xor c'))

/-- R206, R208: `CBCENC` and `ECBENC` encrypt the input under the bound key; the output has
`16 (floor(IN_LEN / 16) + 1)` bytes; and what the two examples encrypt to. -/
def Obligations.EncryptCommands : Prop :=
  decode 0x00000020 = .ok .cbcenc ∧ decode 0x00000022 = .ok .ecbenc ∧
  (∀ s : State, BlockInv s → CommonErrors .cbcenc s ∧ CommonErrors .ecbenc s ∧
    (s.inLen.toNat ≤ s.params.inCap → s.keyv = true →
      CompletesWith .cbcenc s (cbcEncrypt s.key (inStar s)) 0 0 ∧
      CompletesWith .ecbenc s (ecbEncrypt s.key (inStar s)) 0 0 ∧
      (cbcEncrypt s.key (inStar s)).length = 16 * (s.inLen.toNat / 16 + 1) ∧
      (ecbEncrypt s.key (inStar s)).length = 16 * (s.inLen.toNat / 16 + 1))) ∧
  natOfBE (cbcEncrypt countingKey [0x61, 0x62, 0x63]) = 0xb08b1f809a035064420d1d754022ab55 ∧
  natOfBE (ecbEncrypt countingKey ((List.range 16).map fun i => BitVec.ofNat 8 (0x41 + i))) =
    0x9cdd85de85b48bed892f02d8a5cbdacb954f64f2e4e86e9eee82d20216684899

/-- R207, R209: `CBCDEC` and `ECBDEC` on an input whose length is a positive multiple of 16 release the unpadded
plaintext when the padding is consistent, and end with `PaddingError` (3) when it is not; their errors in order. -/
def Obligations.DecryptCommands : Prop :=
  decode 0x00000021 = .ok .cbcdec ∧ decode 0x00000023 = .ok .ecbdec ∧
  ∀ s : State, BlockInv s → CommonErrors .cbcdec s ∧ CommonErrors .ecbdec s ∧
    (s.inLen.toNat ≤ s.params.inCap → s.keyv = true →
      (s.inLen = 0 ∨ s.inLen.toNat % 16 ≠ 0 → FailsWith .cbcdec s 2 0 ∧ FailsWith .ecbdec s 2 0) ∧
      (s.inLen ≠ 0 → s.inLen.toNat % 16 = 0 →
        (∀ p, unpad (bytesOf (cbcDecryptBlocks s.key zeroIv (blocksOf (inStar s)))) = .ok p →
          CompletesWith .cbcdec s p 0 0 ∧ s.inLen.toNat ≤ p.length + 16 ∧ p.length < s.inLen.toNat) ∧
        (∀ e, unpad (bytesOf (cbcDecryptBlocks s.key zeroIv (blocksOf (inStar s)))) = .error e →
          FailsWith .cbcdec s 3 0) ∧
        (∀ p, unpad (bytesOf ((blocksOf (inStar s)).map (aesDecryptBlock s.key))) = .ok p →
          CompletesWith .ecbdec s p 0 0 ∧ s.inLen.toNat ≤ p.length + 16 ∧ p.length < s.inLen.toNat) ∧
        (∀ e, unpad (bytesOf ((blocksOf (inStar s)).map (aesDecryptBlock s.key))) = .error e →
          FailsWith .ecbdec s 3 0)))

/-- R203: for a ciphertext whose length is 0 or no multiple of 16, `CBCDEC`, `ECBDEC` and `CDECODE` end with
`InputLengthError` (2), and both decryption functions give it. -/
def Obligations.CiphertextLengthIsCheckedFirst : Prop :=
  (∀ (k : Block) (c : List Byte), c.length = 0 ∨ c.length % 16 ≠ 0 →
    cbcDecrypt k c = .error .inputLength ∧ ecbDecrypt k c = .error .inputLength) ∧
  ∀ (i : Instr) (s : State), i = .cbcdec ∨ i = .ecbdec ∨ i = .cdecode →
    s.inLen.toNat ≤ s.params.inCap → s.keyv = true → s.inLen = 0 ∨ s.inLen.toNat % 16 ≠ 0 →
    FailsWith i s 2 0

/-! ### Container codec -/

/-- R225, with R220, R223, R224, R226: `CENCODE` encrypts length, 160-bit digest, payload and 256-bit digest, and
returns the password, the first four bytes of the 256-bit digest read little-endian. -/
def Obligations.CencodeBuildsTheContainer : Prop :=
  decode 0x00000030 = .ok .cencode ∧
  ∀ s : State, BlockInv s → CommonErrors .cencode s ∧
    (s.inLen.toNat ≤ s.params.inCap → s.keyv = true →
      ∃ c, c = cbcEncrypt s.key (packWith (hash160 (inStar s)) (inStar s) (hash256 (inStar s))) ∧
        c.length = 16 * ((s.inLen.toNat + 56) / 16 + 1) ∧
        CompletesWith .cencode s c (firstWordLE (hash256 (inStar s))) 0)

/-- R228, R236: the bounds check of the parser, for every value of the length field, and the three slices it
returns. -/
def Obligations.ParseChecksBoundsFirst : Prop :=
  ∀ q : List Byte,
    (q.length < 56 ∨ q.length < 56 + (firstWordLE q).toNat → parseContainer q = .error .truncatedContainer) ∧
    (56 + (firstWordLE q).toNat ≤ q.length →
      ∃ c, parseContainer q = .ok c ∧ c.payload.length = (firstWordLE q).toNat ∧
        q = q.take 4 ++ c.d160 ++ c.payload ++ c.d256 ++ q.drop (56 + (firstWordLE q).toNat) ∧
        c.d160.length = 20 ∧ c.d256.length = 32)

/-- R229, with R227, R230, R231: `CDECODE`, its errors in order: the length, decryption and parsing errors
propagated, then the payload if both digests match, and otherwise `DigestMismatchError` (5) with one bit for each
digest that matched. -/
def Obligations.CdecodeReleasesOnlyVerifiedPayload : Prop :=
  decode 0x00000031 = .ok .cdecode ∧
  ∀ s : State, BlockInv s → CommonErrors .cdecode s ∧
    (s.inLen.toNat ≤ s.params.inCap → s.keyv = true →
      (cbcDecrypt s.key (inStar s) = .error .inputLength → FailsWith .cdecode s 2 0) ∧
      (cbcDecrypt s.key (inStar s) = .error .padding → FailsWith .cdecode s 3 0) ∧
      ∀ q, cbcDecrypt s.key (inStar s) = .ok q →
        (parseContainer q = .error .truncatedContainer → FailsWith .cdecode s 4 0) ∧
        ∀ c, parseContainer q = .ok c →
          (c.d160 = hash160 c.payload → c.d256 = hash256 c.payload → CompletesWith .cdecode s c.payload 0 3) ∧
          (c.d160 = hash160 c.payload → c.d256 ≠ hash256 c.payload → FailsWith .cdecode s 5 1) ∧
          (c.d160 ≠ hash160 c.payload → c.d256 = hash256 c.payload → FailsWith .cdecode s 5 2) ∧
          (c.d160 ≠ hash160 c.payload → c.d256 ≠ hash256 c.payload → FailsWith .cdecode s 5 0))

/-- R235: a container whose stored 160-bit digest is wrong and whose 256-bit digest is right ends `CDECODE` with
`ERR = 5`, `VFY = 2`, and the opposite case with `ERR = 5`, `VFY = 1`. -/
def Obligations.EachDigestAloneStopsDecoding : Prop :=
  ∀ (s : State) (p d : List Byte), BlockInv s → s.inLen.toNat ≤ s.params.inCap → s.keyv = true →
    p.length < 2 ^ 32 →
    (d.length = 20 → d ≠ hash160 p → inStar s = cbcEncrypt s.key (packWith d p (hash256 p)) →
      FailsWith .cdecode s 5 2) ∧
    (d.length = 32 → d ≠ hash256 p → inStar s = cbcEncrypt s.key (packWith (hash160 p) p d) →
      FailsWith .cdecode s 5 1)

/-- R233: as functions, decoding an encoded payload of fewer than `2^32` bytes gives it back under every key; on the
block, `CENCODE` on a payload, its output moved to `IN` by the host (`OUT2IN`), then `CDECODE` succeeds with the
payload as its data result. -/
def Obligations.ContainerRoundTripOnTheBlock : Prop :=
  (∀ (k : Block) (p : List Byte), p.length < 2 ^ 32 →
    decodeContainer k (encodeContainer k p).1 = .ok ⟨p, 0, 3⟩) ∧
  ∀ s : State, BlockInv s → s.keyv = true → s.inLen.toNat + 72 ≤ s.params.inCap →
    ∃ t, runScript [.cmd .cencode, .out2in, .cmd .cdecode] s = .next t ∧ Completed t (inStar s) 0 3

/-! ### One-time passwords -/

/-- R247, R248: `HOTP` returns the code for the secret in `AUX` and the counter in `CTR`, between 0 and 999999, and no
data. -/
def Obligations.HotpReturnsTheCode : Prop :=
  decode 0x00000040 = .ok .hotp ∧
  ∀ s : State,
    (s.auxLen.toNat ≤ s.params.auxCap →
      CompletesWith .hotp s [] (BitVec.ofNat 32 (hotp (auxStar s) s.ctr)) 0 ∧ hotp (auxStar s) s.ctr ≤ 999999) ∧
    (s.params.auxCap < s.auxLen.toNat → FailsWith .hotp s 10 0)

/-- R245, R246, R248: the code is the big-endian 31-bit reading of four bytes of the MAC from the offset in its last
byte, reduced modulo one million; it is at most 999999. -/
def Obligations.HotpTruncation : Prop :=
  ∀ (secret : List Byte) (c : BitVec 64),
    let mac := hmac hash160 secret ((List.range 8).map fun i => c.extractLsb' (8 * (7 - i)) 8)
    let o := (mac.getD 19 0).toNat % 16
    hotp secret c =
      ((mac.getD o 0).toNat % 128 * 2 ^ 24 + (mac.getD (o + 1) 0).toNat * 2 ^ 16 +
        (mac.getD (o + 2) 0).toNat * 2 ^ 8 + (mac.getD (o + 3) 0).toNat) % 1000000 ∧
    binCode mac < 2 ^ 31 ∧ hotp secret c ≤ 999999 ∧ o + 3 < mac.length

/-- R249: the two known answers the source gives. -/
def Obligations.HotpKnownAnswers : Prop :=
  hotp [0x31, 0x32, 0x33, 0x34, 0x35, 0x36, 0x37, 0x38, 0x39, 0x30, 0x31, 0x32, 0x33, 0x34, 0x35, 0x36, 0x37, 0x38,
    0x39, 0x30] 0 = 755224 ∧
  hotp [0x31, 0x32, 0x33, 0x34, 0x35, 0x36, 0x37, 0x38, 0x39, 0x30, 0x31, 0x32, 0x33, 0x34, 0x35, 0x36, 0x37, 0x38,
    0x39, 0x30] 1 = 287082

/-! ### Host scripts -/

/-- R97: `SETIN` and `SETAUX` make the string the operand, `SETCTR` the number the counter, and `KEY` of sixteen bytes
binds them. -/
def Obligations.ScriptLinesLoadOperands : Prop :=
  ∀ (s : State) (hex : List Byte) (v : BitVec 64), BlockInv s →
    (hex.length ≤ s.params.inCap → ∃ t, runScript [.setin hex] s = .next t ∧ inStar t = hex ∧
      t = { s with input := t.input, inLen := t.inLen }) ∧
    (hex.length ≤ s.params.auxCap → ∃ t, runScript [.setaux hex] s = .next t ∧ auxStar t = hex ∧
      t = { s with aux := t.aux, auxLen := t.auxLen }) ∧
    (runScript [.setctr v] s = .next { s with ctr := v }) ∧
    (hex.length = 16 → ∃ t, runScript [.key hex] s = .next t ∧ blockBytes t.key = hex ∧ t.keyv = true ∧
      Completed t [] 0 0)

/-- R97: `GETOUT` returns `OUT_LEN` and then the bytes of the result, and changes nothing in the block. -/
def Obligations.GetoutReturnsTheResult : Prop :=
  ∀ s : State, runScript [.getout] s = .next { s with
    replies := s.replies ++ .word s.outLen :: (List.range s.outLen.toNat).map fun i => .byte (s.output.read i) }
end

