-- ==== Sys2Proof/Laws/Bytes.lean ====
section
/-! SUPPORT. The laws of byte sequences: lengths, slices and pieces, and that the byte-order conversions are inverse to
each other (R9, R10). -/

namespace Sys2Proof.Machine

@[simp] theorem rep_length (b : Byte) (n : Nat) : (rep b n).length = n := by simp [rep]

@[simp] theorem bytesLE_length (n v : Nat) : (bytesLE n v).length = n := by
  induction n generalizing v with
  | zero => rfl
  | succ n ih => simp [bytesLE, ih]

@[simp] theorem toLE32_length (v : Word) : (toLE32 v).length = 4 := by simp [toLE32]

@[simp] theorem toBE32_length (v : Word) : (toBE32 v).length = 4 := by simp [toBE32]

@[simp] theorem toBE64_length (v : BitVec 64) : (toBE64 v).length = 8 := by simp [toBE64]

@[simp] theorem columnBytes_length (c : Column) : (columnBytes c).length = 4 := rfl

@[simp] theorem blockBytes_length (b : Block) : (blockBytes b).length = 16 := rfl

@[simp] theorem slice_length (bs : List Byte) (i j : Nat) : (slice bs i j).length = min (j - i) (bs.length - i) := by
  simp [slice]

@[simp] theorem xorBytes_length (a b : List Byte) : (xorBytes a b).length = min a.length b.length := by
  simp [xorBytes]

theorem natOfLE_bytesLE (n v : Nat) : natOfLE (bytesLE n v) = v % 256 ^ n := by
  induction n generalizing v with
  | zero => simp [bytesLE, natOfLE, Nat.mod_one]
  | succ n ih =>
    have h8 : (BitVec.ofNat 8 v).toNat = v % 256 := BitVec.toNat_ofNat _ _
    rw [bytesLE, natOfLE, ih, h8, Nat.pow_succ', Nat.mod_mul]

theorem natOfLE_lt (bs : List Byte) : natOfLE bs < 256 ^ bs.length := by
  induction bs with
  | nil => simp [natOfLE]
  | cons b bs ih =>
    have := b.isLt
    simp only [natOfLE, List.length_cons, Nat.pow_succ']
    omega

theorem bytesLE_natOfLE (bs : List Byte) : bytesLE bs.length (natOfLE bs) = bs := by
  induction bs with
  | nil => rfl
  | cons b bs ih =>
    have hb := b.isLt
    have h1 : (b.toNat + 256 * natOfLE bs) / 256 = natOfLE bs := by omega
    simp only [List.length_cons, bytesLE, natOfLE, h1, ih]
    congr 1
    apply BitVec.eq_of_toNat_eq
    simp only [BitVec.toNat_ofNat]
    omega

/-- `LE32` undoes `toLE32` (R10). -/
@[simp] theorem le32_toLE32 (v : Word) : le32 (toLE32 v) = v := by
  have hv := v.isLt
  apply BitVec.eq_of_toNat_eq
  simp only [le32, toLE32, natOfLE_bytesLE, BitVec.toNat_ofNat]
  omega

/-- `toLE32` undoes `LE32` on four bytes (R10). -/
theorem toLE32_le32 {bs : List Byte} (h : bs.length = 4) : toLE32 (le32 bs) = bs := by
  have hlt : natOfLE bs < 2 ^ 32 := by simpa [h] using natOfLE_lt bs
  have := bytesLE_natOfLE bs
  rw [h] at this
  rwa [toLE32, le32, BitVec.toNat_ofNat, Nat.mod_eq_of_lt hlt]

theorem natOfBE_append (a : List Byte) (b : Byte) : natOfBE (a ++ [b]) = 256 * natOfBE a + b.toNat := by
  simp [natOfBE]

theorem natOfBE_reverse (bs : List Byte) : natOfBE bs.reverse = natOfLE bs := by
  induction bs with
  | nil => rfl
  | cons b bs ih => rw [List.reverse_cons, natOfBE_append, ih, natOfLE, Nat.add_comm]

/-- `BE32` undoes `toBE32` (R10). -/
@[simp] theorem be32_toBE32 (v : Word) : be32 (toBE32 v) = v := by
  have := le32_toLE32 v
  simpa [be32, toBE32, natOfBE_reverse, le32, toLE32] using this

/-- `toBE64` is the reversed little-endian form, and reads back as the number (R10). -/
theorem toBE64_eq (v : BitVec 64) : toBE64 v = (bytesLE 8 v.toNat).reverse := by
  simp [toBE64, bytesLE, List.range_succ, Nat.shiftRight_eq_div_pow, Nat.div_div_eq_div_mul]

@[simp] theorem natOfBE_toBE64 (v : BitVec 64) : natOfBE (toBE64 v) = v.toNat := by
  have hv := v.isLt
  rw [toBE64_eq, natOfBE_reverse, natOfLE_bytesLE]
  omega

@[simp] theorem blockOfBytes_blockBytes (b : Block) : blockOfBytes (blockBytes b) = b := rfl

theorem blockBytes_blockOfBytes {bs : List Byte} (h : bs.length = 16) : blockBytes (blockOfBytes bs) = bs := by
  match bs, h with
  | [_, _, _, _, _, _, _, _, _, _, _, _, _, _, _, _], _ => rfl

/-- `ROTL32` is the rotation of bit vectors (R8). -/
theorem rotl32_eq_rotateLeft {n : Nat} (x : Word) (h : n < 32) : rotl32 x n = x.rotateLeft n := by
  simp [rotl32, BitVec.rotateLeft, BitVec.rotateLeftAux, Nat.mod_eq_of_lt h]

/-- `ROTR32` is the rotation of bit vectors (R8). -/
theorem rotr32_eq_rotateRight {n : Nat} (x : Word) (h : n < 32) : rotr32 x n = x.rotateRight n := by
  simp [rotr32, BitVec.rotateRight, BitVec.rotateRightAux, Nat.mod_eq_of_lt h]

/-- `BE32` joins its four bytes, the first most significant (R10). -/
theorem be32_four (a b c d : Byte) : be32 [a, b, c, d] = (a ++ b ++ c ++ d : BitVec (8 + 8 + 8 + 8)) := by
  apply BitVec.eq_of_toNat_eq
  have hb := b.isLt; have hc := c.isLt; have hd := d.isLt
  simp only [be32, natOfBE, List.foldl, BitVec.toNat_ofNat, BitVec.toNat_append]
  rw [← Nat.shiftLeft_add_eq_or_of_lt hb, ← Nat.shiftLeft_add_eq_or_of_lt hc, ← Nat.shiftLeft_add_eq_or_of_lt hd]
  omega

/-- Four bytes of a sequence, one by one. -/
theorem take_four {bs : List Byte} {i : Nat} (h : i + 4 ≤ bs.length) :
    (bs.drop i).take 4 = [bs.getD i 0, bs.getD (i + 1) 0, bs.getD (i + 2) 0, bs.getD (i + 3) 0] := by
  rw [List.drop_eq_getElem_cons (by omega : i < _), List.drop_eq_getElem_cons (by omega : i + 1 < _),
    List.drop_eq_getElem_cons (by omega : i + 1 + 1 < _), List.drop_eq_getElem_cons (by omega : i + 1 + 1 + 1 < _),
    List.getD_eq_getElem _ _ (by omega), List.getD_eq_getElem _ _ (by omega), List.getD_eq_getElem _ _ (by omega),
    List.getD_eq_getElem _ _ (by omega)]
  rfl

/-- `toBE32` cuts a word into its four bytes, most significant first (R10). -/
theorem toBE32_eq (w : Word) :
    toBE32 w = [w.extractLsb' 24 8, w.extractLsb' 16 8, w.extractLsb' 8 8, w.extractLsb' 0 8] := by
  have h (n v : Nat) (e : w.toNat / 2 ^ n = v) : BitVec.ofNat 8 v = w.extractLsb' n 8 :=
    BitVec.eq_of_toNat_eq (by simp [BitVec.extractLsb'_toNat, Nat.shiftRight_eq_div_pow, e])
  simp only [toBE32, bytesLE, List.reverse_cons, List.reverse_nil, List.nil_append, List.cons_append,
    h 24 _ (by omega : _ = w.toNat / 256 / 256 / 256), h 16 _ (by omega : _ = w.toNat / 256 / 256),
    h 8 _ (by omega : _ = w.toNat / 256), h 0 _ (by omega : _ = w.toNat)]

/-- Folding over one element more of a list (the loop of R135, R141 and the chains of R136, R142). -/
theorem foldl_take_succ {α β : Type} (f : β → α → β) (b : β) (xs : List α) (i : Nat) (h : i < xs.length) :
    (xs.take (i + 1)).foldl f b = f ((xs.take i).foldl f b) xs[i] := by
  rw [← List.take_append_getElem h, List.foldl_append]; rfl

/-- `XOR` with copies of one byte (R9; the pads of R163 and R164). -/
theorem xorBytes_rep (bs : List Byte) (b : Byte) : xorBytes bs (rep b bs.length) = bs.map (· ^^^ b) := by
  induction bs with
  | nil => rfl
  | cons x xs ih => simpa [xorBytes, rep, List.replicate_succ] using ih

/-- `toLE32` cuts a word into its four bytes, least significant first (R10). -/
theorem toLE32_eq (w : Word) :
    toLE32 w = [w.extractLsb' 0 8, w.extractLsb' 8 8, w.extractLsb' 16 8, w.extractLsb' 24 8] := by
  have := congrArg List.reverse (toBE32_eq w)
  simpa [toBE32, toLE32] using this

/-- `LE32` joins its four bytes, the first least significant (R10). -/
theorem le32_four (a b c d : Byte) : le32 [a, b, c, d] = (d ++ c ++ b ++ a : BitVec (8 + 8 + 8 + 8)) := by
  rw [le32, ← natOfBE_reverse]
  exact be32_four d c b a

/-- `LE32` loses nothing of four bytes (R10). -/
theorem toNat_le32 {bs : List Byte} (h : bs.length = 4) : (le32 bs).toNat = natOfLE bs := by
  have := natOfLE_lt bs
  rw [h] at this
  exact (BitVec.toNat_ofNat ..).trans (Nat.mod_eq_of_lt this)

/-- `toBE64`, byte by byte (R10). -/
theorem toBE64_extract (v : BitVec 64) : toBE64 v = (List.range 8).map fun i => v.extractLsb' (8 * (7 - i)) 8 := by
  refine List.map_congr_left fun i _ => BitVec.eq_of_toNat_eq ?_
  simp [BitVec.extractLsb'_toNat]

/-! ### Pieces -/

@[simp] theorem pieces_length {α : Type} (k n : Nat) (xs : List α) : (pieces k n xs).length = n := by
  induction n generalizing xs with
  | zero => rfl
  | succ n ih => simp [pieces, ih]

/-- Piece `j` is the slice from `k j` on (R131, R200). -/
theorem pieces_getElem {α : Type} (k n : Nat) (xs : List α) (j : Nat) (h : j < (pieces k n xs).length) :
    (pieces k n xs)[j] = (xs.drop (k * j)).take k := by
  induction n generalizing xs j with
  | zero => simp [pieces] at h
  | succ n ih =>
    cases j with
    | zero => simp [pieces]
    | succ j =>
      simp only [pieces, List.getElem_cons_succ]
      rw [ih, List.drop_drop, show k + k * j = k * (j + 1) by rw [Nat.mul_succ, Nat.add_comm]]

/-- Cutting `n` whole pieces and joining them gives the sequence back. -/
theorem pieces_flatten {α : Type} (k n : Nat) (xs : List α) (h : xs.length = k * n) : (pieces k n xs).flatten = xs := by
  induction n generalizing xs with
  | zero => simpa [pieces, eq_comm] using h
  | succ n ih =>
    rw [pieces, List.flatten_cons, ih, List.take_append_drop]
    simp only [List.length_drop, h, Nat.mul_succ]
    omega

/-- Every whole piece has `k` elements. -/
theorem length_of_mem_pieces {α : Type} {k n : Nat} {xs p : List α} (h : k * n ≤ xs.length) (hp : p ∈ pieces k n xs) :
    p.length = k := by
  induction n generalizing xs with
  | zero => simp [pieces] at hp
  | succ n ih =>
    rw [Nat.mul_succ] at h
    rcases List.mem_cons.1 hp with rfl | hp
    · simp only [List.length_take]; omega
    · exact ih (by simp only [List.length_drop]; omega) hp

/-- Joining pieces of `k` elements and cutting again gives the pieces back. -/
theorem pieces_of_flatten {α : Type} {k : Nat} {ps : List (List α)} (h : ∀ p ∈ ps, p.length = k) :
    pieces k ps.length ps.flatten = ps := by
  induction ps with
  | nil => rfl
  | cons p ps ih =>
    have hp : p.length = k := h p (by simp)
    subst hp
    simp only [List.length_cons, pieces, List.flatten_cons, List.take_left, List.drop_left]
    rw [ih fun q hq => h q (by simp [hq])]

end Sys2Proof.Machine
end

