-- ==== Sys2Proof/Laws/Algorithms.lean ====
section
/-! SUPPORT. The algorithms' own small laws: lengths of digests, paddings and ciphertexts, linearity of the field
multiplication, and what blocks and their bytes say of each other. -/

namespace Sys2Proof.Machine

/-! ### Digests -/

theorem digestBytes_length (ws : List Word) : (digestBytes ws).length = 4 * ws.length := by
  induction ws with
  | nil => rfl
  | cons w ws ih =>
    rw [digestBytes, List.flatMap_cons, List.length_append, ← digestBytes, ih]
    simp; omega

/-- The zero bytes of `ShaPad` bring the length to 56 modulo 64, and there are fewer than 64 of them (R130). -/
theorem shaZeros_spec (n : Nat) : shaZeros n < 64 ∧ (n + 1 + shaZeros n) % 64 = 56 := by
  unfold shaZeros; omega

theorem messageWords_length (block : List Byte) : (messageWords block).length = 16 := by simp [messageWords]

theorem sha1Extend_length (n : Nat) (ws : List Word) : (sha1Extend n ws).length = ws.length + n := by
  induction n generalizing ws with
  | zero => rfl
  | succ n ih => rw [sha1Extend, ih]; simp; omega

theorem sha256Extend_length (n : Nat) (ws : List Word) : (sha256Extend n ws).length = ws.length + n := by
  induction n generalizing ws with
  | zero => rfl
  | succ n ih => rw [sha256Extend, ih]; simp; omega

theorem sha1Schedule_length (block : List Byte) : (sha1Schedule block).length = 80 := by
  simp [sha1Schedule, sha1Extend_length, messageWords_length]

theorem sha256Schedule_length (block : List Byte) : (sha256Schedule block).length = 64 := by
  simp [sha256Schedule, sha256Extend_length, messageWords_length]

/-- The digest sizes `DB1` and `DB2` (R7, R136, R142, R165). -/
theorem hash160_length (m : List Byte) : (hash160 m).length = 20 := by simp [hash160, digestBytes_length]

theorem hash256_length (m : List Byte) : (hash256 m).length = 32 := by simp [hash256, digestBytes_length]

theorem hmac_hash160_length (secret m : List Byte) : (hmac hash160 secret m).length = 20 := hash160_length _

theorem hmac_hash256_length (secret m : List Byte) : (hmac hash256 secret m).length = 32 := hash256_length _

/-- Word `t` of a block, from its four bytes (R131). -/
theorem messageWords_getD (block : List Byte) (t : Nat) (ht : t < 16) :
    (messageWords block).getD t 0 = be32 ((block.drop (4 * t)).take 4) := by
  rw [List.getD_eq_getElem _ _ (by simpa [messageWords_length] using ht)]
  simp only [messageWords, List.getElem_map, pieces_getElem]

/-- A schedule that is extended word by word, newest first: its first words are kept, and every later word is the
extending function of the words before it (R134, R140). -/
theorem extend_spec {f : List Word → Word} {g : Nat → List Word → List Word} (h0 : ∀ ws, g 0 ws = ws)
    (hs : ∀ n ws, g (n + 1) ws = g n (f ws :: ws)) (n : Nat) (ws : List Word) :
    (g n ws).reverse.take ws.length = ws.reverse ∧
    ∀ i, ws.length ≤ i → i < ws.length + n → (g n ws).reverse.getD i 0 = f ((g n ws).reverse.take i).reverse := by
  induction n generalizing ws with
  | zero => rw [h0]; exact ⟨by simp [List.take_of_length_le], by omega⟩
  | succ n ih =>
    obtain ⟨hk, hr⟩ := ih (f ws :: ws)
    rw [← hs] at hk hr
    simp only [List.length_cons, List.reverse_cons] at hk hr
    have hw : (g (n + 1) ws).reverse.take ws.length = ws.reverse := by
      simpa [List.take_take] using congrArg (List.take ws.length) hk
    refine ⟨hw, fun i hi hn => ?_⟩
    rcases Nat.eq_or_lt_of_le hi with rfl | hlt
    · have := congrArg (fun l => l.getD ws.length 0) hk
      simp [List.getD] at this
      rw [hw]; simpa [List.getD] using this
    · exact hr i hlt (by omega)

/-- An element of the first `i` elements, counted from the newest. -/
theorem getD_take_reverse {xs : List Word} {i k : Nat} (hi : i ≤ xs.length) (hk : k < i) :
    (xs.take i).reverse.getD k 0 = xs.getD (i - 1 - k) 0 := by
  have hl : (xs.take i).length = i := by simp; omega
  rw [List.getD_eq_getElem?_getD, List.getElem?_reverse (by omega), hl, List.getElem?_take, if_pos (by omega),
    List.getD_eq_getElem?_getD]

/-- The first sixteen schedule words of SHA-1 are the block's (R134). -/
theorem sha1Schedule_message (block : List Byte) {t : Nat} (h : t < 16) :
    (sha1Schedule block).getD t 0 = (messageWords block).getD t 0 := by
  have := (extend_spec (g := sha1Extend) (fun _ => rfl) (fun _ _ => rfl) 64 (messageWords block).reverse).1
  rw [List.length_reverse, messageWords_length, List.reverse_reverse] at this
  rw [← this, ← sha1Schedule, List.getD_eq_getElem?_getD, List.getD_eq_getElem?_getD, List.getElem?_take, if_pos h]

/-- The recurrence of the schedule of SHA-1 (R134). -/
theorem sha1Schedule_recurrence (block : List Byte) {t : Nat} (h : 16 ≤ t) (ht : t < 80) :
    (sha1Schedule block).getD t 0 =
      rotl32 ((sha1Schedule block).getD (t - 3) 0 ^^^ (sha1Schedule block).getD (t - 8) 0 ^^^
        (sha1Schedule block).getD (t - 14) 0 ^^^ (sha1Schedule block).getD (t - 16) 0) 1 := by
  have hl : t ≤ (sha1Schedule block).length := by rw [sha1Schedule_length]; omega
  have := (extend_spec (g := sha1Extend) (fun _ => rfl) (fun _ _ => rfl) 64 (messageWords block).reverse).2 t
    (by simpa [messageWords_length] using h) (by simpa [messageWords_length] using ht)
  rw [← sha1Schedule] at this
  rw [this, getD_take_reverse hl (by omega), getD_take_reverse hl (by omega), getD_take_reverse hl (by omega),
    getD_take_reverse hl (by omega)]
  rfl

/-- The first sixteen schedule words of SHA-256 are the block's (R140). -/
theorem sha256Schedule_message (block : List Byte) {t : Nat} (h : t < 16) :
    (sha256Schedule block).getD t 0 = (messageWords block).getD t 0 := by
  have := (extend_spec (g := sha256Extend) (fun _ => rfl) (fun _ _ => rfl) 48 (messageWords block).reverse).1
  rw [List.length_reverse, messageWords_length, List.reverse_reverse] at this
  rw [← this, ← sha256Schedule, List.getD_eq_getElem?_getD, List.getD_eq_getElem?_getD, List.getElem?_take, if_pos h]

/-- The recurrence of the schedule of SHA-256 (R140). -/
theorem sha256Schedule_recurrence (block : List Byte) {t : Nat} (h : 16 ≤ t) (ht : t < 64) :
    (sha256Schedule block).getD t 0 =
      sha256SSig1 ((sha256Schedule block).getD (t - 2) 0) + (sha256Schedule block).getD (t - 7) 0 +
        sha256SSig0 ((sha256Schedule block).getD (t - 15) 0) + (sha256Schedule block).getD (t - 16) 0 := by
  have hl : t ≤ (sha256Schedule block).length := by rw [sha256Schedule_length]; omega
  have := (extend_spec (g := sha256Extend) (fun _ => rfl) (fun _ _ => rfl) 48 (messageWords block).reverse).2 t
    (by simpa [messageWords_length] using h) (by simpa [messageWords_length] using ht)
  rw [← sha256Schedule] at this
  rw [this, getD_take_reverse hl (by omega), getD_take_reverse hl (by omega), getD_take_reverse hl (by omega),
    getD_take_reverse hl (by omega)]
  rfl

/-- One more round of SHA-1 (R135). -/
theorem sha1Rounds_append (t : Nat) (ws : List Word) (w : Word) (s : Sha1State) :
    sha1Rounds t (ws ++ [w]) s = sha1Round (t + ws.length) w (sha1Rounds t ws s) := by
  induction ws generalizing t s with
  | nil => rfl
  | cons x xs ih => simp only [List.cons_append, sha1Rounds, ih, List.length_cons]; congr 1; omega

/-- Block `j` of the padded message (R131). -/
theorem shaBlocks_getElem (m : List Byte) (j : Nat) (h : j < (shaBlocks m).length) :
    (shaBlocks m)[j] = ((shaPad m).drop (64 * j)).take 64 :=
  pieces_getElem ..

/-- The number of blocks (R131). -/
theorem shaBlocks_length (m : List Byte) : (shaBlocks m).length = (shaPad m).length / 64 := by simp [shaBlocks]

/-- The normalised secret has 64 bytes when the hash has at most as many (R162). -/
theorem hmacKey_length {hash : List Byte → List Byte} (h : ∀ m, (hash m).length ≤ 64) (secret : List Byte) :
    (hmacKey hash secret).length = 64 := by
  have := h secret
  simp only [hmacKey, List.length_append, rep_length]
  split <;> omega

/-! ### The byte field -/

/-- `xtime` is additive (R181). -/
theorem xtime_xor (a b : Byte) : xtime (a ^^^ b) = xtime a ^^^ xtime b := by
  unfold xtime
  rw [BitVec.getLsbD_xor, BitVec.shiftLeft_xor_distrib]
  have h : ∀ x y c : Byte, x ^^^ c ^^^ (y ^^^ c) = x ^^^ y := fun x y c => by
    rw [show x ^^^ c ^^^ (y ^^^ c) = x ^^^ y ^^^ (c ^^^ c) by ac_rfl]; simp
  cases a.getLsbD 7 <;> cases b.getLsbD 7 <;> simp only [Bool.xor_self, Bool.xor_true, Bool.xor_false, Bool.not_false,
    Bool.false_eq_true, if_true, if_false, h] <;> ac_rfl

theorem gmulLoop_xor (n : Nat) (a b c r q : Byte) :
    gmulLoop n (a ^^^ b) c (r ^^^ q) = gmulLoop n a c r ^^^ gmulLoop n b c q := by
  induction n generalizing a b c r q with
  | zero => rfl
  | succ n ih =>
    simp only [gmulLoop, xtime_xor]
    split
    · rw [show r ^^^ q ^^^ (a ^^^ b) = (r ^^^ a) ^^^ (q ^^^ b) by ac_rfl, ih]
    · exact ih ..

/-- Multiplication distributes over addition (R181). -/
theorem gmul_xor (a b c : Byte) : gmul (a ^^^ b) c = gmul a c ^^^ gmul b c := by
  simpa [gmul] using gmulLoop_xor 8 a b c 0 0

/-- `gmul` as the loop of R181 over the bits of its second factor. -/
theorem gmul_eq_foldl (a b : Byte) :
    gmul a b = (List.range 8).foldl (fun r i => if b.getLsbD i then r ^^^ Nat.iterate xtime i a else r) 0 := by
  simp [gmul, gmulLoop, List.range_succ, Nat.iterate]

/-- `xtime` as a number: doubled, and reduced by `0x11b` when bit 7 was set (R181). -/
theorem xtime_toNat : ∀ a : Byte,
    (xtime a).toNat = if a.toNat < 128 then 2 * a.toNat else (2 * a.toNat - 256) ^^^ 0x1b := by decide +kernel

/-! ### Columns and blocks -/

@[simp] theorem Column.xor_self_right (a b : Column) : (a.xor b).xor b = a := by
  simp [Column.xor]

@[simp] theorem Block.xor_self_right (a b : Block) : (a.xor b).xor b = a := by simp [Block.xor]

/-- `AddRoundKey` is its own inverse (R187). -/
@[simp] theorem addRoundKey_addRoundKey (s rk : Block) : addRoundKey (addRoundKey s rk) rk = s :=
  Block.xor_self_right s rk

/-- `InvShiftRows` undoes `ShiftRows`, and the other way round (R189). -/
@[simp] theorem invShiftRows_shiftRows (s : Block) : invShiftRows (shiftRows s) = s := rfl

@[simp] theorem shiftRows_invShiftRows (s : Block) : shiftRows (invShiftRows s) = s := rfl

/-! ### Padding and modes -/

theorem padCount_spec (n : Nat) : 1 ≤ padCount n ∧ padCount n ≤ 16 ∧ n + padCount n = 16 * (n / 16 + 1) := by
  unfold padCount; omega

@[simp] theorem blocksOf_length (q : List Byte) : (blocksOf q).length = q.length / 16 := by simp [blocksOf]

@[simp] theorem bytesOf_nil : bytesOf [] = [] := rfl

@[simp] theorem bytesOf_cons (b : Block) (bs : List Block) : bytesOf (b :: bs) = blockBytes b ++ bytesOf bs := rfl

@[simp] theorem bytesOf_length (bs : List Block) : (bytesOf bs).length = 16 * bs.length := by
  induction bs with
  | nil => rfl
  | cons b bs ih => rw [bytesOf_cons, List.length_append, ih]; simp; omega

/-- Cutting the bytes of blocks gives the blocks back (R200). -/
@[simp] theorem blocksOf_bytesOf (bs : List Block) : blocksOf (bytesOf bs) = bs := by
  have h := pieces_of_flatten (k := 16) (ps := bs.map blockBytes) (by simp)
  rw [List.length_map] at h
  rw [blocksOf, bytesOf_length, Nat.mul_div_cancel_left _ (by decide), bytesOf, List.flatMap_def, h, List.map_map]
  exact List.map_id' bs

/-- Joining the blocks of a sequence of whole blocks gives the sequence back (R200). -/
theorem bytesOf_blocksOf {q : List Byte} (h : q.length % 16 = 0) : bytesOf (blocksOf q) = q := by
  have hl : q.length = 16 * (q.length / 16) := by omega
  have hmap : (pieces 16 (q.length / 16) q).map (blockBytes ∘ blockOfBytes) = pieces 16 (q.length / 16) q :=
    (List.map_congr_left fun p hp =>
      blockBytes_blockOfBytes (length_of_mem_pieces (Nat.le_of_eq hl.symm) hp)).trans (List.map_id' _)
  rw [bytesOf, blocksOf, List.flatMap_def, List.map_map, hmap, pieces_flatten _ _ _ hl]

@[simp] theorem cbcEncryptBlocks_length (k chain : Block) (qs : List Block) :
    (cbcEncryptBlocks k chain qs).length = qs.length := by
  induction qs generalizing chain with
  | nil => rfl
  | cons q qs ih => simp [cbcEncryptBlocks, ih]

@[simp] theorem cbcDecryptBlocks_length (k chain : Block) (cs : List Block) :
    (cbcDecryptBlocks k chain cs).length = cs.length := by
  induction cs generalizing chain with
  | nil => rfl
  | cons c cs ih => simp [cbcDecryptBlocks, ih]

/-- Block `j` of a sequence (R200). -/
theorem blocksOf_getD (q : List Byte) {j : Nat} (h : j < q.length / 16) :
    (blocksOf q).getD j .zero = blockOfBytes ((q.drop (16 * j)).take 16) := by
  rw [List.getD_eq_getElem _ _ (by simpa using h)]
  simp only [blocksOf, List.getElem_map, pieces_getElem]

/-- Block `j` of the bytes of blocks (R200). -/
theorem bytesOf_block (bs : List Block) {j : Nat} (h : j < bs.length) :
    blockOfBytes (((bytesOf bs).drop (16 * j)).take 16) = bs.getD j .zero := by
  rw [← blocksOf_getD _ (by rw [bytesOf_length]; omega), blocksOf_bytesOf]

/-- Ciphertext block `j` of CBC, from the one before it (R201). -/
theorem cbcEncryptBlocks_getD (k chain : Block) (qs : List Block) {j : Nat} (h : j < qs.length) :
    (cbcEncryptBlocks k chain qs).getD j .zero =
      aesEncryptBlock k ((qs.getD j .zero).xor
        (if j = 0 then chain else (cbcEncryptBlocks k chain qs).getD (j - 1) .zero)) := by
  induction qs generalizing chain j with
  | nil => simp at h
  | cons q qs ih =>
    cases j with
    | zero => rfl
    | succ j =>
      have := ih (aesEncryptBlock k (q.xor chain)) (j := j) (by simpa using h)
      simp only [cbcEncryptBlocks, List.getD_cons_succ, this, Nat.add_sub_cancel, if_neg (Nat.succ_ne_zero j)]
      cases j with
      | zero => simp
      | succ j => simp

/-- Plaintext block `j` of CBC (R202). -/
theorem cbcDecryptBlocks_getD (k chain : Block) (cs : List Block) {j : Nat} (h : j < cs.length) :
    (cbcDecryptBlocks k chain cs).getD j .zero =
      (aesDecryptBlock k (cs.getD j .zero)).xor (if j = 0 then chain else cs.getD (j - 1) .zero) := by
  induction cs generalizing chain j with
  | nil => simp at h
  | cons c cs ih =>
    cases j with
    | zero => rfl
    | succ j =>
      have := ih c (j := j) (by simpa using h)
      simp only [cbcDecryptBlocks, List.getD_cons_succ, this, Nat.add_sub_cancel, if_neg (Nat.succ_ne_zero j)]
      cases j with
      | zero => simp
      | succ j => simp

/-- A result of `Unpad` is shorter than its input, by at most 16 bytes (R197). -/
theorem unpad_length {q p : List Byte} (hq : 16 ≤ q.length) (h : unpad q = .ok p) :
    p.length < q.length ∧ q.length ≤ p.length + 16 := by
  unfold unpad at h
  simp only at h
  split at h
  · cases h
  · split at h
    · cases h; simp only [List.length_take]; omega
    · cases h

/-- `Unpad` fails with `PaddingError` only (R197). -/
theorem unpad_error {q : List Byte} {e : CmdError} (h : unpad q = .error e) : e = .padding := by
  unfold unpad at h
  simp only at h
  split at h
  · cases h; rfl
  · split at h <;> cases h; rfl

theorem ciphertextLengthOk_iff (c : List Byte) : ciphertextLengthOk c = true ↔ c.length ≠ 0 ∧ c.length % 16 = 0 := by
  simp [ciphertextLengthOk]

theorem pad_length (p : List Byte) : (pad p).length = 16 * (p.length / 16 + 1) := by
  have := padCount_spec p.length
  simp only [pad, List.length_append, rep_length]
  omega

theorem cbcEncrypt_length (k : Block) (p : List Byte) : (cbcEncrypt k p).length = 16 * (p.length / 16 + 1) := by
  simp [cbcEncrypt, pad_length]

theorem ecbEncrypt_length (k : Block) (p : List Byte) : (ecbEncrypt k p).length = 16 * (p.length / 16 + 1) := by
  simp [ecbEncrypt, pad_length]

/-- `CbcDecrypt` can end in three ways (R202, R203). -/
theorem cbcDecrypt_cases (k : Block) (c : List Byte) :
    (ciphertextLengthOk c = false ∧ cbcDecrypt k c = .error .inputLength) ∨
    (ciphertextLengthOk c = true ∧ cbcDecrypt k c = .error .padding) ∨
    (ciphertextLengthOk c = true ∧ ∃ p, cbcDecrypt k c = .ok p ∧ p.length < c.length ∧ c.length ≤ p.length + 16) := by
  cases h : ciphertextLengthOk c with
  | false => exact .inl ⟨rfl, by simp [cbcDecrypt, h]⟩
  | true =>
    have hc := (ciphertextLengthOk_iff c).1 h
    have hl : (bytesOf (cbcDecryptBlocks k zeroIv (blocksOf c))).length = c.length := by simp; omega
    right
    cases hu : unpad (bytesOf (cbcDecryptBlocks k zeroIv (blocksOf c))) with
    | error e => exact .inl ⟨rfl, by simp [cbcDecrypt, h, hu, unpad_error hu]⟩
    | ok p =>
      have := unpad_length (by omega) hu
      exact .inr ⟨rfl, p, by simp [cbcDecrypt, h, hu], by omega, by omega⟩

/-- `EcbDecrypt` can end in three ways (R205, R203). -/
theorem ecbDecrypt_cases (k : Block) (c : List Byte) :
    (ciphertextLengthOk c = false ∧ ecbDecrypt k c = .error .inputLength) ∨
    (ciphertextLengthOk c = true ∧ ecbDecrypt k c = .error .padding) ∨
    (ciphertextLengthOk c = true ∧ ∃ p, ecbDecrypt k c = .ok p ∧ p.length < c.length ∧ c.length ≤ p.length + 16) := by
  cases h : ciphertextLengthOk c with
  | false => exact .inl ⟨rfl, by simp [ecbDecrypt, h]⟩
  | true =>
    have hc := (ciphertextLengthOk_iff c).1 h
    have hl : (bytesOf ((blocksOf c).map (aesDecryptBlock k))).length = c.length := by simp; omega
    right
    cases hu : unpad (bytesOf ((blocksOf c).map (aesDecryptBlock k))) with
    | error e => exact .inl ⟨rfl, by simp [ecbDecrypt, h, hu, unpad_error hu]⟩
    | ok p =>
      have := unpad_length (by omega) hu
      exact .inr ⟨rfl, p, by simp [ecbDecrypt, h, hu], by omega, by omega⟩

/-! ### The container -/

theorem pack_length (p : List Byte) : (pack p).length = p.length + 56 := by
  simp [pack, hash160_length, hash256_length]; omega

/-- The parser can end in two ways (R228). -/
theorem parseContainer_cases (q : List Byte) :
    parseContainer q = .error .truncatedContainer ∨
    (56 + lengthField q ≤ q.length ∧ parseContainer q = .ok ⟨slice q 4 24, slice q 24 (24 + lengthField q),
      slice q (24 + lengthField q) (24 + lengthField q + 32)⟩) := by
  by_cases h : q.length < 56
  · exact .inl (by simp [parseContainer, h])
  · by_cases hl : q.length - 56 < lengthField q
    · exact .inl (by simp [parseContainer, h, hl])
    · exact .inr ⟨by omega, by simp [parseContainer, h, hl]⟩

/-- The two verification bits, as a number (R230). -/
theorem verifyParsed_eq (c : Parsed) : verifyParsed c =
    (if c.d256 = hash256 c.payload then 2 else 0) + (if c.d160 = hash160 c.payload then 1 else 0) := by
  unfold verifyParsed
  by_cases h1 : c.d160 = hash160 c.payload <;> by_cases h2 : c.d256 = hash256 c.payload <;>
    simp [h1, h2, beq_eq_false_iff_ne.2, verifyBits]

/-- `Decode` can end in three ways (R229). -/
theorem decodeContainer_cases (k : Block) (c : List Byte) :
    (∃ e, openContainer k c = .error e ∧ decodeContainer k c = .error (.of e)) ∨
    (∃ p, openContainer k c = .ok p ∧ verifyParsed p ≠ 3 ∧
      decodeContainer k c = .error ⟨.digestMismatch, verifyParsed p⟩) ∨
    (∃ p, openContainer k c = .ok p ∧ verifyParsed p = 3 ∧ decodeContainer k c = .ok ⟨p.payload, 0, 3⟩) := by
  cases h : openContainer k c with
  | error e => exact .inl ⟨e, rfl, by simp [decodeContainer, h]⟩
  | ok p =>
    right
    by_cases hv : verifyParsed p = 3
    · exact .inr ⟨p, rfl, hv, by simp [decodeContainer, h, hv]⟩
    · exact .inl ⟨p, rfl, hv, by simp only [decodeContainer, h, if_neg hv]⟩

end Sys2Proof.Machine
end

