-- ==== Sys2Proof/Laws/Memory.lean ====
section
/-! SUPPORT. The laws of one buffer: read after write, and that every operation keeps the canonical form and the
capacity. -/

namespace Sys2Proof.Machine

/-! ### The list of cells -/

theorem findCell_eq_none {cs : List Host.Cell} {i : Nat} (h : ∀ c ∈ cs, c.1 ≠ i) : findCell cs i = none := by
  induction cs with
  | nil => rfl
  | cons c cs ih =>
    obtain ⟨a, b⟩ := c
    have hne : a ≠ i := h (a, b) (by simp)
    simp [findCell, hne, ih fun c hc => h c (by simp [hc])]

theorem findCell_putCell_same (cs : List Host.Cell) (i : Nat) (b : Byte) :
    findCell (putCell cs i b) i = some b := by
  induction cs with
  | nil => simp [putCell, findCell]
  | cons c cs ih =>
    obtain ⟨a, d⟩ := c
    by_cases h1 : i < a
    · simp [putCell, h1, findCell]
    · by_cases h2 : a = i <;> simp [putCell, h1, h2, findCell, ih]

theorem findCell_putCell_other (cs : List Host.Cell) {i j : Nat} (b : Byte) (h : j ≠ i) :
    findCell (putCell cs i b) j = findCell cs j := by
  induction cs with
  | nil => simp [putCell, findCell, Ne.symm h]
  | cons c cs ih =>
    obtain ⟨a, d⟩ := c
    by_cases h1 : i < a
    · simp [putCell, h1, findCell, Ne.symm h]
    · by_cases h2 : a = i
      · subst h2; simp [putCell, findCell, Ne.symm h]
      · simp [putCell, h1, h2, findCell, ih]

theorem findCell_dropCell_other (cs : List Host.Cell) {i j : Nat} (h : j ≠ i) :
    findCell (dropCell cs i) j = findCell cs j := by
  induction cs with
  | nil => rfl
  | cons c cs ih =>
    obtain ⟨a, d⟩ := c
    by_cases h2 : a = i
    · subst h2; simp [dropCell, findCell, Ne.symm h]
    · simp [dropCell, h2, findCell, ih]

theorem mem_putCell {cs : List Host.Cell} {i : Nat} {b : Byte} {c : Host.Cell} (h : c ∈ putCell cs i b) :
    c = (i, b) ∨ c ∈ cs := by
  induction cs with
  | nil => exact .inl (by simpa [putCell] using h)
  | cons d cs ih =>
    obtain ⟨a, e⟩ := d
    rw [putCell] at h
    split at h
    · simpa [or_assoc] using h
    · split at h
      · rcases List.mem_cons.1 h with h | h
        · exact .inl h
        · exact .inr (by simp [h])
      · rcases List.mem_cons.1 h with h | h
        · exact .inr (by simp [h])
        · exact (ih h).imp id fun hc => by simp [hc]

theorem mem_dropCell {cs : List Host.Cell} {i : Nat} {c : Host.Cell} (h : c ∈ dropCell cs i) : c ∈ cs := by
  induction cs with
  | nil => exact h
  | cons d cs ih =>
    obtain ⟨a, e⟩ := d
    rw [dropCell] at h
    split at h
    · simp [h]
    · rcases List.mem_cons.1 h with h | h
      · simp [h]
      · simp [ih h]

theorem rising_putCell {cs : List Host.Cell} (i : Nat) (b : Byte) (h : cs.Pairwise fun x y => x.1 < y.1) :
    (putCell cs i b).Pairwise fun x y => x.1 < y.1 := by
  induction cs with
  | nil => simp [putCell]
  | cons d cs ih =>
    obtain ⟨a, e⟩ := d
    obtain ⟨h1, h2⟩ := List.pairwise_cons.1 h
    rw [putCell]
    split
    · next hi =>
      refine List.pairwise_cons.2 ⟨fun y hy => ?_, h⟩
      rcases List.mem_cons.1 hy with rfl | hy
      · exact hi
      · exact Nat.lt_trans hi (h1 y hy)
    · split
      · next hi => subst hi; exact List.pairwise_cons.2 ⟨h1, h2⟩
      · refine List.pairwise_cons.2 ⟨fun y hy => ?_, ih h2⟩
        rcases mem_putCell hy with rfl | hy
        · simp only; omega
        · exact h1 y hy

theorem dropCell_sublist (cs : List Host.Cell) (i : Nat) : (dropCell cs i).Sublist cs := by
  induction cs with
  | nil => exact List.Sublist.refl _
  | cons d cs ih =>
    obtain ⟨a, e⟩ := d
    rw [dropCell]
    split
    · exact List.sublist_cons_self _ _
    · exact ih.cons_cons _

theorem findCell_dropCell_same {cs : List Host.Cell} (i : Nat) (h : cs.Pairwise fun x y => x.1 < y.1) :
    findCell (dropCell cs i) i = none := by
  induction cs with
  | nil => rfl
  | cons d cs ih =>
    obtain ⟨a, e⟩ := d
    obtain ⟨h1, h2⟩ := List.pairwise_cons.1 h
    by_cases hi : a = i
    · subst hi
      simpa [dropCell] using findCell_eq_none fun c hc => Nat.ne_of_gt (h1 c hc)
    · simp [dropCell, hi, findCell, ih h2]

theorem putCell_of_find {cs : List Host.Cell} {i : Nat} {b : Byte}
    (h : cs.Pairwise fun x y => x.1 < y.1) (hf : findCell cs i = some b) : putCell cs i b = cs := by
  induction cs with
  | nil => simp [findCell] at hf
  | cons d cs ih =>
    obtain ⟨a, e⟩ := d
    obtain ⟨h1, h2⟩ := List.pairwise_cons.1 h
    by_cases hi : a = i
    · subst hi
      simp [findCell] at hf
      simp [putCell, hf]
    · have hf' : findCell cs i = some b := by simpa [findCell, hi] using hf
      have : ¬ i < a := fun hlt => by
        have := findCell_eq_none (cs := cs) (i := i) fun c hc => by have := h1 c hc; simp only at this; omega
        simp [this] at hf'
      simp [putCell, this, hi, ih h2 hf']

theorem dropCell_of_find_none {cs : List Host.Cell} {i : Nat} (hf : findCell cs i = none) : dropCell cs i = cs := by
  induction cs with
  | nil => rfl
  | cons d cs ih =>
    obtain ⟨a, e⟩ := d
    by_cases hi : a = i
    · simp [findCell, hi] at hf
    · simp [dropCell, hi, ih (by simpa [findCell, hi] using hf)]

/-! ### One byte -/

theorem Background.byteAt_of_isKnownAs {g : Background} {b : Byte} (h : g.isKnownAs b = true) (i : Nat) :
    g.byteAt i = b := by
  cases g with
  | zero => exact (show b = 0 by simpa [isKnownAs] using h).symm
  | unwritten _ _ => simp [isKnownAs] at h

@[simp] theorem Memory.write_base (m : Memory) (i : Nat) (b : Byte) : (m.write i b).base = m.base := by
  unfold Memory.write; split <;> rfl

theorem Memory.read_write_same {m : Memory} (h : m.wf) (i : Nat) (b : Byte) : (m.write i b).read i = b := by
  unfold Memory.write
  split
  · next hk => simp [Memory.read, findCell_dropCell_same i h.1, Background.byteAt_of_isKnownAs hk]
  · simp [Memory.read, findCell_putCell_same]

theorem Memory.read_write_other (m : Memory) {i j : Nat} (b : Byte) (h : j ≠ i) :
    (m.write i b).read j = m.read j := by
  unfold Memory.write
  split
  · simp [Memory.read, findCell_dropCell_other _ h]
  · simp [Memory.read, findCell_putCell_other _ b h]

theorem Memory.write_wf {m : Memory} (h : m.wf) (i : Nat) (b : Byte) : (m.write i b).wf := by
  unfold Memory.write
  split
  · exact ⟨h.1.sublist (dropCell_sublist _ _), fun c hc => h.2 c (mem_dropCell hc)⟩
  · next hk =>
    refine ⟨rising_putCell i b h.1, fun c hc => ?_⟩
    rcases mem_putCell hc with rfl | hc
    · simpa using hk
    · exact h.2 c hc

theorem Memory.write_within {m : Memory} {cap : Nat} (h : m.within cap) {i : Nat} (b : Byte) (hi : i < cap) :
    (m.write i b).within cap := by
  unfold Memory.write
  split
  · exact fun c hc => h c (mem_dropCell hc)
  · intro c hc
    rcases mem_putCell hc with rfl | hc
    · exact hi
    · exact h c hc

/-- Storing what a byte already holds changes nothing, for a canonical buffer. -/
theorem Memory.write_of_read {m : Memory} (h : m.wf) {i : Nat} {b : Byte}
    (hf : findCell m.cells i = some b ∨ (findCell m.cells i = none ∧ m.base.isKnownAs b = true)) :
    m.write i b = m := by
  unfold Memory.write
  rcases hf with hf | ⟨hf, hk⟩
  · have hk : m.base.isKnownAs b = false := by
      have : (i, b) ∈ m.cells := by
        clear h
        obtain ⟨g, cs⟩ := m
        induction cs with
        | nil => simp [findCell] at hf
        | cons d cs ih =>
          obtain ⟨a, e⟩ := d
          by_cases hi : a = i
          · subst hi; simp [findCell] at hf; simp [hf]
          · simp only [findCell, hi, if_false] at hf; simp [ih hf]
      exact h.2 _ this
    simp [hk, putCell_of_find h.1 hf]
  · simp [hk, dropCell_of_find_none hf]

/-! ### Ranges -/

@[simp] theorem Memory.readRange_length (m : Memory) (i n : Nat) : (m.readRange i n).length = n := by
  simp [Memory.readRange]

theorem Memory.readRange_getD (m : Memory) (i n k : Nat) (h : k < n) :
    (m.readRange i n).getD k 0 = m.read (i + k) := by
  simp [Memory.readRange, List.getD, h]

@[simp] theorem Memory.writeRange_base (m : Memory) (i : Nat) (bs : List Byte) : (m.writeRange i bs).base = m.base := by
  induction bs generalizing m i with
  | nil => rfl
  | cons b bs ih => simp [Memory.writeRange, ih]

theorem Memory.writeRange_wf {m : Memory} (h : m.wf) (i : Nat) (bs : List Byte) : (m.writeRange i bs).wf := by
  induction bs generalizing m i with
  | nil => exact h
  | cons b bs ih => exact ih (Memory.write_wf h i b) (i + 1)

theorem Memory.writeRange_within {m : Memory} {cap : Nat} (h : m.within cap) {i : Nat} {bs : List Byte}
    (hi : i + bs.length ≤ cap) : (m.writeRange i bs).within cap := by
  induction bs generalizing m i with
  | nil => exact h
  | cons b bs ih =>
    simp only [List.length_cons] at hi
    exact ih (Memory.write_within h b (by omega)) (by omega)

theorem Memory.read_writeRange_outside (m : Memory) {i j : Nat} {bs : List Byte}
    (h : j < i ∨ i + bs.length ≤ j) : (m.writeRange i bs).read j = m.read j := by
  induction bs generalizing m i with
  | nil => rfl
  | cons b bs ih =>
    simp only [List.length_cons] at h
    rw [Memory.writeRange, ih _ (by omega), Memory.read_write_other _ _ (by omega)]

theorem Memory.read_writeRange {m : Memory} (h : m.wf) {i k : Nat} {bs : List Byte} (hk : k < bs.length) :
    (m.writeRange i bs).read (i + k) = bs.getD k 0 := by
  induction bs generalizing m i k with
  | nil => simp at hk
  | cons b bs ih =>
    rw [Memory.writeRange]
    cases k with
    | zero =>
      rw [Memory.read_writeRange_outside _ (by omega)]
      simpa using Memory.read_write_same h i b
    | succ k =>
      have := ih (Memory.write_wf h i b) (i := i + 1) (k := k) (by simpa using hk)
      rw [show i + (k + 1) = i + 1 + k by omega, this]
      simp

/-- What a canonical buffer holds at an index, as data: listed, or unlisted over a background known to read so. -/
def Memory.Holds (m : Memory) (i : Nat) (b : Byte) : Prop :=
  findCell m.cells i = some b ∨ (findCell m.cells i = none ∧ m.base.isKnownAs b = true)

theorem Memory.holds_write_same {m : Memory} (h : m.wf) (i : Nat) (b : Byte) : (m.write i b).Holds i b := by
  unfold Memory.write
  split
  · next hk => exact .inr ⟨findCell_dropCell_same i h.1, hk⟩
  · exact .inl (findCell_putCell_same _ _ _)

theorem Memory.holds_write_other {m : Memory} {i j : Nat} {b c : Byte} (h : j ≠ i) (hh : m.Holds j c) :
    (m.write i b).Holds j c := by
  unfold Memory.Holds Memory.write at *
  split
  · simpa [findCell_dropCell_other _ h] using hh
  · simpa [findCell_putCell_other _ b h] using hh

theorem Memory.holds_writeRange_before {m : Memory} {i j : Nat} {c : Byte} {bs : List Byte} (h : j < i)
    (hh : m.Holds j c) : (m.writeRange i bs).Holds j c := by
  induction bs generalizing m i with
  | nil => exact hh
  | cons b bs ih => exact ih (by omega) (Memory.holds_write_other (by omega) hh)

theorem Memory.holds_writeRange {m : Memory} (h : m.wf) (i : Nat) (bs : List Byte) (k : Nat) (hk : k < bs.length) :
    (m.writeRange i bs).Holds (i + k) bs[k] := by
  induction bs generalizing m i k with
  | nil => simp at hk
  | cons b bs ih =>
    rw [Memory.writeRange]
    cases k with
    | zero => exact Memory.holds_writeRange_before (by omega) (Memory.holds_write_same h i b)
    | succ k =>
      have := ih (Memory.write_wf h i b) (i + 1) k (by simpa using hk)
      rwa [show i + (k + 1) = i + 1 + k by omega]

theorem Memory.writeRange_of_holds {m : Memory} (h : m.wf) (i : Nat) (bs : List Byte)
    (hh : ∀ k, (hk : k < bs.length) → m.Holds (i + k) bs[k]) : m.writeRange i bs = m := by
  induction bs generalizing i with
  | nil => rfl
  | cons b bs ih =>
    have h0 : m.Holds i b := hh 0 (by simp)
    rw [Memory.writeRange, Memory.write_of_read h h0]
    refine ih (i + 1) fun k hk => ?_
    rw [show i + 1 + k = i + (k + 1) by omega]
    exact hh (k + 1) (by simpa using hk)

/-- Storing a sequence twice is storing it once, for a canonical buffer. -/
theorem Memory.writeRange_writeRange {m : Memory} (h : m.wf) (i : Nat) (bs : List Byte) :
    (m.writeRange i bs).writeRange i bs = m.writeRange i bs :=
  Memory.writeRange_of_holds (Memory.writeRange_wf h i bs) i bs (Memory.holds_writeRange h i bs)

/-- Reading back a stored sequence gives the sequence (R11). -/
theorem Memory.readRange_writeRange {m : Memory} (h : m.wf) (bs : List Byte) :
    (m.writeRange 0 bs).readRange 0 bs.length = bs := by
  apply List.ext_getElem
  · simp
  · intro k h1 h2
    have := Memory.read_writeRange h (i := 0) h2
    simp [Memory.readRange, List.getD, h2] at this ⊢
    exact this

theorem Memory.erased_wf : Memory.erased.wf := by simp [Memory.wf, Memory.erased]

theorem Memory.erased_within (cap : Nat) : Memory.erased.within cap := by simp [Memory.within, Memory.erased]

@[simp] theorem Memory.read_erased (i : Nat) : Memory.erased.read i = 0 := rfl

theorem Memory.unwritten_wf (space : Space) (draw : Nat) : (Memory.unwritten space draw).wf := by
  simp [Memory.wf, Memory.unwritten]

theorem Memory.unwritten_within (space : Space) (draw cap : Nat) : (Memory.unwritten space draw).within cap := by
  simp [Memory.within, Memory.unwritten]

/-- A byte nothing has written since reset is the free value of its draw (R35). -/
@[simp] theorem Memory.read_unwritten (space : Space) (draw i : Nat) :
    (Memory.unwritten space draw).read i = Config.unwrittenByte draw space i := rfl

end Sys2Proof.Machine
end

