-- ==== Sys2Proof/Laws/State.lean ====
section
/-! SUPPORT. One lemma per field per update of State, so that no later proof unfolds a record update. -/

namespace Sys2Proof.Machine

variable (s : State)

/-! ### `State.bindKey` -/

@[simp] theorem State.bindKey_params (k : Block) : (s.bindKey k).params = s.params := rfl
@[simp] theorem State.bindKey_key (k : Block) : (s.bindKey k).key = k := rfl
@[simp] theorem State.bindKey_keyv (k : Block) : (s.bindKey k).keyv = true := rfl
@[simp] theorem State.bindKey_done (k : Block) : (s.bindKey k).done = s.done := rfl
@[simp] theorem State.bindKey_fail (k : Block) : (s.bindKey k).fail = s.fail := rfl
@[simp] theorem State.bindKey_err (k : Block) : (s.bindKey k).err = s.err := rfl
@[simp] theorem State.bindKey_inLen (k : Block) : (s.bindKey k).inLen = s.inLen := rfl
@[simp] theorem State.bindKey_auxLen (k : Block) : (s.bindKey k).auxLen = s.auxLen := rfl
@[simp] theorem State.bindKey_outLen (k : Block) : (s.bindKey k).outLen = s.outLen := rfl
@[simp] theorem State.bindKey_result (k : Block) : (s.bindKey k).result = s.result := rfl
@[simp] theorem State.bindKey_ctr (k : Block) : (s.bindKey k).ctr = s.ctr := rfl
@[simp] theorem State.bindKey_vfy (k : Block) : (s.bindKey k).vfy = s.vfy := rfl
@[simp] theorem State.bindKey_input (k : Block) : (s.bindKey k).input = s.input := rfl
@[simp] theorem State.bindKey_aux (k : Block) : (s.bindKey k).aux = s.aux := rfl
@[simp] theorem State.bindKey_output (k : Block) : (s.bindKey k).output = s.output := rfl
@[simp] theorem State.bindKey_pending (k : Block) : (s.bindKey k).pending = s.pending := rfl
@[simp] theorem State.bindKey_replies (k : Block) : (s.bindKey k).replies = s.replies := rfl
@[simp] theorem State.bindKey_resets (k : Block) : (s.bindKey k).resets = s.resets := rfl

/-! ### `State.unbindKey` -/

@[simp] theorem State.unbindKey_params : (s.unbindKey).params = s.params := rfl
@[simp] theorem State.unbindKey_key : (s.unbindKey).key = .zero := rfl
@[simp] theorem State.unbindKey_keyv : (s.unbindKey).keyv = false := rfl
@[simp] theorem State.unbindKey_done : (s.unbindKey).done = s.done := rfl
@[simp] theorem State.unbindKey_fail : (s.unbindKey).fail = s.fail := rfl
@[simp] theorem State.unbindKey_err : (s.unbindKey).err = s.err := rfl
@[simp] theorem State.unbindKey_inLen : (s.unbindKey).inLen = s.inLen := rfl
@[simp] theorem State.unbindKey_auxLen : (s.unbindKey).auxLen = s.auxLen := rfl
@[simp] theorem State.unbindKey_outLen : (s.unbindKey).outLen = s.outLen := rfl
@[simp] theorem State.unbindKey_result : (s.unbindKey).result = s.result := rfl
@[simp] theorem State.unbindKey_ctr : (s.unbindKey).ctr = s.ctr := rfl
@[simp] theorem State.unbindKey_vfy : (s.unbindKey).vfy = s.vfy := rfl
@[simp] theorem State.unbindKey_input : (s.unbindKey).input = s.input := rfl
@[simp] theorem State.unbindKey_aux : (s.unbindKey).aux = s.aux := rfl
@[simp] theorem State.unbindKey_output : (s.unbindKey).output = s.output := rfl
@[simp] theorem State.unbindKey_pending : (s.unbindKey).pending = s.pending := rfl
@[simp] theorem State.unbindKey_replies : (s.unbindKey).replies = s.replies := rfl
@[simp] theorem State.unbindKey_resets : (s.unbindKey).resets = s.resets := rfl

/-! ### `State.erase` -/

@[simp] theorem State.erase_params : (s.erase).params = s.params := rfl
@[simp] theorem State.erase_key : (s.erase).key = s.key := rfl
@[simp] theorem State.erase_keyv : (s.erase).keyv = s.keyv := rfl
@[simp] theorem State.erase_done : (s.erase).done = s.done := rfl
@[simp] theorem State.erase_fail : (s.erase).fail = s.fail := rfl
@[simp] theorem State.erase_err : (s.erase).err = s.err := rfl
@[simp] theorem State.erase_inLen : (s.erase).inLen = 0 := rfl
@[simp] theorem State.erase_auxLen : (s.erase).auxLen = 0 := rfl
@[simp] theorem State.erase_outLen : (s.erase).outLen = s.outLen := rfl
@[simp] theorem State.erase_result : (s.erase).result = s.result := rfl
@[simp] theorem State.erase_ctr : (s.erase).ctr = 0 := rfl
@[simp] theorem State.erase_vfy : (s.erase).vfy = s.vfy := rfl
@[simp] theorem State.erase_input : (s.erase).input = .erased := rfl
@[simp] theorem State.erase_aux : (s.erase).aux = .erased := rfl
@[simp] theorem State.erase_output : (s.erase).output = .erased := rfl
@[simp] theorem State.erase_pending : (s.erase).pending = s.pending := rfl
@[simp] theorem State.erase_replies : (s.erase).replies = s.replies := rfl
@[simp] theorem State.erase_resets : (s.erase).resets = s.resets := rfl

/-! ### `State.complete` -/

@[simp] theorem State.complete_params (r : Result) : (s.complete r).params = s.params := rfl
@[simp] theorem State.complete_key (r : Result) : (s.complete r).key = s.key := rfl
@[simp] theorem State.complete_keyv (r : Result) : (s.complete r).keyv = s.keyv := rfl
@[simp] theorem State.complete_done (r : Result) : (s.complete r).done = true := rfl
@[simp] theorem State.complete_fail (r : Result) : (s.complete r).fail = false := rfl
@[simp] theorem State.complete_err (r : Result) : (s.complete r).err = 0 := rfl
@[simp] theorem State.complete_inLen (r : Result) : (s.complete r).inLen = s.inLen := rfl
@[simp] theorem State.complete_auxLen (r : Result) : (s.complete r).auxLen = s.auxLen := rfl
@[simp] theorem State.complete_outLen (r : Result) : (s.complete r).outLen = BitVec.ofNat 32 r.data.length := rfl
@[simp] theorem State.complete_result (r : Result) : (s.complete r).result = r.scalar := rfl
@[simp] theorem State.complete_ctr (r : Result) : (s.complete r).ctr = s.ctr := rfl
@[simp] theorem State.complete_vfy (r : Result) : (s.complete r).vfy = r.vfy := rfl
@[simp] theorem State.complete_input (r : Result) : (s.complete r).input = s.input := rfl
@[simp] theorem State.complete_aux (r : Result) : (s.complete r).aux = s.aux := rfl
@[simp] theorem State.complete_output (r : Result) : (s.complete r).output = s.output.writeRange 0 r.data := rfl
@[simp] theorem State.complete_pending (r : Result) : (s.complete r).pending = s.pending := rfl
@[simp] theorem State.complete_replies (r : Result) : (s.complete r).replies = s.replies := rfl
@[simp] theorem State.complete_resets (r : Result) : (s.complete r).resets = s.resets := rfl

/-! ### `State.raise` -/

@[simp] theorem State.raise_params (f : Failure) : (s.raise f).params = s.params := rfl
@[simp] theorem State.raise_key (f : Failure) : (s.raise f).key = s.key := rfl
@[simp] theorem State.raise_keyv (f : Failure) : (s.raise f).keyv = s.keyv := rfl
@[simp] theorem State.raise_done (f : Failure) : (s.raise f).done = true := rfl
@[simp] theorem State.raise_fail (f : Failure) : (s.raise f).fail = true := rfl
@[simp] theorem State.raise_err (f : Failure) : (s.raise f).err = f.error.code := rfl
@[simp] theorem State.raise_inLen (f : Failure) : (s.raise f).inLen = s.inLen := rfl
@[simp] theorem State.raise_auxLen (f : Failure) : (s.raise f).auxLen = s.auxLen := rfl
@[simp] theorem State.raise_outLen (f : Failure) : (s.raise f).outLen = 0 := rfl
@[simp] theorem State.raise_result (f : Failure) : (s.raise f).result = 0 := rfl
@[simp] theorem State.raise_ctr (f : Failure) : (s.raise f).ctr = s.ctr := rfl
@[simp] theorem State.raise_vfy (f : Failure) : (s.raise f).vfy = f.vfy := rfl
@[simp] theorem State.raise_input (f : Failure) : (s.raise f).input = s.input := rfl
@[simp] theorem State.raise_aux (f : Failure) : (s.raise f).aux = s.aux := rfl
@[simp] theorem State.raise_output (f : Failure) : (s.raise f).output = s.output := rfl
@[simp] theorem State.raise_pending (f : Failure) : (s.raise f).pending = s.pending := rfl
@[simp] theorem State.raise_replies (f : Failure) : (s.raise f).replies = s.replies := rfl
@[simp] theorem State.raise_resets (f : Failure) : (s.raise f).resets = s.resets := rfl

/-! ### `State.acknowledge` -/

@[simp] theorem State.acknowledge_params : (s.acknowledge).params = s.params := rfl
@[simp] theorem State.acknowledge_key : (s.acknowledge).key = s.key := rfl
@[simp] theorem State.acknowledge_keyv : (s.acknowledge).keyv = s.keyv := rfl
@[simp] theorem State.acknowledge_done : (s.acknowledge).done = true := rfl
@[simp] theorem State.acknowledge_fail : (s.acknowledge).fail = false := rfl
@[simp] theorem State.acknowledge_err : (s.acknowledge).err = 0 := rfl
@[simp] theorem State.acknowledge_inLen : (s.acknowledge).inLen = s.inLen := rfl
@[simp] theorem State.acknowledge_auxLen : (s.acknowledge).auxLen = s.auxLen := rfl
@[simp] theorem State.acknowledge_outLen : (s.acknowledge).outLen = s.outLen := rfl
@[simp] theorem State.acknowledge_result : (s.acknowledge).result = s.result := rfl
@[simp] theorem State.acknowledge_ctr : (s.acknowledge).ctr = s.ctr := rfl
@[simp] theorem State.acknowledge_vfy : (s.acknowledge).vfy = s.vfy := rfl
@[simp] theorem State.acknowledge_input : (s.acknowledge).input = s.input := rfl
@[simp] theorem State.acknowledge_aux : (s.acknowledge).aux = s.aux := rfl
@[simp] theorem State.acknowledge_output : (s.acknowledge).output = s.output := rfl
@[simp] theorem State.acknowledge_pending : (s.acknowledge).pending = s.pending := rfl
@[simp] theorem State.acknowledge_replies : (s.acknowledge).replies = s.replies := rfl
@[simp] theorem State.acknowledge_resets : (s.acknowledge).resets = s.resets := rfl

/-! ### `State.reply` -/

@[simp] theorem State.reply_params (r : Reply) : (s.reply r).params = s.params := rfl
@[simp] theorem State.reply_key (r : Reply) : (s.reply r).key = s.key := rfl
@[simp] theorem State.reply_keyv (r : Reply) : (s.reply r).keyv = s.keyv := rfl
@[simp] theorem State.reply_done (r : Reply) : (s.reply r).done = s.done := rfl
@[simp] theorem State.reply_fail (r : Reply) : (s.reply r).fail = s.fail := rfl
@[simp] theorem State.reply_err (r : Reply) : (s.reply r).err = s.err := rfl
@[simp] theorem State.reply_inLen (r : Reply) : (s.reply r).inLen = s.inLen := rfl
@[simp] theorem State.reply_auxLen (r : Reply) : (s.reply r).auxLen = s.auxLen := rfl
@[simp] theorem State.reply_outLen (r : Reply) : (s.reply r).outLen = s.outLen := rfl
@[simp] theorem State.reply_result (r : Reply) : (s.reply r).result = s.result := rfl
@[simp] theorem State.reply_ctr (r : Reply) : (s.reply r).ctr = s.ctr := rfl
@[simp] theorem State.reply_vfy (r : Reply) : (s.reply r).vfy = s.vfy := rfl
@[simp] theorem State.reply_input (r : Reply) : (s.reply r).input = s.input := rfl
@[simp] theorem State.reply_aux (r : Reply) : (s.reply r).aux = s.aux := rfl
@[simp] theorem State.reply_output (r : Reply) : (s.reply r).output = s.output := rfl
@[simp] theorem State.reply_pending (r : Reply) : (s.reply r).pending = s.pending := rfl
@[simp] theorem State.reply_replies (r : Reply) : (s.reply r).replies = s.replies ++ [r] := rfl
@[simp] theorem State.reply_resets (r : Reply) : (s.reply r).resets = s.resets := rfl

/-! ### `State.offer` -/

@[simp] theorem State.offer_params (e : HostEvent) : (s.offer e).params = s.params := rfl
@[simp] theorem State.offer_key (e : HostEvent) : (s.offer e).key = s.key := rfl
@[simp] theorem State.offer_keyv (e : HostEvent) : (s.offer e).keyv = s.keyv := rfl
@[simp] theorem State.offer_done (e : HostEvent) : (s.offer e).done = s.done := rfl
@[simp] theorem State.offer_fail (e : HostEvent) : (s.offer e).fail = s.fail := rfl
@[simp] theorem State.offer_err (e : HostEvent) : (s.offer e).err = s.err := rfl
@[simp] theorem State.offer_inLen (e : HostEvent) : (s.offer e).inLen = s.inLen := rfl
@[simp] theorem State.offer_auxLen (e : HostEvent) : (s.offer e).auxLen = s.auxLen := rfl
@[simp] theorem State.offer_outLen (e : HostEvent) : (s.offer e).outLen = s.outLen := rfl
@[simp] theorem State.offer_result (e : HostEvent) : (s.offer e).result = s.result := rfl
@[simp] theorem State.offer_ctr (e : HostEvent) : (s.offer e).ctr = s.ctr := rfl
@[simp] theorem State.offer_vfy (e : HostEvent) : (s.offer e).vfy = s.vfy := rfl
@[simp] theorem State.offer_input (e : HostEvent) : (s.offer e).input = s.input := rfl
@[simp] theorem State.offer_aux (e : HostEvent) : (s.offer e).aux = s.aux := rfl
@[simp] theorem State.offer_output (e : HostEvent) : (s.offer e).output = s.output := rfl
@[simp] theorem State.offer_pending (e : HostEvent) : (s.offer e).pending = e :: s.pending := rfl
@[simp] theorem State.offer_replies (e : HostEvent) : (s.offer e).replies = s.replies := rfl
@[simp] theorem State.offer_resets (e : HostEvent) : (s.offer e).resets = s.resets := rfl

/-! ### `State.resetAgain` -/

@[simp] theorem State.resetAgain_params : (s.resetAgain).params = s.params := rfl
@[simp] theorem State.resetAgain_key : (s.resetAgain).key = .zero := rfl
@[simp] theorem State.resetAgain_keyv : (s.resetAgain).keyv = false := rfl
@[simp] theorem State.resetAgain_done : (s.resetAgain).done = false := rfl
@[simp] theorem State.resetAgain_fail : (s.resetAgain).fail = false := rfl
@[simp] theorem State.resetAgain_err : (s.resetAgain).err = 0 := rfl
@[simp] theorem State.resetAgain_inLen : (s.resetAgain).inLen = 0 := rfl
@[simp] theorem State.resetAgain_auxLen : (s.resetAgain).auxLen = 0 := rfl
@[simp] theorem State.resetAgain_outLen : (s.resetAgain).outLen = 0 := rfl
@[simp] theorem State.resetAgain_result : (s.resetAgain).result = 0 := rfl
@[simp] theorem State.resetAgain_ctr : (s.resetAgain).ctr = 0 := rfl
@[simp] theorem State.resetAgain_vfy : (s.resetAgain).vfy = 0 := rfl
@[simp] theorem State.resetAgain_input : (s.resetAgain).input = .unwritten .input (s.resets + 1) := rfl
@[simp] theorem State.resetAgain_aux : (s.resetAgain).aux = .unwritten .aux (s.resets + 1) := rfl
@[simp] theorem State.resetAgain_output : (s.resetAgain).output = .unwritten .output (s.resets + 1) := rfl
@[simp] theorem State.resetAgain_pending : (s.resetAgain).pending = s.pending := rfl
@[simp] theorem State.resetAgain_replies : (s.resetAgain).replies = s.replies := rfl
@[simp] theorem State.resetAgain_resets : (s.resetAgain).resets = s.resets + 1 := rfl

/-! ### `State.bufWrite` and `writeReg`: the fields no host write touches -/

@[simp] theorem State.bufWrite_params (sp : Space) (i : Nat) (b : Byte) : (s.bufWrite sp i b).params = s.params := by
  cases sp <;> simp only [State.bufWrite] <;> (try split) <;> rfl
@[simp] theorem State.bufWrite_key (sp : Space) (i : Nat) (b : Byte) : (s.bufWrite sp i b).key = s.key := by
  cases sp <;> simp only [State.bufWrite] <;> (try split) <;> rfl
@[simp] theorem State.bufWrite_keyv (sp : Space) (i : Nat) (b : Byte) : (s.bufWrite sp i b).keyv = s.keyv := by
  cases sp <;> simp only [State.bufWrite] <;> (try split) <;> rfl
@[simp] theorem State.bufWrite_done (sp : Space) (i : Nat) (b : Byte) : (s.bufWrite sp i b).done = s.done := by
  cases sp <;> simp only [State.bufWrite] <;> (try split) <;> rfl
@[simp] theorem State.bufWrite_fail (sp : Space) (i : Nat) (b : Byte) : (s.bufWrite sp i b).fail = s.fail := by
  cases sp <;> simp only [State.bufWrite] <;> (try split) <;> rfl
@[simp] theorem State.bufWrite_err (sp : Space) (i : Nat) (b : Byte) : (s.bufWrite sp i b).err = s.err := by
  cases sp <;> simp only [State.bufWrite] <;> (try split) <;> rfl
@[simp] theorem State.bufWrite_inLen (sp : Space) (i : Nat) (b : Byte) : (s.bufWrite sp i b).inLen = s.inLen := by
  cases sp <;> simp only [State.bufWrite] <;> (try split) <;> rfl
@[simp] theorem State.bufWrite_auxLen (sp : Space) (i : Nat) (b : Byte) : (s.bufWrite sp i b).auxLen = s.auxLen := by
  cases sp <;> simp only [State.bufWrite] <;> (try split) <;> rfl
@[simp] theorem State.bufWrite_outLen (sp : Space) (i : Nat) (b : Byte) : (s.bufWrite sp i b).outLen = s.outLen := by
  cases sp <;> simp only [State.bufWrite] <;> (try split) <;> rfl
@[simp] theorem State.bufWrite_result (sp : Space) (i : Nat) (b : Byte) : (s.bufWrite sp i b).result = s.result := by
  cases sp <;> simp only [State.bufWrite] <;> (try split) <;> rfl
@[simp] theorem State.bufWrite_ctr (sp : Space) (i : Nat) (b : Byte) : (s.bufWrite sp i b).ctr = s.ctr := by
  cases sp <;> simp only [State.bufWrite] <;> (try split) <;> rfl
@[simp] theorem State.bufWrite_vfy (sp : Space) (i : Nat) (b : Byte) : (s.bufWrite sp i b).vfy = s.vfy := by
  cases sp <;> simp only [State.bufWrite] <;> (try split) <;> rfl
@[simp] theorem State.bufWrite_output (sp : Space) (i : Nat) (b : Byte) : (s.bufWrite sp i b).output = s.output := by
  cases sp <;> simp only [State.bufWrite] <;> (try split) <;> rfl
@[simp] theorem State.bufWrite_pending (sp : Space) (i : Nat) (b : Byte) : (s.bufWrite sp i b).pending = s.pending := by
  cases sp <;> simp only [State.bufWrite] <;> (try split) <;> rfl
@[simp] theorem State.bufWrite_replies (sp : Space) (i : Nat) (b : Byte) : (s.bufWrite sp i b).replies = s.replies := by
  cases sp <;> simp only [State.bufWrite] <;> (try split) <;> rfl
@[simp] theorem State.bufWrite_resets (sp : Space) (i : Nat) (b : Byte) : (s.bufWrite sp i b).resets = s.resets := by
  cases sp <;> simp only [State.bufWrite] <;> (try split) <;> rfl
@[simp] theorem writeReg_params (v : Word) (r : Reg) : (writeReg s v r).params = s.params := by cases r <;> rfl
@[simp] theorem writeReg_key (v : Word) (r : Reg) : (writeReg s v r).key = s.key := by cases r <;> rfl
@[simp] theorem writeReg_keyv (v : Word) (r : Reg) : (writeReg s v r).keyv = s.keyv := by cases r <;> rfl
@[simp] theorem writeReg_done (v : Word) (r : Reg) : (writeReg s v r).done = s.done := by cases r <;> rfl
@[simp] theorem writeReg_fail (v : Word) (r : Reg) : (writeReg s v r).fail = s.fail := by cases r <;> rfl
@[simp] theorem writeReg_err (v : Word) (r : Reg) : (writeReg s v r).err = s.err := by cases r <;> rfl
@[simp] theorem writeReg_outLen (v : Word) (r : Reg) : (writeReg s v r).outLen = s.outLen := by cases r <;> rfl
@[simp] theorem writeReg_result (v : Word) (r : Reg) : (writeReg s v r).result = s.result := by cases r <;> rfl
@[simp] theorem writeReg_vfy (v : Word) (r : Reg) : (writeReg s v r).vfy = s.vfy := by cases r <;> rfl
@[simp] theorem writeReg_input (v : Word) (r : Reg) : (writeReg s v r).input = s.input := by cases r <;> rfl
@[simp] theorem writeReg_aux (v : Word) (r : Reg) : (writeReg s v r).aux = s.aux := by cases r <;> rfl
@[simp] theorem writeReg_output (v : Word) (r : Reg) : (writeReg s v r).output = s.output := by cases r <;> rfl
@[simp] theorem writeReg_pending (v : Word) (r : Reg) : (writeReg s v r).pending = s.pending := by cases r <;> rfl
@[simp] theorem writeReg_replies (v : Word) (r : Reg) : (writeReg s v r).replies = s.replies := by cases r <;> rfl
@[simp] theorem writeReg_resets (v : Word) (r : Reg) : (writeReg s v r).resets = s.resets := by cases r <;> rfl

end Sys2Proof.Machine
end

