-- ==== Sys2Proof/Laws/Commands.lean ====
section
/-! SUPPORT. What the shared operations of the commands can do: the operand checks (R270, R271), the bodies over operands,
the two completions (R264, R265). -/

namespace Sys2Proof.Machine

@[simp] theorem conclude_ok (s t : State) : conclude s (.ok t) = .next t := rfl

@[simp] theorem conclude_error (s : State) (f : Failure) : conclude s (.error f) = .next (s.raise f) := rfl

/-- A command that ends: with its completed state, or with the failing completion over the state before it. -/
theorem conclude_eq_next {s t : State} {body : Except Failure State} :
    conclude s body = .next t ↔ body = .ok t ∨ ∃ f, body = .error f ∧ t = s.raise f := by
  cases body with
  | ok u => simp
  | error f => simp [eq_comm]

theorem inOperand_ok {s : State} (h : s.inLen.toNat ≤ s.params.inCap) :
    inOperand s = .ok (s.input.readRange 0 s.inLen.toNat) := by simp [inOperand, h]

theorem inOperand_error {s : State} (h : s.params.inCap < s.inLen.toNat) :
    inOperand s = .error (.of .lengthRange) := by simp [inOperand, Nat.not_le.2 h]

theorem auxOperand_ok {s : State} (h : s.auxLen.toNat ≤ s.params.auxCap) :
    auxOperand s = .ok (s.aux.readRange 0 s.auxLen.toNat) := by simp [auxOperand, h]

theorem auxOperand_error {s : State} (h : s.params.auxCap < s.auxLen.toNat) :
    auxOperand s = .error (.of .lengthRange) := by simp [auxOperand, Nat.not_le.2 h]

theorem keyOperand_ok {s : State} (h : s.keyv = true) : keyOperand s = .ok s.key := by simp [keyOperand, h]

theorem keyOperand_error {s : State} (h : s.keyv = false) : keyOperand s = .error (.of .noKey) := by
  simp [keyOperand, h]

/-- What a command over `IN*` can do, said once. -/
theorem withInput_cases (s : State) (body : List Byte → Except Failure Result) :
    (s.params.inCap < s.inLen.toNat ∧ withInput s body = .error (.of .lengthRange)) ∨
    (s.inLen.toNat ≤ s.params.inCap ∧
      ((∃ f, body (s.input.readRange 0 s.inLen.toNat) = .error f ∧ withInput s body = .error f) ∨
        ∃ r, body (s.input.readRange 0 s.inLen.toNat) = .ok r ∧ withInput s body = .ok (s.complete r))) := by
  by_cases h : s.inLen.toNat ≤ s.params.inCap
  · refine .inr ⟨h, ?_⟩
    cases hb : body (s.input.readRange 0 s.inLen.toNat) with
    | error f => exact .inl ⟨f, rfl, by simp [withInput, inOperand_ok h, hb]⟩
    | ok r => exact .inr ⟨r, rfl, by simp [withInput, inOperand_ok h, hb]⟩
  · exact .inl ⟨by omega, by simp [withInput, inOperand_error (Nat.lt_of_not_le h)]⟩

/-- What a command over `AUX*` can do, said once. -/
theorem withAux_cases (s : State) (body : List Byte → Except Failure Result) :
    (s.params.auxCap < s.auxLen.toNat ∧ withAux s body = .error (.of .lengthRange)) ∨
    (s.auxLen.toNat ≤ s.params.auxCap ∧
      ((∃ f, body (s.aux.readRange 0 s.auxLen.toNat) = .error f ∧ withAux s body = .error f) ∨
        ∃ r, body (s.aux.readRange 0 s.auxLen.toNat) = .ok r ∧ withAux s body = .ok (s.complete r))) := by
  by_cases h : s.auxLen.toNat ≤ s.params.auxCap
  · refine .inr ⟨h, ?_⟩
    cases hb : body (s.aux.readRange 0 s.auxLen.toNat) with
    | error f => exact .inl ⟨f, rfl, by simp [withAux, auxOperand_ok h, hb]⟩
    | ok r => exact .inr ⟨r, rfl, by simp [withAux, auxOperand_ok h, hb]⟩
  · exact .inl ⟨by omega, by simp [withAux, auxOperand_error (Nat.lt_of_not_le h)]⟩

theorem withAuxAndInput_ok {s : State} (body : List Byte → List Byte → Except Failure Result)
    (h : s.auxLen.toNat ≤ s.params.auxCap) :
    withAuxAndInput s body = withInput s (body (s.aux.readRange 0 s.auxLen.toNat)) := by
  simp [withAuxAndInput, auxOperand_ok h]

theorem withAuxAndInput_error {s : State} (body : List Byte → List Byte → Except Failure Result)
    (h : s.params.auxCap < s.auxLen.toNat) : withAuxAndInput s body = .error (.of .lengthRange) := by
  simp [withAuxAndInput, auxOperand_error h]

theorem withKeyAndInput_bound {s : State} (body : Block → List Byte → Except Failure Result) (h : s.keyv = true) :
    withKeyAndInput s body = withInput s (body s.key) := by
  simp [withKeyAndInput, keyOperand_ok h]

theorem withKeyAndInput_unbound {s : State} (body : Block → List Byte → Except Failure Result)
    (h : s.keyv = false) : withKeyAndInput s body = withInput s fun _ => .error (.of .noKey) := by
  simp [withKeyAndInput, keyOperand_error h]

/-- What the host reads in `OUT` after a successful completion, for a canonical buffer and a result that fits the length
register (R264, R66). -/
theorem State.bufRead_complete {s : State} {r : Result} (hw : s.output.wf) (hl : r.data.length < 2 ^ 32) (i : Nat) :
    (s.complete r).bufRead .output i = r.data.getD i 0 := by
  have hlen : (s.complete r).outLen.toNat = r.data.length := by
    simp only [State.complete_outLen, BitVec.toNat_ofNat]; omega
  have hb : (s.complete r).bufRead .output i =
      if i < r.data.length then (s.output.writeRange 0 r.data).read i else 0 := by
    rw [← hlen]; rfl
  rw [hb]
  split
  · next h => simpa using Memory.read_writeRange hw (i := 0) h
  · next h => simp [List.getD, List.getElem?_eq_none (Nat.le_of_not_lt h)]

/-- After a failing completion the host reads zeros in `OUT` (R265, R66). -/
@[simp] theorem State.bufRead_raise (s : State) (f : Failure) (i : Nat) : (s.raise f).bufRead .output i = 0 := by
  simp [State.bufRead]

/-- `IN*` and `AUX*` as the host reads them are what a command reads, when the length is in range. -/
theorem map_bufRead_input {s : State} (h : s.inLen.toNat ≤ s.params.inCap) :
    ((List.range s.inLen.toNat).map fun i => s.bufRead .input i) = s.input.readRange 0 s.inLen.toNat := by
  refine List.map_congr_left fun i hi => ?_
  have : i < s.params.inCap := Nat.lt_of_lt_of_le (List.mem_range.1 hi) h
  simp [State.bufRead, this]

theorem map_bufRead_aux {s : State} (h : s.auxLen.toNat ≤ s.params.auxCap) :
    ((List.range s.auxLen.toNat).map fun i => s.bufRead .aux i) = s.aux.readRange 0 s.auxLen.toNat := by
  refine List.map_congr_left fun i hi => ?_
  have : i < s.params.auxCap := Nat.lt_of_lt_of_le (List.mem_range.1 hi) h
  simp [State.bufRead, this]

end Sys2Proof.Machine
end

