-- ==== Sys2Proof/Laws/Exec.lean ====
section
/-! SUPPORT. What `exec` can do, said once for all commands: the checks in the order of R267, then the body, then one of
the two completions (R99). -/

namespace Sys2Proof.Machine

/-- The outcome of a command's body, once its checks have passed. -/
def bodyOf (i : Instr) (s : State) : Except Failure Result :=
  let m := s.input.readRange 0 s.inLen.toNat
  let a := s.aux.readRange 0 s.auxLen.toNat
  match i with
  | .nop | .clear | .zeroize => .ok .none
  | .loadkey => if s.auxLen = 16 then .ok .none else .error (.of .keyLength)
  | .hash160 => .ok (.ofData (hash160 m))
  | .hash256 => .ok (.ofData (hash256 m))
  | .kdig160 => .ok (.ofData (hmac hash160 a m))
  | .kdig256 => .ok (.ofData (hmac hash256 a m))
  | .cbcenc => .ok (.ofData (cbcEncrypt s.key m))
  | .cbcdec => dataOrRaise (cbcDecrypt s.key m)
  | .ecbenc => .ok (.ofData (ecbEncrypt s.key m))
  | .ecbdec => dataOrRaise (ecbDecrypt s.key m)
  | .cencode => .ok ⟨(encodeContainer s.key m).1, (encodeContainer s.key m).2, 0⟩
  | .cdecode => decodeContainer s.key m
  | .hotp => .ok ⟨[], BitVec.ofNat 32 (hotp a s.ctr), 0⟩

/-- What a command that succeeds does to the state before its completion (R39, third column). -/
def effectOf (i : Instr) (s : State) : State :=
  match i with
  | .loadkey => s.bindKey (blockOfBytes (s.aux.readRange 0 16))
  | .clear => s.erase
  | .zeroize => s.erase.unbindKey
  | .nop | .hash160 | .hash256 | .kdig160 | .kdig256 | .cbcenc | .cbcdec | .ecbenc | .ecbdec | .cencode | .cdecode
  | .hotp => s

/-- The length-range check fails first (R267, R270). -/
theorem exec_out_of_range {i : Instr} {s : State} (h : ¬ OperandsInRange i s) :
    exec i s = .next (s.raise (.of .lengthRange)) := by
  cases i
  case nop | clear | zeroize => simp [readsIn, readsAux] at h
  case loadkey =>
    have h : s.params.auxCap < s.auxLen.toNat := by simpa [readsIn, readsAux] using h
    simp [exec, execLoadkey, keyToBind, auxOperand_error h]
  case hotp =>
    have h : s.params.auxCap < s.auxLen.toNat := by simpa [readsIn, readsAux] using h
    simp [exec, execHotp, withAux, auxOperand_error h]
  case kdig160 | kdig256 =>
    by_cases ha : s.auxLen.toNat ≤ s.params.auxCap
    · have h : s.params.inCap < s.inLen.toNat := by simpa [readsIn, readsAux, ha] using h
      simp [exec, execKdig160, execKdig256, withAuxAndInput_ok _ ha, withInput, inOperand_error h]
    · simp [exec, execKdig160, execKdig256, withAuxAndInput_error _ (Nat.lt_of_not_le ha)]
  all_goals
    have h : s.params.inCap < s.inLen.toNat := by simpa [readsIn, readsAux] using h
    simp [exec, execHash160, execHash256, execCbcenc, execCbcdec, execEcbenc, execEcbdec, execCencode, execCdecode,
      withKeyAndInput, withInput, inOperand_error h]

/-- The key check fails second (R267, R271). -/
theorem exec_unbound {i : Instr} {s : State} (h : OperandsInRange i s) (hu : usesKey i = true)
    (hk : s.keyv = false) : exec i s = .next (s.raise (.of .noKey)) := by
  cases i
  case nop | loadkey | clear | zeroize | hash160 | hash256 | kdig160 | kdig256 | hotp => simp [usesKey] at hu
  all_goals
    have h : s.inLen.toNat ≤ s.params.inCap := h.1 rfl
    simp [exec, execCbcenc, execCbcdec, execEcbenc, execEcbdec, execCencode, execCdecode,
      withKeyAndInput_unbound _ hk, withInput, inOperand_ok h]

/-- With both checks passed, the body decides (R99). -/
theorem exec_in_range {i : Instr} {s : State} (hn : i ≠ .nop) (h : OperandsInRange i s)
    (hk : usesKey i = true → s.keyv = true) :
    exec i s = .next (match bodyOf i s with
      | .error f => s.raise f
      | .ok r => (effectOf i s).complete r) := by
  cases i
  case nop => exact absurd rfl hn
  case clear | zeroize => rfl
  case loadkey =>
    have h : s.auxLen.toNat ≤ s.params.auxCap := h.2 rfl
    by_cases h16 : s.auxLen = 16
    · simp only [exec, execLoadkey, keyToBind, auxOperand_ok h, bodyOf, effectOf, if_pos h16, conclude_ok]
    · simp only [exec, execLoadkey, keyToBind, auxOperand_ok h, bodyOf, if_neg h16, conclude_error]
  case hotp =>
    have h : s.auxLen.toNat ≤ s.params.auxCap := h.2 rfl
    simp [exec, execHotp, withAux, auxOperand_ok h, bodyOf, effectOf]
  case kdig160 | kdig256 =>
    have ha : s.auxLen.toNat ≤ s.params.auxCap := h.2 rfl
    have hi : s.inLen.toNat ≤ s.params.inCap := h.1 rfl
    simp [exec, execKdig160, execKdig256, withAuxAndInput_ok _ ha, withInput, inOperand_ok hi, bodyOf, effectOf]
  case hash160 | hash256 =>
    have hi : s.inLen.toNat ≤ s.params.inCap := h.1 rfl
    simp [exec, execHash160, execHash256, withInput, inOperand_ok hi, bodyOf, effectOf]
  all_goals
    have hi : s.inLen.toNat ≤ s.params.inCap := h.1 rfl
    simp only [exec, execCbcenc, execCbcdec, execEcbenc, execEcbdec, execCencode, execCdecode,
      withKeyAndInput_bound _ (hk rfl), withInput, inOperand_ok hi, bodyOf, effectOf]
    first
      | rfl
      | (generalize dataOrRaise _ = r; cases r <;> rfl)
      | (generalize decodeContainer _ _ = r; cases r <;> rfl)

/-- Every way a command can end (R99, R264 to R267). -/
theorem exec_cases (i : Instr) (s : State) :
    (i = .nop ∧ exec i s = .next s.acknowledge) ∨
    (¬ OperandsInRange i s ∧ exec i s = .next (s.raise (.of .lengthRange))) ∨
    (OperandsInRange i s ∧ usesKey i = true ∧ s.keyv = false ∧ exec i s = .next (s.raise (.of .noKey))) ∨
    (i ≠ .nop ∧ OperandsInRange i s ∧ (usesKey i = true → s.keyv = true) ∧
      ((∃ f, bodyOf i s = .error f ∧ exec i s = .next (s.raise f)) ∨
        ∃ r, bodyOf i s = .ok r ∧ exec i s = .next ((effectOf i s).complete r))) := by
  by_cases hn : i = .nop
  · subst hn; exact .inl ⟨rfl, rfl⟩
  by_cases h : OperandsInRange i s
  · by_cases hk : usesKey i = true → s.keyv = true
    · refine .inr (.inr (.inr ⟨hn, h, hk, ?_⟩))
      have he := exec_in_range hn h hk
      cases hb : bodyOf i s with
      | error f => exact .inl ⟨f, rfl, by rw [he, hb]⟩
      | ok r => exact .inr ⟨r, rfl, by rw [he, hb]⟩
    · have hu : usesKey i = true ∧ s.keyv = false := by simpa using hk
      exact .inr (.inr (.inl ⟨h, hu.1, hu.2, exec_unbound h hu.1 hu.2⟩))
  · exact .inr (.inl ⟨h, exec_out_of_range h⟩)

end Sys2Proof.Machine
end

