-- ==== Sys2Proof/Laws/PerInstr.lean ====
section
/-! SUPPORT. Statements made for every command, one lemma per constructor: the three fields of its command word (R90,
R92). -/

namespace Sys2Proof.Laws.EncodedFields

/-- The word of a command has a zero field `zero`, and the command's own `unit` and `fn`. -/
def Statement (i : Instr) : Prop :=
  zeroField (encode i) = 0 ∧ unitField (encode i) = (fieldsOf i).1 ∧ fnField (encode i) = (fieldsOf i).2

theorem nop : Statement .nop := by unfold Statement; decide
theorem loadkey : Statement .loadkey := by unfold Statement; decide
theorem clear : Statement .clear := by unfold Statement; decide
theorem zeroize : Statement .zeroize := by unfold Statement; decide
theorem hash160 : Statement .hash160 := by unfold Statement; decide
theorem hash256 : Statement .hash256 := by unfold Statement; decide
theorem kdig160 : Statement .kdig160 := by unfold Statement; decide
theorem kdig256 : Statement .kdig256 := by unfold Statement; decide
theorem cbcenc : Statement .cbcenc := by unfold Statement; decide
theorem cbcdec : Statement .cbcdec := by unfold Statement; decide
theorem ecbenc : Statement .ecbenc := by unfold Statement; decide
theorem ecbdec : Statement .ecbdec := by unfold Statement; decide
theorem cencode : Statement .cencode := by unfold Statement; decide
theorem cdecode : Statement .cdecode := by unfold Statement; decide
theorem hotp : Statement .hotp := by unfold Statement; decide

end Sys2Proof.Laws.EncodedFields
end

