-- ==== Sys2Proof/Laws/Step.lean ====
section
/-! SUPPORT. What a step can do, said once: one case per kind of host event; what a command leaves alone; and how events
and script lines run one after another. -/

namespace Sys2Proof.Machine

/-! ### Commands -/

/-- What no command touches: the parameters and everything outside the block. -/
theorem exec_outside {i : Instr} {s t : State} (h : exec i s = .next t) :
    t.params = s.params ∧ t.pending = s.pending ∧ t.replies = s.replies ∧ t.resets = s.resets := by
  rcases exec_cases i s with ⟨_, h'⟩ | ⟨_, h'⟩ | ⟨_, _, _, h'⟩ | ⟨_, _, _, ⟨_, _, h'⟩ | ⟨_, _, h'⟩⟩ <;>
    rw [h'] at h <;> cases h <;> simp
  cases i <;> simp [effectOf]

/-- A command word either is a command's or ends in the failing completion (R94). -/
theorem command_cases {w : Word} {s t : State} (h : command w s = .next t) :
    (∃ i, decode w = .ok i ∧ exec i s = .next t) ∨
    (∃ e, decode w = .error e ∧ t = s.raise (.of .illegalCommand)) := by
  unfold command at h
  split at h
  · exact .inl ⟨_, ‹_›, h⟩
  · cases h; exact .inr ⟨_, ‹_›, rfl⟩

/-- A body that raises: which digest bits and which codes it reports (R265, R268). -/
theorem bodyOf_error {i : Instr} {s : State} {f : Failure} (h : bodyOf i s = .error f) :
    (f.vfy ≠ 0 → i = .cdecode ∧ f.error = .digestMismatch) ∧ f.vfy ≠ 3 ∧ f.error.code ∈ possibleCodes i := by
  cases i <;> simp only [bodyOf] at h <;> try cases h
  case loadkey => split at h <;> cases h; simp [Failure.of, CmdError.code, possibleCodes]
  case cbcdec =>
    rcases cbcDecrypt_cases s.key (s.input.readRange 0 s.inLen.toNat) with ⟨_, hc⟩ | ⟨_, hc⟩ | ⟨_, p, hc, _⟩ <;>
      rw [hc] at h <;> cases h <;> simp [Failure.of, CmdError.code, possibleCodes]
  case ecbdec =>
    rcases ecbDecrypt_cases s.key (s.input.readRange 0 s.inLen.toNat) with ⟨_, hc⟩ | ⟨_, hc⟩ | ⟨_, p, hc, _⟩ <;>
      rw [hc] at h <;> cases h <;> simp [Failure.of, CmdError.code, possibleCodes]
  case cdecode =>
    rcases decodeContainer_cases s.key (s.input.readRange 0 s.inLen.toNat) with ⟨e, ho, hd⟩ | ⟨p, _, hv, hd⟩ | ⟨p, _, _, hd⟩ <;>
      rw [hd] at h <;> cases h
    · have he : e = .inputLength ∨ e = .padding ∨ e = .truncatedContainer := by
        unfold openContainer at ho
        rcases cbcDecrypt_cases s.key (s.input.readRange 0 s.inLen.toNat) with ⟨_, hc⟩ | ⟨_, hc⟩ | ⟨_, q, hc, _⟩ <;>
          rw [hc] at ho
        · cases ho; simp
        · cases ho; simp
        · rcases parseContainer_cases q with hp | ⟨_, hp⟩ <;> simp only [hp] at ho <;> cases ho
          simp
      rcases he with rfl | rfl | rfl <;> simp [Failure.of, CmdError.code, possibleCodes]
    · exact ⟨fun _ => ⟨rfl, rfl⟩, hv, by simp [CmdError.code, possibleCodes]⟩

/-- A body that ends: its result fits `OUT` (R34), and its digest bits (R32). -/
theorem bodyOf_ok {i : Instr} {s : State} {r : Result} (hp : s.params.wellFormed) (hr : OperandsInRange i s)
    (h : bodyOf i s = .ok r) :
    r.data.length ≤ s.params.outCap ∧ r.data.length < 2 ^ 32 ∧ (r.vfy = if i = .cdecode then 3 else 0) := by
  suffices hs : r.data.length ≤ s.params.outCap ∧ (r.vfy = if i = .cdecode then 3 else 0) by
    refine ⟨hs.1, ?_, hs.2⟩
    have := hs.1
    simp only [Params.outCap] at this
    omega
  have hcap : s.params.outCap = s.params.inCap + 72 := rfl
  have hlen : (s.input.readRange 0 s.inLen.toNat).length = s.inLen.toNat := by simp
  have hin := hr.1
  cases i <;> simp only [bodyOf] at h
  case loadkey => split at h <;> cases h; simp [Result.none]
  case cbcdec =>
    have hin := hin rfl
    rcases cbcDecrypt_cases s.key (s.input.readRange 0 s.inLen.toNat) with ⟨_, hc⟩ | ⟨_, hc⟩ | ⟨_, p, hc, _⟩ <;>
      rw [hc] at h <;> cases h
    exact ⟨by simp only [Result.ofData]; omega, rfl⟩
  case ecbdec =>
    have hin := hin rfl
    rcases ecbDecrypt_cases s.key (s.input.readRange 0 s.inLen.toNat) with ⟨_, hc⟩ | ⟨_, hc⟩ | ⟨_, p, hc, _⟩ <;>
      rw [hc] at h <;> cases h
    exact ⟨by simp only [Result.ofData]; omega, rfl⟩
  case cdecode =>
    have hin := hin rfl
    rcases decodeContainer_cases s.key (s.input.readRange 0 s.inLen.toNat) with ⟨e, _, hd⟩ | ⟨p, _, hv, hd⟩ | ⟨p, ho, _, hd⟩ <;>
      rw [hd] at h <;> cases h
    refine ⟨?_, rfl⟩
    unfold openContainer at ho
    rcases cbcDecrypt_cases s.key (s.input.readRange 0 s.inLen.toNat) with ⟨_, hc⟩ | ⟨_, hc⟩ | ⟨_, q, hc, hq⟩ <;>
      rw [hc] at ho
    · cases ho
    · cases ho
    · rcases parseContainer_cases q with hq' | ⟨hl, hq'⟩ <;> simp only [hq'] at ho <;> cases ho
      simp only [slice_length]
      omega
  all_goals
    cases h
    simp only [readsIn, forall_const] at hin
    simp [Result.none, Result.ofData, hash160_length, hash256_length, hmac_hash160_length, hmac_hash256_length,
      cbcEncrypt_length, ecbEncrypt_length, encodeContainer, pack_length]
    try omega

/-- Completing the same result twice is completing it once, for a canonical buffer. -/
theorem State.complete_complete {s : State} (h : s.output.wf) (r : Result) :
    (s.complete r).complete r = s.complete r := by
  simp only [State.complete, Memory.writeRange_writeRange h]

theorem CmdError.code_ne_zero (e : CmdError) : e.code ≠ 0 := by cases e <;> decide

theorem CmdError.code_mem (e : CmdError) : e.code ∈ errCodes := by cases e <;> decide

/-! ### Steps -/

/-- What a step that yields a next state has done, one case per kind of host event. -/
theorem step_cases {s t : State} (h : step s = .next t) :
    (s.pending = [] ∧ t = s) ∨
    (∃ rest, s.pending = .reset :: rest ∧ t = State.resetAgain { s with pending := rest }) ∨
    (∃ off rest, s.pending = .transact (.regRead off) :: rest ∧ registerOffsetOk off = true ∧
      t = State.reply { s with pending := rest } (.word (regRead s off))) ∨
    (∃ space i rest, s.pending = .transact (.bufRead space i) :: rest ∧
      t = State.reply { s with pending := rest } (.byte (s.bufRead space i))) ∨
    (∃ space i b rest, s.pending = .transact (.bufWrite space i b) :: rest ∧
      t = State.bufWrite { s with pending := rest } space i b) ∨
    (∃ w rest, s.pending = commandWrite w :: rest ∧ command w { s with pending := rest } = .next t) ∨
    (∃ off v rest, s.pending = .transact (.regWrite off v) :: rest ∧ registerOffsetOk off = true ∧
      ((∃ r, regAt off = some r ∧ r ≠ .cmd ∧ t = writeReg { s with pending := rest } v r) ∨
        (regAt off = none ∧ t = { s with pending := rest }))) := by
  unfold step takeEvent at h
  split at h
  · next hp => cases h; exact .inl ⟨hp, rfl⟩
  · next e rest hp =>
    right
    cases e with
    | reset => cases h; exact .inl ⟨rest, hp, rfl⟩
    | transact u =>
      right
      simp only [deliver, transact] at h
      split at h
      · next hw =>
        cases u with
        | regRead off =>
          cases h
          exact .inl ⟨off, rest, hp, hw, by congr 2⟩
        | bufRead space i => cases h; exact .inr (.inl ⟨space, i, rest, hp, by cases space <;> rfl⟩)
        | bufWrite space i b => cases h; exact .inr (.inr (.inl ⟨space, i, b, rest, hp, rfl⟩))
        | regWrite off v =>
          right; right; right
          simp only [perform, regWrite] at h
          split at h
          · next hreg =>
            left
            have : off = 4 := by unfold regAt at hreg; split at hreg <;> first | rfl | cases hreg
            subst this
            exact ⟨v, rest, hp, h⟩
          · next hne hreg =>
            cases h
            exact .inr ⟨off, v, rest, hp, hw, .inl ⟨_, hreg, by rintro rfl; exact hne rfl, rfl⟩⟩
          · next hreg => cases h; exact .inr ⟨off, v, rest, hp, hw, .inr ⟨hreg, rfl⟩⟩
      · cases h

/-- A `CMD` write waiting: the step is the execution of its word. -/
theorem step_commandWrite {s : State} {w : Word} {rest : List HostEvent} (h : s.pending = commandWrite w :: rest) :
    step s = command w { s with pending := rest } := by
  simp [step, takeEvent, h, commandWrite, deliver, transact, Transaction.wellFormed, registerOffsetOk, perform, regWrite,
    regAt]

/-! ### Scripts -/

theorem runEvents_append {es fs : List HostEvent} {s t : State} (h : runEvents es s = .next t) :
    runEvents (es ++ fs) s = runEvents fs t := by
  induction es generalizing s with
  | nil => simp [runEvents] at h; subst h; rfl
  | cons e es ih =>
    simp only [runEvents, List.cons_append] at h ⊢
    split at h
    · exact ih h
    · cases h
    · cases h

theorem runScript_cons {l : ScriptLine} {ls : List ScriptLine} {s t : State}
    (h : runEvents (lineEvents s l) s = .next t) : runScript (l :: ls) s = runScript ls t := by
  simp [runScript, h]

/-- `WRB IN` within the capacity stores its bytes (R96, R64). -/
theorem runEvents_wrb_input (s : State) (i : Nat) (bs : List Byte) (h : i + bs.length ≤ s.params.inCap) :
    runEvents (wrbEvents .input i bs) s = .next { s with input := s.input.writeRange i bs } := by
  induction bs generalizing s i with
  | nil => rfl
  | cons b bs ih =>
    simp only [List.length_cons] at h
    have hi : i < s.params.inCap := by omega
    simp only [wrbEvents, runEvents, deliver, transact, Transaction.wellFormed, perform, State.bufWrite, if_true, if_pos hi]
    exact ih { s with input := s.input.write i b } (i + 1) (by show _ ≤ s.params.inCap; omega)

/-- `WRB AUX` within the capacity stores its bytes (R96, R64). -/
theorem runEvents_wrb_aux (s : State) (i : Nat) (bs : List Byte) (h : i + bs.length ≤ s.params.auxCap) :
    runEvents (wrbEvents .aux i bs) s = .next { s with aux := s.aux.writeRange i bs } := by
  induction bs generalizing s i with
  | nil => rfl
  | cons b bs ih =>
    simp only [List.length_cons] at h
    have hi : i < s.params.auxCap := by omega
    simp only [wrbEvents, runEvents, deliver, transact, Transaction.wellFormed, perform, State.bufWrite, if_true, if_pos hi]
    exact ih { s with aux := s.aux.write i b } (i + 1) (by show _ ≤ s.params.auxCap; omega)

end Sys2Proof.Machine
end

