-- ==== Sys2Proof/Tests/Slice0.lean ====
section
/-! SUPPORT. Tests against values the spec gives (95_test_vectors.md and the rules' own examples), the well-formedness
smoke tests, and for every obligation with hypotheses a theorem that concrete data meet them. -/

namespace Sys2Proof.Tests

open Sys2Proof.Machine Sys2Proof.Claims

-- One theorem at a time: the evaluations below are the package's largest.
set_option Elab.async false

/-! ### Helpers -/

/-- `n` bytes written as one hexadecimal number, first byte first. -/
def hex (n v : Nat) : List Byte := (bytesLE n v).reverse

/-- The key `K0F` of 95_test_vectors.md. -/
def k0f : Block := blockOfBytes (hex 16 0x000102030405060708090a0b0c0d0e0f)

/-- A block with a bound key, an input, a secret and a counter. -/
def load (key : Block) (input aux : List Byte) (ctr : BitVec 64) : State :=
  { State.reset with
    key := key
    keyv := true
    input := (Memory.unwritten .input 0).writeRange 0 input
    inLen := BitVec.ofNat 32 input.length
    aux := (Memory.unwritten .aux 0).writeRange 0 aux
    auxLen := BitVec.ofNat 32 aux.length
    ctr := ctr }

/-- What the host can see of a completion: the data result, `RESULT`, `VFY`, `ERR`. -/
def shown : Host.Outcome State Fault Refusal → Option (List Byte × Nat × Nat × Nat)
  | .next s =>
    some ((List.range s.outLen.toNat).map (s.bufRead .output), s.result.toNat, s.vfy.toNat, s.err.toNat)
  | .fault _ => none
  | .refused _ => none

/-- The register an event reads, after running host events. -/
def readAfter (es : List HostEvent) (off : Nat) (s : State) : Option Nat :=
  match runEvents es s with
  | .next t => some (regRead t off).toNat
  | .fault _ => none
  | .refused _ => none

/-- A state with given host events waiting. -/
def waiting (es : List HostEvent) : State := { State.reset with pending := es }

/-- "abc". -/
def abc : List Byte := [0x61, 0x62, 0x63]

/-! ### Well-formedness: ill-formed terms the checks refuse -/

theorem test_wellFormed_refuses_misaligned_read : (Transaction.regRead 0x12).wellFormed = false := by decide
theorem test_wellFormed_refuses_read_above_the_space : (Transaction.regRead 0x100).wellFormed = false := by decide
theorem test_wellFormed_refuses_misaligned_write : (Transaction.regWrite 0x05 1).wellFormed = false := by decide
theorem test_wellFormed_refuses_write_above_the_space : (Transaction.regWrite 0x100 1).wellFormed = false := by decide
theorem test_wellFormed_refuses_event : (HostEvent.transact (.regRead 1)).wellFormed = false := by decide
theorem test_wellFormed_accepts_last_offset : (Transaction.regRead 0xFC).wellFormed = true := by decide
theorem test_wellFormed_refuses_small_input_buffer : ¬ Params.wellFormed ⟨15, 256⟩ := by decide
theorem test_wellFormed_refuses_large_input_buffer : ¬ Params.wellFormed ⟨2 ^ 32 - 72, 256⟩ := by decide
theorem test_wellFormed_refuses_small_aux_buffer : ¬ Params.wellFormed ⟨4096, 15⟩ := by decide
theorem test_wellFormed_refuses_large_aux_buffer : ¬ Params.wellFormed ⟨4096, 2 ^ 32⟩ := by decide
theorem test_wellFormed_refuses_out2in_that_does_not_fit :
    ScriptLine.out2in.wellFormed Params.default 4097 = false := by decide
theorem test_wellFormed_refuses_long_setin (bs : List Byte) (h : 2 ^ 32 ≤ bs.length) :
    (ScriptLine.setin bs).wellFormed Params.default 0 = false := decide_eq_false (Nat.not_lt.2 h)
theorem test_wellFormed_refuses_long_setaux (bs : List Byte) (h : 2 ^ 32 ≤ bs.length) :
    (ScriptLine.setaux bs).wellFormed Params.default 0 = false := decide_eq_false (Nat.not_lt.2 h)
theorem test_wellFormed_refuses_long_key (bs : List Byte) (h : 2 ^ 32 ≤ bs.length) :
    (ScriptLine.key bs).wellFormed Params.default 0 = false := decide_eq_false (Nat.not_lt.2 h)
theorem test_wellFormed_accepts_every_command (i : Instr) : i.wellFormed = true := by cases i <;> rfl

/-! ### Decoding: words written out from R90 (zero, unit, fn) and R92 -/

theorem test_decode_sys :
    decode 0b00000000000000000000000000000000 = .ok .nop ∧ decode 0b00000000000000000000000000000001 = .ok .loadkey ∧
    decode 0b00000000000000000000000000000010 = .ok .clear ∧
    decode 0b00000000000000000000000000000011 = .ok .zeroize := ⟨rfl, rfl, rfl, rfl⟩
theorem test_decode_dig :
    decode 0b00000000000000000000000000010000 = .ok .hash160 ∧
    decode 0b00000000000000000000000000010001 = .ok .hash256 ∧
    decode 0b00000000000000000000000000010010 = .ok .kdig160 ∧
    decode 0b00000000000000000000000000010011 = .ok .kdig256 := ⟨rfl, rfl, rfl, rfl⟩
theorem test_decode_cip :
    decode 0b00000000000000000000000000100000 = .ok .cbcenc ∧ decode 0b00000000000000000000000000100001 = .ok .cbcdec ∧
    decode 0b00000000000000000000000000100010 = .ok .ecbenc ∧
    decode 0b00000000000000000000000000100011 = .ok .ecbdec := ⟨rfl, rfl, rfl, rfl⟩
theorem test_decode_cod :
    decode 0b00000000000000000000000000110000 = .ok .cencode ∧
    decode 0b00000000000000000000000000110001 = .ok .cdecode := ⟨rfl, rfl⟩
theorem test_decode_otp : decode 0b00000000000000000000000001000000 = .ok .hotp := rfl
theorem test_decode_rejects_by_name :
    decode 0x00000100 = .error .zeroFieldSet ∧ decode 0x80000010 = .error .zeroFieldSet ∧
    decode 0x00000004 = .error .unusedFunction ∧ decode 0x00000014 = .error .unusedFunction ∧
    decode 0x00000024 = .error .unusedFunction ∧ decode 0x00000032 = .error .unusedFunction ∧
    decode 0x00000041 = .error .unusedFunction ∧ decode 0x00000050 = .error .unusedUnit ∧
    decode 0x000000F0 = .error .unusedUnit := ⟨rfl, rfl, rfl, rfl, rfl, rfl, rfl, rfl, rfl⟩
theorem test_decodeBytes_lane_order :
    decodeBytes [0x31, 0, 0, 0] = .ok .cdecode ∧ decodeBytes [0, 0, 0, 0x31] = .error .zeroFieldSet ∧
    decodeBytes [0x31] = .error .wrongLength ∧ decodeBytes [0x31, 0, 0, 0, 0] = .error .wrongLength := ⟨rfl, rfl, rfl, rfl⟩
theorem test_decodeTableWord :
    decodeTableWord 32 0x31 = some .cdecode ∧ decodeTableWord 32 0x131 = none ∧
    decodeTableWord 32 (2 ^ 32 + 0x31) = some .cdecode ∧ decodeTableWord 8 0x31 = some .cdecode := by decide

/-! ### Algorithms: the intermediate values of 95_test_vectors.md sections 2 and 3 -/

theorem test_round_one :
    let s0 := addRoundKey (blockOfBytes (hex 16 0x00112233445566778899aabbccddeeff)) (roundKey (keySchedule k0f) 0)
    blockBytes (subBytes s0) = hex 16 0x63cab7040953d051cd60e0e7ba70e18c ∧
    blockBytes (shiftRows (subBytes s0)) = hex 16 0x6353e08c0960e104cd70b751bacad0e7 ∧
    blockBytes (mixColumns (shiftRows (subBytes s0))) = hex 16 0x5f72641557f5bc92f7be3b291db9f91a := by
  decide +kernel

theorem test_last_round_key : blockBytes (roundKey (keySchedule k0f) 10) = hex 16 0x13111d7fe3944a17f307a78b4d2b30c5 := by
  decide +kernel

/-- FIPS 197 appendix B, 95_test_vectors.md section 2.1. -/
theorem test_encrypt_block :
    blockBytes (aesEncryptBlock (blockOfBytes (hex 16 0x2b7e151628aed2a6abf7158809cf4f3c))
      (blockOfBytes (hex 16 0x3243f6a8885a308d313198a2e0370734))) = hex 16 0x3925841d02dc09fbdc118597196a0b32 := by
  decide +kernel

/-- R189: row `r` of column `c` comes from column `c + r`; the bytes numbered by their index. -/
theorem test_shiftRows_index :
    blockBytes (shiftRows (blockOfBytes (hex 16 0x000102030405060708090a0b0c0d0e0f))) =
      [0, 5, 10, 15, 4, 9, 14, 3, 8, 13, 2, 7, 12, 1, 6, 11] := by decide

/-- R191's example, undoing R190's. -/
theorem test_invMixColumn : invMixColumn ⟨0x8e, 0x4d, 0xa1, 0xbc⟩ = ⟨0xdb, 0x13, 0x53, 0x45⟩ := by decide +kernel

theorem test_sha_schedules :
    ((sha1Schedule (shaPad abc)).drop 16).take 4 = [0xc2c4c700, 0x00000000, 0x00000030, 0x85898e01] ∧
    ((sha256Schedule (shaPad abc)).drop 16).take 4 = [0x61626380, 0x000f0000, 0x7da86405, 0x600003c6] := by
  decide +kernel

/-- R130's corner cases: one block for 0 and 55 bytes, two for 56 and 64. -/
theorem test_shaZeros : shaZeros 0 = 55 ∧ shaZeros 55 = 0 ∧ shaZeros 56 = 63 ∧ shaZeros 64 = 55 := by decide

/-- R226: the signed reading of the "password" of "abc". -/
theorem test_signedPassword : signedPassword abc = -1089046342 := by decide +kernel

/-! ### Commands -/

/-- R110's example. -/
theorem test_nop :
    (match exec .nop { State.reset with err := 5, fail := true, done := true, keyv := true, vfy := 2 } with
      | .next t => (regRead t 0x0C, regRead t 0x08, regRead t 0x28)
      | .fault _ => (0, 0, 0)
      | .refused _ => (0, 0, 0)) = (0, 0b101, 2) := by decide

/-- R111: seventeen bytes are refused and the key stays. -/
theorem test_loadkey_seventeen_bytes :
    (match exec .loadkey (load k0f [] (rep 0xff 17) 0) with
      | .next t => (t.err, t.key, t.keyv)
      | .fault _ => (0, .zero, false)
      | .refused _ => (0, .zero, false)) = (1, k0f, true) := by decide +kernel

/-- R111: sixteen bytes replace the key. -/
theorem test_loadkey_sixteen_bytes :
    (match exec .loadkey (load k0f [] (hex 16 0x0f0e0d0c0b0a09080706050403020100) 0) with
      | .next t => (t.err, t.key.c0, t.key.c3.r3)
      | .fault _ => (9, .zero, 0)
      | .refused _ => (9, .zero, 0)) = (0, ⟨0x0f, 0x0e, 0x0d, 0x0c⟩, 0x00) := by decide +kernel

/-- R112's example. -/
theorem test_clear :
    (match exec .clear (load k0f [1, 2, 3] [4] 5) with
      | .next t => (t.inLen, t.auxLen, t.ctr, t.bufRead .input 0, t.bufRead .aux 0, regRead t 0x08)
      | .fault _ => (1, 1, 1, 1, 1, 1)
      | .refused _ => (1, 1, 1, 1, 1, 1)) = (0, 0, 0, 0, 0, 0b101) := by decide +kernel

/-- R113: afterwards no key is bound. -/
theorem test_zeroize :
    (match exec .zeroize (load k0f [1, 2, 3] [4] 5) with
      | .next t => (t.key, regRead t 0x08, t.bufRead .input 2)
      | .fault _ => (k0f, 1, 1)
      | .refused _ => (k0f, 1, 1)) = (.zero, 0b001, 0) := by decide +kernel

theorem test_hash160_abc :
    shown (exec .hash160 (load k0f abc [] 0)) = some (hex 20 0xa9993e364706816aba3e25717850c26c9cd0d89d, 0, 0, 0) := by
  decide +kernel

/-- 56 bytes: two blocks. -/
theorem test_hash160_two_blocks :
    shown (exec .hash160 (load k0f (rep 0x61 56) [] 0)) =
      some (hex 20 0xc2db330f6083854c99d4b5bfb6e8f29f201be699, 0, 0, 0) := by decide +kernel

theorem test_hash256_abc :
    shown (exec .hash256 (load k0f abc [] 0)) =
      some (hex 32 0xba7816bf8f01cfea414140de5dae2223b00361a396177a9cb410ff61f20015ad, 0, 0, 0) := by decide +kernel

/-- R166's example. -/
theorem test_kdig160 :
    shown (exec .kdig160 (load k0f (rep 0 8) (hex 20 0x3132333435363738393031323334353637383930) 0)) =
      some (hex 20 0xcc93cf18508d94934c64b65d8ba7667fb7cde4b0, 0, 0, 0) := by decide +kernel

/-- A 65-byte secret is hashed first (R162). -/
theorem test_kdig160_long_secret :
    shown (exec .kdig160 (load k0f abc ((List.range 65).map (BitVec.ofNat 8)) 0)) =
      some (hex 20 0x7636c08e7b7c0f0c391ca01d34ef4208399fbcf8, 0, 0, 0) := by decide +kernel

/-- "Hi There" under twenty bytes 0b. -/
theorem test_kdig256 :
    shown (exec .kdig256 (load k0f (hex 8 0x4869205468657265) (rep 0x0b 20) 0)) =
      some (hex 32 0xb0344c61d8db38535ca8afceaf0bf12b881dc200c9833da726e9376c2e32cff7, 0, 0, 0) := by decide +kernel

theorem test_cbcenc :
    shown (exec .cbcenc (load k0f (hex 17 0x4142434445464748494a4b4c4d4e4f5051) [] 0)) =
      some (hex 32 0x9cdd85de85b48bed892f02d8a5cbdacb176e1aabc4ca8944db0d4e033ea73d4e, 0, 0, 0) := by decide +kernel

/-- Two blocks: the second is chained. -/
theorem test_cbcdec :
    shown (exec .cbcdec
      (load k0f (hex 32 0x9cdd85de85b48bed892f02d8a5cbdacb176e1aabc4ca8944db0d4e033ea73d4e) [] 0)) =
      some (hex 17 0x4142434445464748494a4b4c4d4e4f5051, 0, 0, 0) := by decide +kernel

/-- A count of 2 with a different byte before it (95_test_vectors.md section 2.5, third row). -/
theorem test_cbcdec_padding :
    shown (exec .cbcdec (load k0f (hex 16 0xcf931c974f3a9c42f7d5575c7a7b0d35) [] 0)) = some ([], 0, 0, 3) := by
  decide +kernel

theorem test_ecbenc :
    shown (exec .ecbenc (load k0f (hex 16 0x4142434445464748494a4b4c4d4e4f50) [] 0)) =
      some (hex 32 0x9cdd85de85b48bed892f02d8a5cbdacb954f64f2e4e86e9eee82d20216684899, 0, 0, 0) := by decide +kernel

theorem test_ecbdec :
    shown (exec .ecbdec (load k0f (hex 16 0xcba7320d6382b39eb56248f2e6e897ee) [] 0)) =
      some (rep 0 14, 0, 0, 0) := by decide +kernel

/-- 95_test_vectors.md section 6.1. -/
theorem test_cencode :
    shown (exec .cencode (load k0f abc [] 0)) =
      some (hex 64 0x30eb73df479eaf5159f14d21bad8255d12fb9233bb54cafe3e967bd0620a94caf6144797ba36ce1fb3ae3d6b0dc9b407c8c4486b81f398a4bac76e6bbbf5d9cf,
        0xbf1678ba, 0, 0) := by decide +kernel

/-- Trailing bytes after the second digest are ignored (95_test_vectors.md section 6.2, last row). -/
theorem test_cdecode_trailing_bytes :
    shown (exec .cdecode (load k0f (hex 80 0x30eb73df479eaf5159f14d21bad8255d12fb9233bb54cafe3e967bd0620a94caf6144797ba36ce1fb3ae3d6b0dc9b407255cf1d37d464e7f48a81d42e4ebc07c5a1f6a7c7c8317b98d87b3e42f13c34e) [] 0)) =
      some (abc, 0, 3, 0) := by decide +kernel

/-- The length field whose sum with 56 wraps to 0 (section 6.2). -/
theorem test_cdecode_wrapping_length :
    shown (exec .cdecode (load k0f (hex 64 0x0e5379d5632fc4db378ce55358f51c21cad3b42c031dfc0d7ef960ce191b92f34133882dc5679328cd69a0c36e678a106d593196eedc79cddcc7d1c46893dec6) [] 0)) =
      some ([], 0, 0, 4) := by decide +kernel

/-- Every byte position of the counter shows (section 5). -/
theorem test_hotp_byte_order :
    shown (exec .hotp (load k0f [] (hex 20 0x3132333435363738393031323334353637383930) 0x0102030405060708)) =
      some ([], 292799, 0, 0) := by decide +kernel

/-- Offset 15, and a first byte whose top bit is masked (section 5). -/
theorem test_hotp_last_offset :
    shown (exec .hotp (load k0f [] (hex 20 0x3132333435363738393031323334353637383930) 55)) =
      some ([], 478026, 0, 0) := by decide +kernel

/-! ### Steps and the host port -/

/-- The first step after reset runs the word offered: `HOTP` of the empty secret at counter 0 (section 5, last row). -/
theorem test_withFetchWord_runs_the_word :
    shown (step (State.reset.withFetchWord 32 0x40)) = some ([], 328482, 0, 0) := by decide +kernel

theorem test_withFetchWord_drops_high_bits :
    State.reset.withFetchWord 8 0x140 = State.reset.withFetchWord 32 0x40 := by decide

theorem test_illegal_word : shown (step (State.reset.withFetchWord 32 0x44)) = some ([], 0, 0, 8) := by decide

/-- R31: the two halves of `CTR`. -/
theorem test_counter_halves :
    readAfter [.transact (.regWrite 0x20 0x05060708), .transact (.regWrite 0x24 0x01020304)] 0x20 State.reset =
      some 0x05060708 ∧
    readAfter [.transact (.regWrite 0x20 0x05060708), .transact (.regWrite 0x24 0x01020304)] 0x24 State.reset =
      some 0x01020304 := by decide

/-- R22: read-only registers ignore writes. -/
theorem test_read_only_registers :
    readAfter [.transact (.regWrite 0x00 1), .transact (.regWrite 0x1C 7)] 0x00 State.reset = some 0x43413407 ∧
    readAfter [.transact (.regWrite 0x34 1)] 0x34 State.reset = some 4168 := by decide

/-- R64: the first index beyond the capacity is not stored; `BufRead` gives 0 there (R65). -/
theorem test_buffer_edge :
    ((State.reset.bufWrite .input 4095 9).bufWrite .input 4096 9).bufRead .input 4095 = 9 ∧
    ((State.reset.bufWrite .input 4095 9).bufWrite .input 4096 9).bufRead .input 4096 = 0 := by decide

/-- Writing zero over an erased byte leaves the buffer as it was: equal memories are equal data. -/
theorem test_canonical_form : (Memory.erased.write 3 7).write 3 0 = Memory.erased := by decide

/-! ### Hypotheses that can be met -/

theorem reset_inv : BlockInv State.reset where
  params := by decide
  outLen_le := by decide
  key_zero := fun _ => rfl
  fail_iff := by decide
  fail_clears := by decide
  verified := by decide
  err_code := by decide
  input_wf := ⟨Memory.unwritten_wf _ _, Memory.unwritten_within _ _ _⟩
  aux_wf := ⟨Memory.unwritten_wf _ _, Memory.unwritten_within _ _ _⟩
  output_wf := ⟨Memory.unwritten_wf _ _, Memory.unwritten_within _ _ _⟩

/-- Host events waiting do not matter to the invariants. -/
theorem waiting_inv (es : List HostEvent) : BlockInv (waiting es) := { reset_inv with }

/-- A loaded block meets the invariants. -/
theorem load_inv (key : Block) {input aux : List Byte} (ctr : BitVec 64) (hi : input.length ≤ 4096)
    (ha : aux.length ≤ 256) : BlockInv (load key input aux ctr) :=
  { reset_inv with
    key_zero := fun h => absurd h (by simp [load])
    input_wf := ⟨Memory.writeRange_wf (Memory.unwritten_wf _ _) _ _,
      Memory.writeRange_within (Memory.unwritten_within _ _ _) (by rw [Nat.zero_add]; exact hi)⟩
    aux_wf := ⟨Memory.writeRange_wf (Memory.unwritten_wf _ _) _ _,
      Memory.writeRange_within (Memory.unwritten_within _ _ _) (by rw [Nat.zero_add]; exact ha)⟩ }

/-- What a loaded block's input operand is. -/
theorem load_inStar (key : Block) {input aux : List Byte} (ctr : BitVec 64) (hi : input.length ≤ 4096) :
    inStar (load key input aux ctr) = input := by
  have hl : (load key input aux ctr).inLen.toNat = input.length := by simp [load]; omega
  have hc : (load key input aux ctr).inLen.toNat ≤ (load key input aux ctr).params.inCap := by rw [hl]; exact hi
  rw [inStar, map_bufRead_input hc, hl]
  exact Memory.readRange_writeRange (Memory.unwritten_wf _ _) input

theorem witness_OtherWordsAreIllegalCommands :
    (∀ i, (0x00000004 : Word) ≠ encode i) ∧ (∀ i, (0x00000100 : Word) ≠ encode i) ∧
    (waiting [commandWrite 0x00000004]).pending = commandWrite 0x00000004 :: [] :=
  ⟨fun i => by cases i <;> decide, fun i => by cases i <;> decide, rfl⟩

theorem witness_StepRunsTheDecodedCommand :
    (waiting [commandWrite 0x00000031]).pending = commandWrite 0x00000031 :: [] ∧ decode 0x00000031 = .ok .cdecode :=
  ⟨rfl, rfl⟩

theorem witness_IdleStepChangesNothing : State.reset.pending = [] := rfl

theorem witness_RegReadReturnsTheRegister :
    (waiting [.transact (.regRead 0x34)]).pending = .transact (.regRead 0x34) :: [] ∧ 0x34 % 4 = 0 ∧ 0x34 ≤ 0xFC ∧
    (0x34, (4168 : Word)) ∈ registerTable (waiting [.transact (.regRead 0x34)]) ∧
    (waiting [.transact (.regRead 0x38)]).pending = .transact (.regRead 0x38) :: [] ∧ 0x38 % 4 = 0 ∧ 0xFC % 4 = 0 := by
  decide

theorem witness_RegWriteStoresOnlyRwRegisters :
    (waiting [.transact (.regWrite 0x10 1)]).pending = .transact (.regWrite 0x10 1) :: [] ∧
    (∀ off ∈ [0x00, 0x0C, 0x10, 0x14, 0x20, 0x24, 0x38, 0xFC], off % 4 = 0 ∧ off ≤ 0xFC ∧ off ≠ 0x04) := by decide

theorem witness_MissingRegisterAccessIsRefused :
    (0x02 % 4 ≠ 0 ∨ 0xFC < 0x02) ∧ (0x100 % 4 ≠ 0 ∨ 0xFC < 0x100) ∧
    (waiting [.transact (.regRead 0x100)]).pending = .transact (.regRead 0x100) :: [] ∧
    (waiting [.transact (.regWrite 0x02 1)]).pending = .transact (.regWrite 0x02 1) :: [] := by decide

theorem witness_BufReadReturnsTheMaskedByte :
    (waiting [.transact (.bufRead .output 0)]).pending = .transact (.bufRead .output 0) :: [] := rfl

theorem witness_BufWriteStoresOneByte :
    BlockInv (waiting [.transact (.bufWrite .input 4095 1)]) ∧
    (waiting [.transact (.bufWrite .input 4095 1)]).pending = .transact (.bufWrite .input 4095 1) :: [] ∧
    4095 < (waiting []).params.capacity .input ∧ (waiting []).params.auxCap ≤ 256 := ⟨waiting_inv _, by decide⟩

theorem witness_EveryDefinedTransactionCompletes :
    PendingOk (waiting [.transact (.regRead 0xFC), .reset, commandWrite 0xFFFFFFFF]) := by
  unfold PendingOk; decide

theorem witness_ResetLeavesTheResetValues : (waiting [.reset]).pending = .reset :: [] := rfl

theorem witness_ResetStateMeetsInvariant :
    Params.wellFormed ⟨16, 16⟩ ∧ Params.wellFormed ⟨2 ^ 32 - 73, 2 ^ 32 - 1⟩ := by decide

theorem witness_StepKeepsInvariant :
    BlockInv (waiting [commandWrite 0x00000030]) ∧ ∃ t, step (waiting [commandWrite 0x00000030]) = .next t :=
  ⟨waiting_inv _, _, rfl⟩

theorem witness_ParametersNeverChange : ∃ t, step (waiting [.reset]) = .next t := ⟨_, rfl⟩

/-- A `LOADKEY` that succeeds changes `KEYV`; reset unbinds a key. -/
theorem witness_OnlyThreeEventsChangeTheKey :
    (∃ t, step { load k0f [] (rep 1 16) 0 with keyv := false, key := .zero, pending := [commandWrite 0x00000001] } =
      .next t ∧ t.keyv ≠ false ∧ t.fail = false) ∧
    (∃ t, step { load k0f [] [] 0 with pending := [commandWrite 0x00000003] } = .next t ∧ t.keyv ≠ true) ∧
    (∃ t, step { load k0f [] [] 0 with pending := [.reset] } = .next t ∧ t.keyv ≠ true) :=
  ⟨⟨_, rfl, by decide, rfl⟩, ⟨_, rfl, by decide⟩, ⟨_, rfl, by decide⟩⟩

theorem witness_OnlyResetClearsDone :
    ∃ t, step { State.reset with done := true, pending := [.reset] } = .next t ∧ t.done = false := ⟨_, rfl, rfl⟩

theorem witness_CommandsKeepTheirOperands : ∃ t, exec .nop (load k0f abc [] 0) = .next t := ⟨_, rfl⟩

theorem witness_OutOutsideTheResultIsKept :
    BlockInv (load k0f [1] [] 0) ∧
    (∃ t, exec .cbcdec (load k0f [1] [] 0) = .next t ∧ t.fail = true) ∧
    (∃ t, exec .nop (load k0f [1] [] 0) = .next t ∧ t.outLen.toNat ≤ 0) :=
  ⟨load_inv _ _ (by decide) (by decide), ⟨_, by rfl, by decide +kernel⟩, ⟨_, rfl, by decide⟩⟩

theorem witness_CommandsEndWithTheListedCodes : ∃ t, exec .loadkey (load k0f [] [] 0) = .next t ∧ t.err = 1 :=
  ⟨_, rfl, rfl⟩

theorem witness_FailureChangesSixRegistersOnly :
    (∃ t, command 0x00000004 State.reset = .next t ∧ t.fail = true) ∧
    (∃ t, command 0x00000001 State.reset = .next t ∧ t.fail = true) := ⟨⟨_, rfl, rfl⟩, ⟨_, rfl, rfl⟩⟩

theorem witness_BothDigestBitsMeanSuccessfulDecode : Instr.clear ≠ .nop ∧ ∃ t, exec .clear State.reset = .next t :=
  ⟨by decide, _, rfl⟩

theorem witness_RepeatedCommandChangesNothing :
    BlockInv (load k0f [] [] 0) ∧ ∃ t, command 0x00000002 (load k0f [] [] 0) = .next t :=
  ⟨load_inv _ _ (by decide) (by decide), _, rfl⟩

/-- Two states that agree on the operands and differ in what earlier commands left. -/
theorem witness_OutcomesDependOnOperandsOnly :
    SameOperands (load k0f [] [] 0) { load k0f [] [] 0 with done := true, result := 7, vfy := 1 } ∧
    BlockInv (load k0f [] [] 0) ∧ BlockInv { load k0f [] [] 0 with done := true, result := 7, vfy := 1 } ∧
    (∃ t, exec .clear (load k0f [] [] 0) = .next t) ∧
    (∃ t, exec .clear { load k0f [] [] 0 with done := true, result := 7, vfy := 1 } = .next t) := by
  have h := load_inv k0f (input := []) (aux := []) 0 (by decide) (by decide)
  exact ⟨⟨rfl, rfl, rfl, rfl, rfl, rfl, rfl, rfl⟩, h,
    { h with verified := by simp, fail_clears := fun hf => absurd hf (by decide) }, ⟨_, rfl⟩, ⟨_, rfl⟩⟩

theorem witness_KeyFlowsOnlyThroughCipherCommands :
    SameButKey { load k0f [] [] 0 with pending := [.transact (.regRead 0x08)] }
      { load .zero [] [] 0 with pending := [.transact (.regRead 0x08)] } ∧
    ¬ NextUsesKey { load k0f [] [] 0 with pending := [.transact (.regRead 0x08)] } ∧
    ∃ t, step { load k0f [] [] 0 with pending := [.transact (.regRead 0x08)] } = .next t :=
  ⟨rfl, fun ⟨_, _, _, hp, _⟩ => by simp [commandWrite] at hp, _, rfl⟩

/-- A length one above the capacity; and one at it. -/
theorem witness_LengthAboveCapacityFailsFirst :
    ¬ OperandsInRange .hash160 { State.reset with inLen := 4097 } ∧
    ¬ OperandsInRange .hotp { State.reset with auxLen := 257 } ∧
    OperandsInRange .kdig160 { State.reset with inLen := 4096, auxLen := 256 } := by decide

theorem witness_MissingKeyFailsSecond :
    OperandsInRange .cbcenc State.reset ∧ usesKey .cbcenc = true ∧ State.reset.keyv = false ∧
    OperandsInRange .cbcenc (load k0f [] [] 0) ∧ (load k0f [] [] 0).keyv = true ∧ usesKey .hash160 = false := by decide

theorem witness_LoadkeyBindsSixteenBytes :
    (load k0f [] (rep 1 16) 0).auxLen = 16 ∧ 16 ≤ (load k0f [] (rep 1 16) 0).params.auxCap ∧
    State.reset.auxLen.toNat ≤ State.reset.params.auxCap ∧ State.reset.auxLen ≠ 16 ∧
    State.reset.params.auxCap < (257 : Word).toNat := by decide

theorem witness_HashCommandsDigestTheInput :
    BlockInv (load k0f abc [] 0) ∧ (load k0f abc [] 0).inLen.toNat ≤ (load k0f abc [] 0).params.inCap ∧
    BlockInv { State.reset with inLen := 4097 } ∧ State.reset.params.inCap < (4097 : Word).toNat :=
  ⟨load_inv _ _ (by decide) (by decide), by decide, { waiting_inv [] with }, by decide⟩

theorem witness_KeyedDigestsAuthenticateTheInput :
    BlockInv { State.reset with inLen := 4096, auxLen := 256 } ∧ (256 : Word).toNat ≤ State.reset.params.auxCap ∧
    (4096 : Word).toNat ≤ State.reset.params.inCap ∧ State.reset.params.auxCap < (257 : Word).toNat ∧
    State.reset.params.inCap < (4097 : Word).toNat := ⟨{ waiting_inv [] with }, by decide⟩

/-- Secrets of no byte, of 64 bytes and of 65, on either side of the boundary of R162. -/
theorem witness_HmacRules :
    hmacKey hash160 [] = rep 0 64 ∧ hmacKey hash160 (rep 0x0b 64) = rep 0x0b 64 ∧
    hmacKey hash256 (rep 0x0b 64) = rep 0x0b 64 ∧
    hmacKey hash160 (rep 0x0b 65) = hash160 (rep 0x0b 65) ++ rep 0 44 ∧
    hmacKey hash256 (rep 0x0b 65) = hash256 (rep 0x0b 65) ++ rep 0 32 :=
  ⟨rfl, rfl, rfl, by simp [hmacKey, hash160_length], by simp [hmacKey, hash256_length]⟩

/-- A block of 64 bytes, and the first and the last round of each range. -/
theorem witness_Hash160FollowsItsRules :
    (rep 0 64).length = 64 ∧ 15 < 16 ∧ 16 ≤ 16 ∧ 79 < 80 ∧ 0 < (shaPad []).length / 64 := by decide

/-- A block of 64 bytes, and the first and the last round of each range. -/
theorem witness_Hash256FollowsItsRules :
    (rep 0 64).length = 64 ∧ 15 < 16 ∧ 16 ≤ 16 ∧ 63 < 64 ∧ 0 < (shaPad []).length / 64 := by decide

theorem witness_FixedResultSizes :
    ∃ t, exec .loadkey (load k0f [] (rep 1 16) 0) = .next t ∧ t.fail = false := ⟨_, rfl, rfl⟩

theorem witness_ShaPadFillsWholeBlocks :
    8 * ([] : List Byte).length < 2 ^ 64 ∧ 8 * (rep 0 55).length < 2 ^ 64 ∧ 8 * (rep 0 56).length < 2 ^ 64 := by decide

theorem witness_SubstitutionTables : (1 : Byte) ≠ 0 ∧ (255 : Byte) ≠ 0 := by decide

theorem witness_KeyScheduleRecurrence : 1 ≤ 9 ∧ 9 < 10 ∧ 4 ≤ 4 ∧ 4 < 44 ∧ 4 ≤ 43 ∧ 43 < 44 ∧ 10 ≤ 10 := by decide

theorem witness_InvMixColumnsUndoesMixColumns : 0 < 4 ∧ 3 < 4 := by decide

/-- The first and the last byte, row, column and round. -/
theorem witness_BlockCipherIsInvertible : 0 < 16 ∧ 15 < 16 ∧ 0 < 4 ∧ 3 < 4 ∧ 0 < 9 ∧ 8 < 9 ∧ 1 ≤ 9 ∧ 9 ≤ 9 := by decide

/-- Consistent padding of 16 bytes and of 1, and an inconsistent one (95_test_vectors.md section 2.3). -/
theorem witness_UnpadAcceptsExactlyConsistentPadding :
    (rep 0x10 16).length ≠ 0 ∧ (rep 0x10 16).length % 16 = 0 ∧ unpad (rep 0x10 16) = .ok [] ∧
    unpad (rep 0 15 ++ [1]) = .ok (rep 0 15) ∧ unpad (rep 0 16) = .error .padding ∧
    unpad (rep 0 15 ++ [0x11]) = .error .padding := by decide

/-- The last block of a plaintext of 16 bytes, a ciphertext of each kind of length, and the longest single block. -/
theorem witness_CipherModesRoundTrip :
    1 < (rep 0 16).length / 16 + 1 ∧ ([] : List Byte).length = 0 ∧ (rep 0 17).length % 16 ≠ 0 ∧
    (rep 0 32).length ≠ 0 ∧ (rep 0 32).length % 16 = 0 ∧ 1 < (rep 0 32).length / 16 ∧ (rep 0 15).length ≤ 15 := by decide

theorem witness_CbcErrorPropagation :
    0 < [Block.zero].length ∧ [Block.zero].length + 2 ≤ 3 ∧ 0 < [Block.zero, .zero].length ∧ Block.zero ≠ k0f := by
  decide

/-- Both operand checks, and a payload within the capacity under a bound key. -/
theorem witness_EncryptCommands :
    BlockInv (load k0f [] [] 0) ∧ (load k0f [] [] 0).inLen.toNat ≤ (load k0f [] [] 0).params.inCap ∧
    (load k0f [] [] 0).keyv = true ∧ State.reset.params.inCap < (4097 : Word).toNat ∧ State.reset.keyv = false :=
  ⟨load_inv _ _ (by decide) (by decide), by decide⟩

/-- The ciphertexts of 95_test_vectors.md section 2.5: consistent and inconsistent padding, in both modes. -/
theorem witness_DecryptCommands :
    let c1 := hex 16 0x7346139595c0b41e497bbde365f42d0a
    let c2 := hex 16 0xc6a13b37878f5b826f4f8162a1c8d879
    c1.length % 16 = 0 ∧
    unpad (bytesOf (cbcDecryptBlocks k0f zeroIv (blocksOf c1))) = .ok (rep 0 15) ∧
    unpad (bytesOf (cbcDecryptBlocks k0f zeroIv (blocksOf c2))) = .error .padding ∧
    unpad (bytesOf ((blocksOf c1).map (aesDecryptBlock k0f))) = .ok (rep 0 15) ∧
    unpad (bytesOf ((blocksOf c2).map (aesDecryptBlock k0f))) = .error .padding := by decide +kernel

theorem witness_DecryptCommands_operands :
    BlockInv (load k0f (hex 16 0x7346139595c0b41e497bbde365f42d0a) [] 0) ∧
    inStar (load k0f (hex 16 0x7346139595c0b41e497bbde365f42d0a) [] 0) = hex 16 0x7346139595c0b41e497bbde365f42d0a ∧
    (load k0f (hex 16 0x7346139595c0b41e497bbde365f42d0a) [] 0).inLen = 16 :=
  ⟨load_inv _ _ (by decide) (by decide), load_inStar _ _ (by decide), by decide⟩

theorem witness_CiphertextLengthIsCheckedFirst :
    (load k0f [] [] 0).inLen = 0 ∧ (load k0f (rep 0 17) [] 0).inLen.toNat % 16 ≠ 0 ∧
    (load k0f (rep 0 17) [] 0).inLen.toNat ≤ (load k0f (rep 0 17) [] 0).params.inCap ∧
    (load k0f (rep 0 17) [] 0).keyv = true := by decide

theorem witness_CencodeBuildsTheContainer :
    BlockInv (load k0f abc [] 0) ∧ (load k0f abc [] 0).inLen.toNat ≤ (load k0f abc [] 0).params.inCap ∧
    (load k0f abc [] 0).keyv = true := ⟨load_inv _ _ (by decide) (by decide), by decide⟩

/-- 55 bytes; 56 bytes with a length field of 1; 56 bytes with a length field of 0. -/
theorem witness_ParseChecksBoundsFirst :
    (rep 0 55).length < 56 ∧ ([1] ++ rep 0 55).length < 56 + (firstWordLE ([1] ++ rep 0 55)).toNat ∧
    56 + (firstWordLE (rep 0 56)).toNat ≤ (rep 0 56).length := by decide

/-- What `CDECODE` finds in a ciphertext: which stored digests match. -/
def found (k : Block) (c : List Byte) : Option (Bool × Bool) :=
  match cbcDecrypt k c with
  | .error _ => none
  | .ok q =>
    match parseContainer q with
    | .error _ => none
    | .ok p => some (p.d160 == hash160 p.payload, p.d256 == hash256 p.payload)

/-- The four rows of 95_test_vectors.md: both match (6.1), only the second (6.2, first row), only the first (second
row), neither (third row). -/
theorem witness_CdecodeReleasesOnlyVerifiedPayload_both :
    found k0f (hex 64 0x30eb73df479eaf5159f14d21bad8255d12fb9233bb54cafe3e967bd0620a94caf6144797ba36ce1fb3ae3d6b0dc9b407c8c4486b81f398a4bac76e6bbbf5d9cf) = some (true, true) := by
  decide +kernel
theorem witness_CdecodeReleasesOnlyVerifiedPayload_second :
    found k0f (hex 64 0x9d165ce9cf35197131e61552fa12ff5977abeb394009ad82e04529e9648eb73daf2b9268b241a35db0866f413888bac44c626875c5e57bd1dfd8704681588515) = some (false, true) := by
  decide +kernel
theorem witness_CdecodeReleasesOnlyVerifiedPayload_first :
    found k0f (hex 64 0x30eb73df479eaf5159f14d21bad8255d12fb9233bb54cafe3e967bd0620a94caf6144797ba36ce1fb3ae3d6b0dc9b407bdeb4315cf567c80d8ec370ae9fe4d50) = some (true, false) := by
  decide +kernel
theorem witness_CdecodeReleasesOnlyVerifiedPayload_neither :
    found k0f (hex 64 0x30eb73df479eaf5159f14d21bad8255d304dab04c3f63cfb2650ae8a1d09d01a43ba3de86e650eca2940457c647c23f4b4fab76c1a4e12148570ec312cf40c5d) = some (false, false) := by
  decide +kernel
/-- The empty plaintext is truncated (6.2), sixteen zero bytes are no padding (2.5), one byte is no ciphertext. -/
theorem witness_CdecodeReleasesOnlyVerifiedPayload_errors :
    cbcDecrypt k0f (hex 16 0x954f64f2e4e86e9eee82d20216684899) = .ok [] ∧
    parseContainer [] = .error .truncatedContainer ∧
    cbcDecrypt k0f (hex 16 0xc6a13b37878f5b826f4f8162a1c8d879) = .error .padding ∧
    cbcDecrypt k0f [1] = .error .inputLength := by decide +kernel
theorem witness_CdecodeReleasesOnlyVerifiedPayload_operands (c : List Byte) (h : c.length ≤ 4096) :
    BlockInv (load k0f c [] 0) ∧ inStar (load k0f c [] 0) = c ∧ (load k0f c [] 0).key = k0f ∧
    (load k0f c [] 0).keyv = true := ⟨load_inv _ _ h (by decide), load_inStar _ _ h, rfl, rfl⟩

/-- Hand-packed containers of the empty payload, one stored digest all zero. -/
theorem witness_EachDigestAloneStopsDecoding :
    let c1 := cbcEncrypt k0f (packWith (rep 0 20) [] (hash256 []))
    let c2 := cbcEncrypt k0f (packWith (hash160 []) [] (rep 0 32))
    BlockInv (load k0f c1 [] 0) ∧ inStar (load k0f c1 [] 0) = c1 ∧ BlockInv (load k0f c2 [] 0) ∧
    inStar (load k0f c2 [] 0) = c2 ∧ rep 0 20 ≠ hash160 [] ∧ rep 0 32 ≠ hash256 [] ∧
    ([] : List Byte).length < 2 ^ 32 := by
  have h1 : (cbcEncrypt k0f (packWith (rep 0 20) [] (hash256 []))).length ≤ 4096 := by
    rw [cbcEncrypt_length]; simp [packWith, littleEndian, hash256_length]
  have h2 : (cbcEncrypt k0f (packWith (hash160 []) [] (rep 0 32))).length ≤ 4096 := by
    rw [cbcEncrypt_length]; simp [packWith, littleEndian, hash160_length]
  exact ⟨load_inv _ _ h1 (by decide), load_inStar _ _ h1, load_inv _ _ h2 (by decide), load_inStar _ _ h2,
    by decide +kernel⟩

/-- The longest payload whose container fits `IN`. -/
theorem witness_ContainerRoundTripOnTheBlock :
    BlockInv { load k0f [] [] 0 with inLen := 4024 } ∧ (load k0f [] [] 0).keyv = true ∧
    (4024 : Word).toNat + 72 ≤ (load k0f [] [] 0).params.inCap ∧ abc.length < 2 ^ 32 :=
  ⟨{ load_inv k0f (input := []) (aux := []) 0 (by decide) (by decide) with }, by decide⟩

theorem witness_HotpReturnsTheCode :
    (256 : Word).toNat ≤ State.reset.params.auxCap ∧ State.reset.params.auxCap < (257 : Word).toNat := by decide

theorem witness_ScriptLinesLoadOperands :
    BlockInv State.reset ∧ (rep 0 4096).length ≤ State.reset.params.inCap ∧
    (rep 0 256).length ≤ State.reset.params.auxCap ∧ (rep 0 16).length = 16 :=
  ⟨waiting_inv [], by rw [rep_length]; decide, by rw [rep_length]; decide, rfl⟩

end Sys2Proof.Tests
end

section
/-! PROOF. `OUT_LEN` after the commands whose result has a fixed size (R7, R114, R264). -/

namespace Sys2Proof.Machine

/-- The one way a command other than `NOP` ends with `FAIL = 0`: its checks passed, and its body gave the result that
the completion stores (R99, R264). -/
theorem exec_succeeded {i : Instr} {s t : State} (hn : i ≠ .nop) (h : exec i s = .next t) (hf : t.fail = false) :
    OperandsInRange i s ∧ (usesKey i = true → s.keyv = true) ∧
      ∃ r, bodyOf i s = .ok r ∧ t = (effectOf i s).complete r := by
  rcases exec_cases i s with ⟨hnop, _⟩ | ⟨_, he⟩ | ⟨_, _, _, he⟩ | ⟨_, hr, hk, ⟨_, _, he⟩ | ⟨r, hb, he⟩⟩
  case inl => exact absurd hnop hn
  case inr.inr.inr.inr =>
    rw [he] at h
    cases h
    exact ⟨hr, hk, r, hb, rfl⟩
  all_goals
    rw [he] at h
    cases h
    simp at hf

/-- After a success `OUT_LEN` is the length of the data result, when every result of the command has that length. -/
theorem outLen_of_succeeded {i : Instr} {s t : State} {n : Nat} (hn : i ≠ .nop) (h : exec i s = .next t)
    (hf : t.fail = false) (hlen : ∀ r, bodyOf i s = .ok r → r.data.length = n) : t.outLen = BitVec.ofNat 32 n := by
  obtain ⟨_, _, r, hb, rfl⟩ := exec_succeeded hn h hf
  rw [State.complete_outLen, hlen r hb]

/-- The 20-byte digests, plain and keyed (R136, R165). -/
theorem bodyOf_digest160_length {i : Instr} {s : State} {r : Result} (hi : i = .hash160 ∨ i = .kdig160)
    (h : bodyOf i s = .ok r) : r.data.length = 20 := by
  rcases hi with rfl | rfl <;> cases h
  · exact hash160_length _
  · exact hmac_hash160_length _ _

/-- The 32-byte digests, plain and keyed (R142, R165). -/
theorem bodyOf_digest256_length {i : Instr} {s : State} {r : Result} (hi : i = .hash256 ∨ i = .kdig256)
    (h : bodyOf i s = .ok r) : r.data.length = 32 := by
  rcases hi with rfl | rfl <;> cases h
  · exact hash256_length _
  · exact hmac_hash256_length _ _

/-- The system commands have no data result (R114), and the code of `HOTP` is its scalar result (R247). -/
theorem bodyOf_no_data_length {i : Instr} {s : State} {r : Result}
    (hi : i = .loadkey ∨ i = .clear ∨ i = .zeroize ∨ i = .hotp) (h : bodyOf i s = .ok r) : r.data.length = 0 := by
  rcases hi with rfl | rfl | rfl | rfl
  case inl =>
    simp only [bodyOf] at h
    split at h <;> cases h
    rfl
  all_goals
    cases h
    rfl

/-- Settles O36: a success stores the body's result, whose length is fixed for each of these commands. -/
theorem fixedResultSizes : Obligations.FixedResultSizes := by
  unfold Obligations.FixedResultSizes
  intro i s t h hf
  by_cases hn : i = .nop
  case pos => simp [hn]
  exact ⟨fun hi => outLen_of_succeeded hn h hf fun _ => bodyOf_digest160_length hi,
    fun hi => outLen_of_succeeded hn h hf fun _ => bodyOf_digest256_length hi,
    fun hi => outLen_of_succeeded hn h hf fun _ => bodyOf_no_data_length hi⟩

end Sys2Proof.Machine
end

section
/-! PROOF. The decoder takes a word apart into its three fields (R90), and a command's word is the one its fields
make. -/

namespace Sys2Proof

/-- The unit and function numbers that select a command are that command's own (R92). -/
theorem fieldsOf_of_decodeUnit {u f : Nat} {i : Instr} (h : decodeUnit u f = .ok i) :
    fieldsOf i = (BitVec.ofNat 4 u, BitVec.ofNat 4 f) := by
  unfold decodeUnit at h
  split at h
  case h_1 => unfold decodeSys at h; split at h <;> cases h <;> rfl
  case h_2 => unfold decodeDig at h; split at h <;> cases h <;> rfl
  case h_3 => unfold decodeCip at h; split at h <;> cases h <;> rfl
  case h_4 => unfold decodeCod at h; split at h <;> cases h <;> rfl
  case h_5 => unfold decodeOtp at h; split at h <;> cases h; rfl
  case h_6 => cases h

/-- A word is its three fields, one after another (R90). -/
theorem zeroField_append_unitField_append_fnField (w : Word) : zeroField w ++ unitField w ++ fnField w = w := by
  apply BitVec.eq_of_toNat_eq
  rw [BitVec.toNat_append, BitVec.toNat_append, ← Nat.shiftLeft_add_eq_or_of_lt (unitField w).isLt,
    ← Nat.shiftLeft_add_eq_or_of_lt (fnField w).isLt]
  simp only [zeroField, unitField, fnField, BitVec.extractLsb'_toNat, Nat.shiftLeft_eq, Nat.shiftRight_eq_div_pow]
  omega

/-- A word decodes to a command only when it is the command's word (R93). -/
theorem eq_encode_of_decode {w : Word} {i : Instr} (h : decode w = .ok i) : w = encode i := by
  unfold decode at h
  split at h
  case isTrue hz =>
    have hf : fieldsOf i = (unitField w, fnField w) := by simpa using fieldsOf_of_decodeUnit h
    calc w = zeroField w ++ unitField w ++ fnField w := (zeroField_append_unitField_append_fnField w).symm
      _ = encode i := by rw [hz, encode, hf]
  case isFalse => cases h

end Sys2Proof
end

section
/-! PROOF. A step by its event, as equations: what each host event waiting makes of the state (R62 to R67, R300). -/

namespace Sys2Proof.Machine

section

variable {s : State} {rest : List HostEvent}

theorem step_reset (h : s.pending = .reset :: rest) : step s = .next (State.resetAgain { s with pending := rest }) := by
  simp only [step, takeEvent, h, deliver]

theorem step_transact {u : Transaction} (h : s.pending = .transact u :: rest) (hw : u.wellFormed = true) :
    step s = perform u { s with pending := rest } := by
  simp only [step, takeEvent, h, deliver, transact, if_pos hw]

/-- Neither a register nor a buffer byte reads from the list of events to come. -/
theorem step_regRead {off : Nat} (h : s.pending = .transact (.regRead off) :: rest)
    (hw : registerOffsetOk off = true) :
    step s = .next (State.reply { s with pending := rest } (.word (regRead s off))) := by
  rw [step_transact h hw]
  rfl

theorem step_bufRead {space : Space} {i : Nat} (h : s.pending = .transact (.bufRead space i) :: rest) :
    step s = .next (State.reply { s with pending := rest } (.byte (s.bufRead space i))) := by
  rw [step_transact h rfl]
  cases space <;> rfl

theorem step_bufWrite {space : Space} {i : Nat} {b : Byte} (h : s.pending = .transact (.bufWrite space i b) :: rest) :
    step s = .next (State.bufWrite { s with pending := rest } space i b) :=
  step_transact h rfl

/-- A write to a register other than `CMD` stores what the register takes (R63). -/
theorem step_regWrite {off : Nat} {v : Word} {r : Reg} (h : s.pending = .transact (.regWrite off v) :: rest)
    (hw : registerOffsetOk off = true) (hr : regAt off = some r) (hc : r ≠ .cmd) :
    step s = .next (writeReg { s with pending := rest } v r) := by
  rw [step_transact h hw]
  simp only [perform, regWrite, hr]

/-- A write to an offset without a register does nothing (R63). -/
theorem step_regWrite_none {off : Nat} {v : Word} (h : s.pending = .transact (.regWrite off v) :: rest)
    (hw : registerOffsetOk off = true) (hr : regAt off = none) : step s = .next { s with pending := rest } := by
  rw [step_transact h hw]
  simp only [perform, regWrite, hr]

end

/-- Settles O6: a waiting `CMD` write runs `command`, which runs what the word decodes to. -/
theorem stepRunsTheDecodedCommand : Obligations.StepRunsTheDecodedCommand := by
  unfold Obligations.StepRunsTheDecodedCommand
  intro s w i rest hp hd
  rw [step_commandWrite hp, command, hd]

/-- Settles O14: the step is `State.resetAgain`, whose fields are the reset values. -/
theorem resetLeavesTheResetValues : Obligations.ResetLeavesTheResetValues := by
  unfold Obligations.ResetLeavesTheResetValues
  intro s rest hp
  refine ⟨_, step_reset hp, ?_⟩
  simp [State.bufRead, regRead, regAt, readReg, Config.idWord, statusWord, Params.outCap]

end Sys2Proof.Machine
end

section
/-! PROOF. The register space (R22, R63): which register stands at an offset, what it reads as, what it takes. -/

namespace Sys2Proof.Machine

open Sys2Proof.Claims

@[simp] theorem regAt_offset (r : Reg) : regAt r.offset = some r := by cases r <;> rfl

theorem eq_offset_of_regAt {off : Nat} {r : Reg} (h : regAt off = some r) : off = r.offset := by
  unfold regAt at h
  split at h <;> cases h <;> rfl

/-- The fourteen registers fill the offsets below 0x38 (R22). -/
theorem le_of_regAt_eq_none {off : Nat} (h4 : off % 4 = 0) (h : regAt off = none) : 0x38 ≤ off := by
  have hlow : ∀ k < 14, regAt (4 * k) ≠ none := by decide
  by_contra hlt
  exact hlow (off / 4) (by omega) (by rwa [show 4 * (off / 4) = off by omega])

theorem registerOffsetOk_of_mod {off : Nat} (h4 : off % 4 = 0) (hle : off ≤ 0xFC) : registerOffsetOk off = true := by
  simp [registerOffsetOk, h4, hle]

theorem statusWord_eq_ofNat (s : State) :
    statusWord s = BitVec.ofNat 32 (4 * s.keyv.toNat + 2 * s.fail.toNat + s.done.toNat) := by
  unfold statusWord
  cases s.keyv <;> cases s.fail <;> cases s.done <;> rfl

theorem lowHalf_eq_ofNat (c : BitVec 64) : c.extractLsb' 0 32 = BitVec.ofNat 32 (c.toNat % 2 ^ 32) := by
  apply BitVec.eq_of_toNat_eq
  simp

theorem highHalf_eq_ofNat (c : BitVec 64) : c.extractLsb' 32 32 = BitVec.ofNat 32 (c.toNat / 2 ^ 32) := by
  apply BitVec.eq_of_toNat_eq
  simp [Nat.shiftRight_eq_div_pow]

/-- Two halves as one 64-bit number: the high one counts `2 ^ 32` (R31). -/
theorem halves_eq_ofNat (hi lo : Word) :
    (hi ++ lo : BitVec (32 + 32)) = BitVec.ofNat 64 (2 ^ 32 * hi.toNat + lo.toNat) := by
  apply BitVec.eq_of_toNat_eq
  rw [BitVec.toNat_append, ← Nat.shiftLeft_add_eq_or_of_lt lo.isLt, Nat.shiftLeft_eq, BitVec.toNat_ofNat]
  omega

/-- Each register reads as its row of the table (R22). -/
theorem readReg_mem_registerTable (s : State) (r : Reg) : (r.offset, readReg s r) ∈ registerTable s := by
  cases r
  case status => simp [registerTable, Reg.offset, readReg, statusWord_eq_ofNat]
  case ctrLo => simp [registerTable, Reg.offset, readReg, lowHalf_eq_ofNat]
  case ctrHi => simp [registerTable, Reg.offset, readReg, highHalf_eq_ofNat]
  all_goals simp [registerTable, Reg.offset, readReg, Config.idWord, errWord, vfyWord, Params.outCap]

/-- Settles O8: an offset has a register, which reads as its row of the table, or lies above them all and reads 0. -/
theorem regReadReturnsTheRegister : Obligations.RegReadReturnsTheRegister := by
  unfold Obligations.RegReadReturnsTheRegister
  intro s off rest hp h4 hle
  refine ⟨regRead s off, ?_, step_regRead hp (registerOffsetOk_of_mod h4 hle)⟩
  cases hr : regAt off with
  | some r =>
    obtain rfl := eq_offset_of_regAt hr
    exact .inl (by simpa [regRead] using readReg_mem_registerTable s r)
  | none => exact .inr ⟨le_of_regAt_eq_none h4 hr, by simp [regRead, hr]⟩

/-- Settles O9: by the register at the offset; a write to half of `CTR` puts the new half beside the old other one. -/
theorem regWriteStoresOnlyRwRegisters : Obligations.RegWriteStoresOnlyRwRegisters := by
  unfold Obligations.RegWriteStoresOnlyRwRegisters
  intro s off v rest hp h4 hle hcmd
  have hok := registerOffsetOk_of_mod h4 hle
  cases hr : regAt off with
  | none =>
    have hoff := le_of_regAt_eq_none h4 hr
    rw [step_regWrite_none hp hok hr, if_neg (by omega), if_neg (by omega), if_neg (by omega), if_neg (by omega)]
  | some r =>
    obtain rfl := eq_offset_of_regAt hr
    rw [step_regWrite hp hok hr (by rintro rfl; exact hcmd rfl)]
    cases r
    case ctrLo =>
      have hhi : (s.ctr.extractLsb' 32 32).toNat = s.ctr.toNat / 2 ^ 32 := by
        rw [highHalf_eq_ofNat, BitVec.toNat_ofNat]
        omega
      simp [Reg.offset, writeReg, halves_eq_ofNat, hhi]
    case ctrHi => simp [Reg.offset, writeReg, halves_eq_ofNat]
    all_goals rfl

end Sys2Proof.Machine
end

section
/-! PROOF. What a command can do to the state (R264 to R267), in three endings, and the rules that follow for every one:
what it keeps (R30, R34, R39) and when both digest bits are set (R32). -/

namespace Sys2Proof.Machine

open Sys2Proof.Claims

/-- The three endings of a command: `NOP`'s, a failing completion that never sets both digest bits, and the successful
completion with the body's result. -/
theorem exec_endings {i : Instr} {s t : State} (h : exec i s = .next t) :
    (i = .nop ∧ t = s.acknowledge) ∨ (∃ f : Failure, f.vfy ≠ 3 ∧ t = s.raise f) ∨
      (i ≠ .nop ∧ OperandsInRange i s ∧ ∃ r, bodyOf i s = .ok r ∧ t = (effectOf i s).complete r) := by
  rcases exec_cases i s with ⟨hn, he⟩ | ⟨_, he⟩ | ⟨_, _, _, he⟩ | ⟨hn, hr, _, ⟨f, hb, he⟩ | ⟨r, hb, he⟩⟩ <;>
    rw [he] at h <;> cases h
  · exact .inl ⟨hn, rfl⟩
  · exact .inr (.inl ⟨_, by decide, rfl⟩)
  · exact .inr (.inl ⟨_, by decide, rfl⟩)
  · obtain ⟨_, hv, _⟩ := bodyOf_error hb
    exact .inr (.inl ⟨f, hv, rfl⟩)
  · exact .inr (.inr ⟨hn, hr, r, hb, rfl⟩)

/-- `LOADKEY`, `CLEAR` and `ZEROIZE` are the commands with an effect besides their completion (R39). -/
theorem effectOf_eq_self {i : Instr} (s : State) (hl : i ≠ .loadkey) (hc : i ≠ .clear) (hz : i ≠ .zeroize) :
    effectOf i s = s := by
  cases i
  case loadkey => exact absurd rfl hl
  case clear => exact absurd rfl hc
  case zeroize => exact absurd rfl hz
  all_goals rfl

/-! ### Operands -/

theorem effectOf_keepsOperands {i : Instr} (s : State) (hc : i ≠ .clear) (hz : i ≠ .zeroize) :
    KeepsOperands s (effectOf i s) := by
  by_cases hl : i = .loadkey
  · subst hl; constructor <;> rfl
  · rw [effectOf_eq_self s hl hc hz]; constructor <;> rfl

/-- Settles O20: no completion writes an operand, and of the effects before it only those of `CLEAR` and `ZEROIZE` do. -/
theorem commandsKeepTheirOperands : Obligations.CommandsKeepTheirOperands := by
  unfold Obligations.CommandsKeepTheirOperands
  intro i s t hc hz h
  rcases exec_endings h with ⟨_, rfl⟩ | ⟨f, _, rfl⟩ | ⟨_, _, r, _, rfl⟩
  · constructor <;> rfl
  · constructor <;> rfl
  · exact { effectOf_keepsOperands s hc hz with }

/-! ### The key -/

theorem effectOf_keepsKey {i : Instr} (s : State) (hl : i ≠ .loadkey) (hz : i ≠ .zeroize) : KeepsKey s (effectOf i s) := by
  by_cases hc : i = .clear
  · subst hc; constructor <;> rfl
  · rw [effectOf_eq_self s hl hc hz]; constructor <;> rfl

/-- Only a `LOADKEY` that succeeds and a `ZEROIZE` touch the key (R30). -/
theorem exec_keepsKey {i : Instr} {s t : State} (h : exec i s = .next t) :
    KeepsKey s t ∨ (i = .loadkey ∧ t.fail = false) ∨ i = .zeroize := by
  rcases exec_endings h with ⟨_, rfl⟩ | ⟨f, _, rfl⟩ | ⟨_, _, r, _, rfl⟩
  · exact .inl ⟨rfl, rfl⟩
  · exact .inl ⟨rfl, rfl⟩
  · by_cases hl : i = .loadkey
    · exact .inr (.inl ⟨hl, rfl⟩)
    by_cases hz : i = .zeroize
    · exact .inr (.inr hz)
    exact .inl { effectOf_keepsKey s hl hz with }

/-- Settles O18: of the events only reset and a command touch the key, and a command only as `exec_keepsKey` says. -/
theorem onlyThreeEventsChangeTheKey : Obligations.OnlyThreeEventsChangeTheKey := by
  unfold Obligations.OnlyThreeEventsChangeTheKey
  intro s t h hne
  have hkept : ¬ (t.key = s.key ∧ t.keyv = s.keyv) := by tauto
  rcases step_cases h with ⟨_, rfl⟩ | ⟨rest, hp, _⟩ | ⟨_, _, _, _, rfl⟩ | ⟨_, _, _, _, rfl⟩ | ⟨_, _, _, _, _, rfl⟩ |
    ⟨w, rest, hp, hc⟩ | ⟨_, _, _, _, _, ⟨_, _, _, rfl⟩ | ⟨_, rfl⟩⟩
  case inr.inl => exact ⟨_, _, hp, .inr (.inr rfl)⟩
  case inr.inr.inr.inr.inr.inl =>
    refine ⟨_, _, hp, ?_⟩
    rcases command_cases hc with ⟨i, hd, he⟩ | ⟨_, _, rfl⟩
    · obtain rfl := eq_encode_of_decode hd
      rcases exec_keepsKey he with ⟨hk, hv⟩ | ⟨rfl, hf⟩ | rfl
      · exact absurd ⟨hk, hv⟩ hkept
      · exact .inl ⟨rfl, hf⟩
      · exact .inr (.inl rfl)
    · exact absurd ⟨rfl, rfl⟩ hkept
  all_goals exact absurd (by simp) hkept

/-! ### `OUT` beyond the result -/

theorem effectOf_output {i : Instr} (s : State) (hc : i ≠ .clear) (hz : i ≠ .zeroize) :
    (effectOf i s).output = s.output := by
  by_cases hl : i = .loadkey
  · subst hl; rfl
  · rw [effectOf_eq_self s hl hc hz]

/-- Settles O21: only a successful completion stores in `OUT`, and it stores the result's bytes from index 0 on. -/
theorem outOutsideTheResultIsKept : Obligations.OutOutsideTheResultIsKept := by
  unfold Obligations.OutOutsideTheResultIsKept
  intro i s t j hinv hc hz h hj
  rcases exec_endings h with ⟨_, rfl⟩ | ⟨f, _, rfl⟩ | ⟨_, hr, r, hb, rfl⟩
  · rfl
  · rfl
  · obtain ⟨_, hlt, _⟩ := bodyOf_ok hinv.params hr hb
    have hlen : r.data.length ≤ j := by
      rcases hj with hf | hj
      · cases hf
      · rwa [State.complete_outLen, BitVec.toNat_ofNat, Nat.mod_eq_of_lt hlt] at hj
    rw [State.complete_output, effectOf_output s hc hz, Memory.read_writeRange_outside _ (by omega)]

/-! ### The digest bits -/

theorem dataOrRaise_vfy {d : Except CmdError (List Byte)} {r : Result} (h : dataOrRaise d = .ok r) : r.vfy = 0 := by
  cases d <;> cases h
  rfl

theorem decodeContainer_vfy {k : Block} {c : List Byte} {r : Result} (h : decodeContainer k c = .ok r) : r.vfy = 3 := by
  rcases decodeContainer_cases k c with ⟨_, _, hd⟩ | ⟨_, _, _, hd⟩ | ⟨_, _, _, hd⟩ <;> rw [hd] at h <;> cases h
  rfl

/-- Of the results a body ends with, only that of `CDECODE` has digest bits, and it has both (R230, R264); for states of
any parameters. -/
theorem bodyOf_vfy {i : Instr} {s : State} {r : Result} (h : bodyOf i s = .ok r) :
    r.vfy = if i = .cdecode then 3 else 0 := by
  cases i
  case cdecode => exact decodeContainer_vfy h
  case cbcdec | ecbdec => exact dataOrRaise_vfy h
  case loadkey =>
    simp only [bodyOf] at h
    split at h <;> cases h
    rfl
  all_goals
    cases h
    rfl

/-- Settles O24: a failure never sets both bits, and a success has the bits of its result. -/
theorem bothDigestBitsMeanSuccessfulDecode : Obligations.BothDigestBitsMeanSuccessfulDecode := by
  unfold Obligations.BothDigestBitsMeanSuccessfulDecode
  intro i s t hn h
  rcases exec_endings h with ⟨hnop, _⟩ | ⟨f, hf, rfl⟩ | ⟨_, _, r, hb, rfl⟩
  · exact absurd hnop hn
  · simpa using hf
  · by_cases hi : i = .cdecode <;> simp [bodyOf_vfy hb, hi]

end Sys2Proof.Machine
end

section
/-! PROOF. The parameters are constants of the block (R6, R33). -/

namespace Sys2Proof.Machine

theorem command_params {w : Word} {s t : State} (h : command w s = .next t) : t.params = s.params := by
  rcases command_cases h with ⟨i, _, he⟩ | ⟨_, _, rfl⟩
  · exact (exec_outside he).1
  · rfl

/-- Settles O17: no event writes the parameters. -/
theorem parametersNeverChange : Obligations.ParametersNeverChange := by
  unfold Obligations.ParametersNeverChange
  refine ⟨fun s => ⟨rfl, rfl, rfl⟩, fun s t h => ?_⟩
  rcases step_cases h with ⟨_, rfl⟩ | ⟨_, _, rfl⟩ | ⟨_, _, _, _, rfl⟩ | ⟨_, _, _, _, rfl⟩ | ⟨_, _, _, _, _, rfl⟩ |
    ⟨_, _, _, hc⟩ | ⟨_, _, _, _, _, ⟨_, _, _, rfl⟩ | ⟨_, rfl⟩⟩
  case inr.inr.inr.inr.inr.inl => simpa using command_params hc
  all_goals simp

end Sys2Proof.Machine
end

section
/-! PROOF. The invariants of R41: the reset states meet them, and every update of the state keeps them. -/

namespace Sys2Proof.Machine

theorem blockInv_resetOf {p : Params} (draw : Nat) (h : p.wellFormed) : BlockInv (State.resetOf p draw) where
  params := h
  outLen_le := Nat.zero_le _
  key_zero _ := rfl
  fail_iff := by simp [State.resetOf]
  fail_clears _ := ⟨rfl, rfl⟩
  verified _ := rfl
  err_code := by simp [State.resetOf, errCodes]
  input_wf := ⟨Memory.unwritten_wf _ _, Memory.unwritten_within _ _ _⟩
  aux_wf := ⟨Memory.unwritten_wf _ _, Memory.unwritten_within _ _ _⟩
  output_wf := ⟨Memory.unwritten_wf _ _, Memory.unwritten_within _ _ _⟩

/-- Settles O15: R6's defaults are allowed parameters, so the second part follows from the first. -/
theorem resetStateMeetsInvariant : Obligations.ResetStateMeetsInvariant := by
  unfold Obligations.ResetStateMeetsInvariant
  exact ⟨fun _ draw h => blockInv_resetOf draw h, blockInv_resetOf 0 (by decide)⟩

section

variable {s : State}

theorem blockInv_pending (h : BlockInv s) (rest : List HostEvent) : BlockInv { s with pending := rest } := { h with }

theorem blockInv_reply (h : BlockInv s) (r : Reply) : BlockInv (s.reply r) := { h with }

theorem blockInv_resetAgain (h : BlockInv s) : BlockInv s.resetAgain :=
  { blockInv_resetOf (s.resets + 1) h.params with }

theorem blockInv_bufWrite (h : BlockInv s) (space : Space) (i : Nat) (b : Byte) : BlockInv (s.bufWrite space i b) := by
  cases space <;> simp only [State.bufWrite]
  case input =>
    split
    case isTrue hi =>
      exact { h with input_wf := ⟨Memory.write_wf h.input_wf.1 i b, Memory.write_within h.input_wf.2 b hi⟩ }
    case isFalse => exact h
  case aux =>
    split
    case isTrue hi => exact { h with aux_wf := ⟨Memory.write_wf h.aux_wf.1 i b, Memory.write_within h.aux_wf.2 b hi⟩ }
    case isFalse => exact h
  case output => exact h

/-- The registers that take a host's value are none of those the invariants speak of. -/
theorem blockInv_writeReg (h : BlockInv s) (v : Word) (r : Reg) : BlockInv (writeReg s v r) := by
  cases r <;> exact { h with }

theorem blockInv_acknowledge (h : BlockInv s) : BlockInv s.acknowledge :=
  { h with
    fail_iff := by simp
    fail_clears := by simp
    verified := by simp
    err_code := by simp [errCodes] }

theorem blockInv_raise (h : BlockInv s) {f : Failure} (hv : f.vfy ≠ 3) : BlockInv (s.raise f) :=
  { h with
    outLen_le := by simp
    fail_iff := by simpa using CmdError.code_ne_zero f.error
    fail_clears := by simp
    verified := fun h3 => absurd h3 hv
    err_code := CmdError.code_mem f.error }

theorem blockInv_complete (h : BlockInv s) {r : Result} (hr : r.data.length ≤ s.params.outCap) :
    BlockInv (s.complete r) :=
  { h with
    outLen_le := (Nat.mod_le _ _).trans hr
    fail_iff := by simp
    fail_clears := by simp
    verified := by simp
    err_code := by simp [errCodes]
    output_wf :=
      ⟨Memory.writeRange_wf h.output_wf.1 0 r.data, Memory.writeRange_within h.output_wf.2 (by simpa using hr)⟩ }

theorem blockInv_bindKey (h : BlockInv s) (k : Block) : BlockInv (s.bindKey k) := { h with key_zero := by simp }

theorem blockInv_unbindKey (h : BlockInv s) : BlockInv s.unbindKey := { h with key_zero := by simp }

theorem blockInv_erase (h : BlockInv s) : BlockInv s.erase :=
  { h with
    input_wf := ⟨Memory.erased_wf, Memory.erased_within _⟩
    aux_wf := ⟨Memory.erased_wf, Memory.erased_within _⟩
    output_wf := ⟨Memory.erased_wf, Memory.erased_within _⟩ }

theorem blockInv_effectOf (h : BlockInv s) (i : Instr) : BlockInv (effectOf i s) := by
  cases i
  case loadkey => exact blockInv_bindKey h _
  case clear => exact blockInv_erase h
  case zeroize => exact blockInv_unbindKey (blockInv_erase h)
  all_goals exact h

theorem effectOf_params (i : Instr) (s : State) : (effectOf i s).params = s.params := by cases i <;> rfl

theorem blockInv_exec {i : Instr} {t : State} (hs : BlockInv s) (h : exec i s = .next t) : BlockInv t := by
  rcases exec_endings h with ⟨_, rfl⟩ | ⟨f, hv, rfl⟩ | ⟨_, hr, r, hb, rfl⟩
  · exact blockInv_acknowledge hs
  · exact blockInv_raise hs hv
  · obtain ⟨hlen, _, _⟩ := bodyOf_ok hs.params hr hb
    exact blockInv_complete (blockInv_effectOf hs i) (by rwa [effectOf_params])

theorem blockInv_command {w : Word} {t : State} (hs : BlockInv s) (h : command w s = .next t) : BlockInv t := by
  rcases command_cases h with ⟨i, _, he⟩ | ⟨_, _, rfl⟩
  · exact blockInv_exec hs he
  · exact blockInv_raise hs (by decide)

end

/-- Settles O16: by the kind of event the step took, each update keeping the invariants. -/
theorem stepKeepsInvariant : Obligations.StepKeepsInvariant := by
  unfold Obligations.StepKeepsInvariant
  intro s t hs h
  rcases step_cases h with ⟨_, rfl⟩ | ⟨rest, _, rfl⟩ | ⟨_, rest, _, _, rfl⟩ | ⟨_, _, rest, _, rfl⟩ |
    ⟨space, i, b, rest, _, rfl⟩ | ⟨w, rest, _, hc⟩ | ⟨_, v, rest, _, _, ⟨r, _, _, rfl⟩ | ⟨_, rfl⟩⟩
  · exact hs
  · exact blockInv_resetAgain (blockInv_pending hs rest)
  · exact blockInv_reply (blockInv_pending hs rest) _
  · exact blockInv_reply (blockInv_pending hs rest) _
  · exact blockInv_bufWrite (blockInv_pending hs rest) space i b
  · exact blockInv_command (blockInv_pending hs rest) hc
  · exact blockInv_writeReg (blockInv_pending hs rest) v r
  · exact blockInv_pending hs rest

end Sys2Proof.Machine
end

section
/-! PROOF. The key is read by no host event but the six commands that use it (R30): two states that differ at most in
`KEY` are driven alike. -/

namespace Sys2Proof.Machine

open Sys2Proof.Claims

section

variable {s₁ s₂ : State}

/-! ### The updates -/

theorem sameButKey_pending (h : SameButKey s₁ s₂) (rest : List HostEvent) :
    SameButKey { s₁ with pending := rest } { s₂ with pending := rest } := by
  rw [h]
  exact rfl

theorem sameButKey_resetAgain (h : SameButKey s₁ s₂) : SameButKey s₁.resetAgain s₂.resetAgain := by
  rw [h]
  exact rfl

theorem sameButKey_reply (h : SameButKey s₁ s₂) (r : Reply) : SameButKey (s₁.reply r) (s₂.reply r) := by
  rw [h]
  exact rfl

theorem sameButKey_bufWrite (h : SameButKey s₁ s₂) (space : Space) (i : Nat) (b : Byte) :
    SameButKey (s₁.bufWrite space i b) (s₂.bufWrite space i b) := by
  rw [h]
  cases space <;> simp only [State.bufWrite]
  case input | aux => split <;> exact rfl
  case output => exact rfl

theorem sameButKey_writeReg (h : SameButKey s₁ s₂) (v : Word) (r : Reg) :
    SameButKey (writeReg s₁ v r) (writeReg s₂ v r) := by
  rw [h]
  cases r <;> exact rfl

theorem sameButKey_acknowledge (h : SameButKey s₁ s₂) : SameButKey s₁.acknowledge s₂.acknowledge := by
  rw [h]
  exact rfl

theorem sameButKey_raise (h : SameButKey s₁ s₂) (f : Failure) : SameButKey (s₁.raise f) (s₂.raise f) := by
  rw [h]
  exact rfl

theorem sameButKey_complete (h : SameButKey s₁ s₂) (r : Result) : SameButKey (s₁.complete r) (s₂.complete r) := by
  rw [h]
  exact rfl

theorem sameButKey_effectOf (h : SameButKey s₁ s₂) (i : Instr) : SameButKey (effectOf i s₁) (effectOf i s₂) := by
  rw [h]
  cases i <;> exact rfl

/-! ### What is read -/

theorem regRead_of_sameButKey (h : SameButKey s₁ s₂) (off : Nat) : regRead s₂ off = regRead s₁ off := by
  rw [h]
  rfl

theorem bufRead_of_sameButKey (h : SameButKey s₁ s₂) (space : Space) (i : Nat) :
    s₂.bufRead space i = s₁.bufRead space i := by
  rw [h]
  cases space <;> rfl

theorem bodyOf_of_sameButKey {i : Instr} (h : SameButKey s₁ s₂) (hu : usesKey i = false) :
    bodyOf i s₂ = bodyOf i s₁ := by
  rw [h]
  cases i
  case cbcenc | cbcdec | ecbenc | ecbdec | cencode | cdecode => cases hu
  all_goals rfl

/-! ### Commands and steps -/

theorem exec_sameButKey {i : Instr} {t₁ : State} (h : SameButKey s₁ s₂) (hu : usesKey i = false)
    (he : exec i s₁ = .next t₁) : ∃ t₂, exec i s₂ = .next t₂ ∧ SameButKey t₁ t₂ := by
  by_cases hn : i = .nop
  · subst hn
    cases he
    exact ⟨_, rfl, sameButKey_acknowledge h⟩
  by_cases hr : OperandsInRange i s₁
  · have hr₂ : OperandsInRange i s₂ := by rw [h]; exact hr
    rw [exec_in_range hn hr (by simp [hu])] at he
    rw [exec_in_range hn hr₂ (by simp [hu]), bodyOf_of_sameButKey h hu]
    cases hb : bodyOf i s₁ with
    | error f =>
      rw [hb] at he
      cases he
      exact ⟨_, rfl, sameButKey_raise h f⟩
    | ok r =>
      rw [hb] at he
      cases he
      exact ⟨_, rfl, sameButKey_complete (sameButKey_effectOf h i) r⟩
  · have hr₂ : ¬ OperandsInRange i s₂ := by rw [h]; exact hr
    rw [exec_out_of_range hr] at he
    cases he
    exact ⟨_, exec_out_of_range hr₂, sameButKey_raise h _⟩

theorem command_sameButKey {w : Word} {t₁ : State} (h : SameButKey s₁ s₂)
    (hu : ∀ i, decode w = .ok i → usesKey i = false) (hc : command w s₁ = .next t₁) :
    ∃ t₂, command w s₂ = .next t₂ ∧ SameButKey t₁ t₂ := by
  rcases command_cases hc with ⟨i, hd, he⟩ | ⟨e, hd, rfl⟩
  · simp only [command, hd]
    exact exec_sameButKey h (hu i hd) he
  · exact ⟨s₂.raise (.of .illegalCommand), by simp [command, hd, execIllegal], sameButKey_raise h _⟩

end

/-- Settles O27: by the kind of event, each of which the other state takes in the same way. -/
theorem keyFlowsOnlyThroughCipherCommands : Obligations.KeyFlowsOnlyThroughCipherCommands := by
  unfold Obligations.KeyFlowsOnlyThroughCipherCommands
  intro s₁ s₂ t₁ hs hnext h
  have hp₂ : s₂.pending = s₁.pending := by rw [hs]
  rcases step_cases h with ⟨hp, rfl⟩ | ⟨rest, hp, rfl⟩ | ⟨off, rest, hp, hok, rfl⟩ | ⟨space, i, rest, hp, rfl⟩ |
    ⟨space, i, b, rest, hp, rfl⟩ | ⟨w, rest, hp, hc⟩ | ⟨off, v, rest, hp, hok, ⟨r, hr, hcmd, rfl⟩ | ⟨hr, rfl⟩⟩ <;>
    rw [hp] at hp₂
  · exact ⟨s₂, by simp only [step, takeEvent, hp₂], hs⟩
  · exact ⟨_, step_reset hp₂, sameButKey_resetAgain (sameButKey_pending hs rest)⟩
  · rw [step_regRead hp₂ hok, regRead_of_sameButKey hs]
    exact ⟨_, rfl, sameButKey_reply (sameButKey_pending hs rest) _⟩
  · rw [step_bufRead hp₂, bufRead_of_sameButKey hs]
    exact ⟨_, rfl, sameButKey_reply (sameButKey_pending hs rest) _⟩
  · exact ⟨_, step_bufWrite hp₂, sameButKey_bufWrite (sameButKey_pending hs rest) space i b⟩
  · have hu : ∀ i, decode w = .ok i → usesKey i = false := fun i hd =>
      Bool.eq_false_iff.2 fun hu => hnext ⟨w, i, rest, hp, hd, hu⟩
    rw [step_commandWrite hp₂]
    exact command_sameButKey (sameButKey_pending hs rest) hu hc
  · exact ⟨_, step_regWrite hp₂ hok hr hcmd, sameButKey_writeReg (sameButKey_pending hs rest) v r⟩
  · exact ⟨_, step_regWrite_none hp₂ hok hr, sameButKey_pending hs rest⟩

end Sys2Proof.Machine
end

section
/-! PROOF. A command's outcome is a function of its operands (R36, R39): states that agree on the operands end in states
that look alike to the host. -/

namespace Sys2Proof.Machine

open Sys2Proof.Claims

section

variable {s₁ s₂ : State}

theorem operandsInRange_of_sameOperands {i : Instr} (h : SameOperands s₁ s₂) :
    OperandsInRange i s₂ ↔ OperandsInRange i s₁ := by
  simp only [OperandsInRange, h.inLen, h.auxLen, h.params]

theorem bodyOf_of_sameOperands (i : Instr) (h : SameOperands s₁ s₂) : bodyOf i s₂ = bodyOf i s₁ := by
  simp only [bodyOf, h.key, h.inLen, h.auxLen, h.ctr, h.input, h.aux]

theorem sameOperands_effectOf (i : Instr) (h : SameOperands s₁ s₂) :
    SameOperands (effectOf i s₁) (effectOf i s₂) := by
  cases i
  case loadkey => exact { h with key := by simp [effectOf, h.aux], keyv := rfl }
  case clear => exact { h with inLen := rfl, auxLen := rfl, ctr := rfl, input := rfl, aux := rfl }
  case zeroize =>
    exact { h with key := rfl, keyv := rfl, inLen := rfl, auxLen := rfl, ctr := rfl, input := rfl, aux := rfl }
  all_goals exact h

/-- `IN` and `AUX` are operands. -/
theorem bufRead_of_sameOperands (h : SameOperands s₁ s₂) {space : Space} (hs : space ≠ .output) (i : Nat) :
    s₂.bufRead space i = s₁.bufRead space i := by
  cases space
  case input => simp only [State.bufRead]; rw [h.params, h.input]
  case aux => simp only [State.bufRead]; rw [h.params, h.aux]
  case output => exact absurd rfl hs

/-- Every register is an operand or one of those a completion writes. -/
theorem regRead_of_sameOperands (h : SameOperands s₁ s₂) (hdone : s₂.done = s₁.done) (hfail : s₂.fail = s₁.fail)
    (herr : s₂.err = s₁.err) (hlen : s₂.outLen = s₁.outLen) (hres : s₂.result = s₁.result) (hvfy : s₂.vfy = s₁.vfy)
    (off : Nat) : regRead s₂ off = regRead s₁ off := by
  unfold regRead
  cases regAt off with
  | none => rfl
  | some r =>
    cases r <;> simp only [readReg, statusWord, errWord, vfyWord, h.keyv, h.inLen, h.auxLen, h.ctr, h.params, hdone,
      hfail, herr, hlen, hres, hvfy]

theorem sameOperands_raise (h : SameOperands s₁ s₂) (f : Failure) : SameOperands (s₁.raise f) (s₂.raise f) :=
  { h with }

theorem sameOperands_complete (h : SameOperands s₁ s₂) (r : Result) :
    SameOperands (s₁.complete r) (s₂.complete r) :=
  { h with }

theorem sameView_raise (h : SameOperands s₁ s₂) (f : Failure) : SameView (s₁.raise f) (s₂.raise f) where
  regs := regRead_of_sameOperands (sameOperands_raise h f) rfl rfl rfl rfl rfl rfl
  bytes space i := by
    by_cases hs : space = .output
    · rw [hs, State.bufRead_raise, State.bufRead_raise]
    · exact bufRead_of_sameOperands (sameOperands_raise h f) hs i

/-- A successful completion stores every byte of `OUT` that the host can read after it (R66). -/
theorem sameView_complete (h : SameOperands s₁ s₂) {r : Result} (hr : r.data.length < 2 ^ 32) (hw₁ : s₁.output.wf)
    (hw₂ : s₂.output.wf) : SameView (s₁.complete r) (s₂.complete r) where
  regs := regRead_of_sameOperands (sameOperands_complete h r) rfl rfl rfl rfl rfl rfl
  bytes space i := by
    by_cases hs : space = .output
    · rw [hs, State.bufRead_complete hw₁ hr, State.bufRead_complete hw₂ hr]
    · exact bufRead_of_sameOperands (sameOperands_complete h r) hs i

end

/-- Settles O26: both states pass or fail the same checks, and their bodies have the same outcome. -/
theorem outcomesDependOnOperandsOnly : Obligations.OutcomesDependOnOperandsOnly := by
  unfold Obligations.OutcomesDependOnOperandsOnly
  intro i s₁ s₂ t₁ t₂ hn hi₁ hi₂ hs h₁ h₂
  have hrange := operandsInRange_of_sameOperands (i := i) hs
  have hbody := bodyOf_of_sameOperands i hs
  rcases exec_cases i s₁ with ⟨hnop, _⟩ | ⟨hr, he⟩ | ⟨hr, hu, hk, he⟩ | ⟨_, hr, hk, he⟩
  · exact absurd hnop hn
  · rw [he] at h₁
    rw [exec_out_of_range (mt hrange.1 hr)] at h₂
    cases h₁; cases h₂
    exact sameView_raise hs _
  · rw [he] at h₁
    rw [exec_unbound (hrange.2 hr) hu (hs.keyv.trans hk)] at h₂
    cases h₁; cases h₂
    exact sameView_raise hs _
  · rw [exec_in_range hn (hrange.2 hr) (hs.keyv ▸ hk), hbody] at h₂
    rcases he with ⟨f, hb, he⟩ | ⟨r, hb, he⟩ <;> rw [he] at h₁ <;> rw [hb] at h₂ <;> cases h₁ <;> cases h₂
    · exact sameView_raise hs f
    · obtain ⟨_, hlen, _⟩ := bodyOf_ok hi₁.params hr hb
      exact sameView_complete (sameOperands_effectOf i hs) hlen (blockInv_effectOf hi₁ i).output_wf.1
        (blockInv_effectOf hi₂ i).output_wf.1

end Sys2Proof.Machine
end

section
/-! PROOF. The host's accesses one by one (R62 to R69): a register access that does not exist is refused; a buffer read
returns its byte and changes nothing; a buffer write changes one byte of `IN` or `AUX` and nothing else. -/

namespace Sys2Proof.Machine

/-! ### Register accesses that do not exist -/

/-- The complement of `step_transact`: a transaction that does not exist at the interface (R63, R278). -/
theorem step_transact_refused {s : State} {u : Transaction} {rest : List HostEvent}
    (h : s.pending = .transact u :: rest) (hw : u.wellFormed = false) :
    step s = .refused (.noSuchRegisterAccess u.offset) := by
  simp only [step, takeEvent, h, deliver, transact, hw]
  rfl

theorem registerOffsetOk_eq_false {off : Nat} (h : off % 4 ≠ 0 ∨ 0xFC < off) : registerOffsetOk off = false := by
  rcases h with h | h <;> simp [registerOffsetOk, h]

/-- Settles O10: neither access to such an offset exists at the interface. -/
theorem missingRegisterAccessIsRefused : Obligations.MissingRegisterAccessIsRefused := by
  unfold Obligations.MissingRegisterAccessIsRefused
  intro s off v rest hoff
  have hok := registerOffsetOk_eq_false hoff
  exact ⟨fun hp => step_transact_refused hp hok, fun hp => step_transact_refused hp hok⟩

/-! ### Buffer reads -/

/-- Settles O11: the step hands `State.bufRead` to the host, which is the byte below the bound of its space. -/
theorem bufReadReturnsTheMaskedByte : Obligations.BufReadReturnsTheMaskedByte := by
  unfold Obligations.BufReadReturnsTheMaskedByte
  intro s space i rest hp
  rw [step_bufRead hp]
  cases space <;> rfl

/-! ### Buffer writes -/

theorem Memory.read_write {m : Memory} (h : m.wf) (i j : Nat) (b : Byte) :
    (m.write i b).read j = if j = i then b else m.read j := by
  split
  case isTrue hj => rw [hj, Memory.read_write_same h]
  case isFalse hj => exact Memory.read_write_other m b hj

section

variable (s : State)

theorem State.bufRead_pending (rest : List HostEvent) (sp : Space) (j : Nat) :
    State.bufRead { s with pending := rest } sp j = s.bufRead sp j := by
  cases sp <;> rfl

/-- A write to `OUT`, or beyond the capacity, does nothing (R64, R67). -/
theorem State.bufWrite_of_not_stored {space : Space} {i : Nat} (b : Byte)
    (h : ¬ (space ≠ .output ∧ i < s.params.capacity space)) : s.bufWrite space i b = s := by
  cases space
  case output => rfl
  all_goals exact if_neg (by simpa [Params.capacity] using h)

/-- A write touches no field but the two buffers the host can write (R64, R67). -/
theorem State.bufWrite_eq_with_buffers (space : Space) (i : Nat) (b : Byte) :
    s.bufWrite space i b =
      { s with input := (s.bufWrite space i b).input, aux := (s.bufWrite space i b).aux } := by
  cases space <;> simp only [State.bufWrite] <;> split <;> rfl

theorem State.bufWrite_input {space : Space} {i : Nat} (b : Byte) (h : space ≠ .input ∨ s.params.inCap ≤ i) :
    (s.bufWrite space i b).input = s.input := by
  cases space
  case input => rw [State.bufWrite_of_not_stored s b (by simpa [Params.capacity] using h)]
  case aux => simp only [State.bufWrite]; split <;> rfl
  case output => rfl

theorem State.bufWrite_aux {space : Space} {i : Nat} (b : Byte) (h : space ≠ .aux ∨ s.params.auxCap ≤ i) :
    (s.bufWrite space i b).aux = s.aux := by
  cases space
  case input => simp only [State.bufWrite]; split <;> rfl
  case aux => rw [State.bufWrite_of_not_stored s b (by simpa [Params.capacity] using h)]
  case output => rfl

end

/-- What the host reads after its write, in every space at every index: the byte written where it was stored, and what
it read before anywhere else (R64 to R67). -/
theorem State.bufRead_bufWrite {s : State} (hin : s.input.wf) (haux : s.aux.wf) (space : Space) (i : Nat) (b : Byte)
    (sp : Space) (j : Nat) :
    (s.bufWrite space i b).bufRead sp j =
      if sp = space ∧ j = i ∧ space ≠ .output ∧ i < s.params.capacity space then b else s.bufRead sp j := by
  by_cases hst : space ≠ .output ∧ i < s.params.capacity space
  case neg => rw [State.bufWrite_of_not_stored s b hst, if_neg (fun ⟨_, _, h⟩ => hst h)]
  case pos =>
    obtain ⟨hout, hi⟩ := hst
    cases space
    case output => exact absurd rfl hout
    case input =>
      have hi : i < s.params.inCap := hi
      cases sp
      case input =>
        by_cases hj : j = i <;> simp [State.bufWrite, State.bufRead, Params.capacity, Memory.read_write hin, hi, hj]
      all_goals simp [State.bufWrite, State.bufRead, hi]
    case aux =>
      have hi : i < s.params.auxCap := hi
      cases sp
      case aux =>
        by_cases hj : j = i <;> simp [State.bufWrite, State.bufRead, Params.capacity, Memory.read_write haux, hi, hj]
      all_goals simp [State.bufWrite, State.bufRead, hi]

/-- Settles O12: the step is `State.bufWrite`, whose bytes and whose frame are those of the lemmas above. -/
theorem bufWriteStoresOneByte : Obligations.BufWriteStoresOneByte := by
  unfold Obligations.BufWriteStoresOneByte
  intro s space i b rest hinv hp
  refine ⟨_, step_bufWrite hp, fun sp j => ?_, State.bufWrite_eq_with_buffers _ space i b,
    State.bufWrite_input { s with pending := rest } b, State.bufWrite_aux { s with pending := rest } b⟩
  have hread := State.bufRead_bufWrite (s := { s with pending := rest }) hinv.input_wf.1 hinv.aux_wf.1 space i b sp j
  rwa [State.bufRead_pending] at hread

end Sys2Proof.Machine
end

section
/-! PROOF. A command word written twice in a row (R69): the second execution passes the same checks, its body has the same
outcome, and the completion stores what the state already holds. -/

namespace Sys2Proof.Machine

section

variable {i : Instr} {s : State}

/-- After a success the length checks pass again: the command kept its length registers, or `CLEAR` and `ZEROIZE` have
none to check. -/
theorem operandsInRange_complete_effectOf (h : OperandsInRange i s) (r : Result) :
    OperandsInRange i ((effectOf i s).complete r) := by
  cases i
  case clear | zeroize => exact ⟨nofun, nofun⟩
  all_goals exact h

/-- After a success of a command that uses the key, the key is still bound. -/
theorem keyv_complete_effectOf (h : usesKey i = true → s.keyv = true) (r : Result) :
    usesKey i = true → ((effectOf i s).complete r).keyv = true := by
  cases i
  case loadkey | clear | zeroize => exact nofun
  all_goals exact h

/-- The outcome of a body depends on nothing that the command itself writes. -/
theorem bodyOf_complete_effectOf (i : Instr) (s : State) (r : Result) :
    bodyOf i ((effectOf i s).complete r) = bodyOf i s := by
  cases i <;> rfl

/-- A failing completion writes no operand. -/
theorem bodyOf_raise (i : Instr) (s : State) (f : Failure) : bodyOf i (s.raise f) = bodyOf i s := by
  cases i <;> rfl

/-- Effect and completion, done again, change nothing: `CLEAR` and `ZEROIZE` start from erased buffers both times, and
the other commands store the same bytes in the same canonical `OUT`. -/
theorem complete_effectOf_idem (i : Instr) (h : s.output.wf) (r : Result) :
    (effectOf i ((effectOf i s).complete r)).complete r = (effectOf i s).complete r := by
  cases i
  case clear | zeroize => rfl
  case loadkey => exact State.complete_complete (s := s.bindKey (blockOfBytes (s.aux.readRange 0 16))) h r
  all_goals exact State.complete_complete h r

/-- A command run again from the state it left leaves the same state. -/
theorem exec_exec {t : State} (hw : s.output.wf) (h : exec i s = .next t) : exec i t = .next t := by
  rcases exec_cases i s with ⟨rfl, he⟩ | ⟨hr, he⟩ | ⟨hr, hu, hk, he⟩ | ⟨hn, hr, hk, ⟨f, hb, he⟩ | ⟨r, hb, he⟩⟩ <;>
    rw [he] at h <;> cases h
  · rfl
  · exact exec_out_of_range hr
  · exact exec_unbound hr hu hk
  · rw [exec_in_range (s := s.raise f) hn hr hk, bodyOf_raise, hb]
    rfl
  · rw [exec_in_range hn (operandsInRange_complete_effectOf hr r) (keyv_complete_effectOf hk r),
      bodyOf_complete_effectOf, hb]
    exact congrArg _ (complete_effectOf_idem i hw r)

end

/-- Settles O25: a command's word by `exec_exec`; any other word makes the same six writes again. -/
theorem repeatedCommandChangesNothing : Obligations.RepeatedCommandChangesNothing := by
  unfold Obligations.RepeatedCommandChangesNothing
  intro w s t hinv h
  rcases command_cases h with ⟨i, hd, he⟩ | ⟨e, hd, rfl⟩
  · rw [command, hd]
    exact exec_exec hinv.output_wf.1 he
  · rw [command, hd]
    rfl

end Sys2Proof.Machine
end

section
/-! PROOF. Command words and commands correspond one to one (R90 to R95): as words, as rows of the table, and as byte
lanes. -/

namespace Sys2Proof

open Sys2Proof.Machine Sys2Proof.Claims

/-- The decoder undoes the encoder (R92, R93). -/
@[simp] theorem decode_encode (i : Instr) : decode (encode i) = .ok i := by cases i <;> rfl

/-- The encoder's words are the command words (R93). -/
theorem decode_eq_ok_iff {w : Word} {i : Instr} : decode w = .ok i ↔ w = encode i :=
  ⟨eq_encode_of_decode, fun h => h ▸ decode_encode i⟩

/-- Settles O3: a word that decodes is made of the fields of its command, and the decoder undoes the encoder. -/
theorem decodeAgreesWithEncode : Obligations.DecodeAgreesWithEncode := by
  unfold Obligations.DecodeAgreesWithEncode
  exact fun _ _ => decode_eq_ok_iff

/-- Settles O2: the row of a command is its word, and no other command has that row. -/
theorem onlyTableWordsAreCommands : Obligations.OnlyTableWordsAreCommands := by
  unfold Obligations.OnlyTableWordsAreCommands
  intro w i
  rw [decode_eq_ok_iff]
  cases i <;> simp [encode, fieldsOf]

/-- Settles O1: the fifteen words are closed, and the decoder evaluates on each. -/
theorem tableWordsDecode : Obligations.TableWordsDecode := by
  unfold Obligations.TableWordsDecode
  rfl

/-- Four lanes are those of a word exactly when the word is theirs (R10, R71). -/
theorem le32_eq_iff {lanes : List Byte} (h : lanes.length = 4) {w : Word} : le32 lanes = w ↔ lanes = toLE32 w :=
  ⟨fun hw => by rw [← hw, toLE32_le32 h], fun hw => by rw [hw, le32_toLE32]⟩

theorem decodeBytes_eq_ok_iff {lanes : List Byte} {i : Instr} :
    decodeBytes lanes = .ok i ↔ lanes = encodeBytes i := by
  unfold decodeBytes
  split
  case isTrue h => rw [decode_eq_ok_iff, le32_eq_iff h, encodeBytes]
  case isFalse h =>
    have hne : lanes ≠ encodeBytes i := fun he => h (by rw [he, encodeBytes, toLE32_length])
    simp [hne]

/-- Settles O4: four lanes make one word, whose lanes they are. -/
theorem decodeBytesAgreesWithEncodeBytes : Obligations.DecodeBytesAgreesWithEncodeBytes := by
  unfold Obligations.DecodeBytesAgreesWithEncodeBytes
  exact ⟨fun _ _ => decodeBytes_eq_ok_iff, fun i => toLE32_eq (encode i)⟩

end Sys2Proof
end

section
/-! PROOF. The illegal command (R94, R265, R269). -/

namespace Sys2Proof.Machine

open Sys2Proof.Claims

/-- A word that is no command's word raises `IllegalCommandError` (R94). -/
theorem command_of_ne_encode {w : Word} (h : ∀ i, w ≠ encode i) (s : State) :
    command w s = .next (s.raise (.of .illegalCommand)) := by
  unfold command
  split
  case h_1 i hd => exact absurd (eq_encode_of_decode hd) (h i)
  case h_2 => rfl

/-- A failing completion as the host sees it (R265). -/
theorem failed_raise (s : State) (f : Failure) : Failed (s.raise f) f.error.code f.vfy where
  outLen := rfl
  out := s.bufRead_raise f
  result := rfl
  vfy := rfl
  err := rfl
  fail := rfl
  done := rfl

theorem keepsOperands_raise (s : State) (f : Failure) : KeepsOperands s (s.raise f) := by constructor <;> rfl

/-- Settles O5: the `CMD` write of such a word is a failing completion, which makes six writes. -/
theorem otherWordsAreIllegalCommands : Obligations.OtherWordsAreIllegalCommands := by
  unfold Obligations.OtherWordsAreIllegalCommands
  intro w s rest hw hp
  refine ⟨_, ?_, failed_raise { s with pending := rest } (.of .illegalCommand), keepsOperands_raise _ _, rfl, rfl⟩
  rw [step_commandWrite hp, command_of_ne_encode hw]

end Sys2Proof.Machine
end

section
/-! PROOF. The lines of a host script that load operands and that read the result (R96, R97). -/

namespace Sys2Proof.Machine

open Sys2Proof.Claims

/-! ### Events -/

theorem runScript_singleton {l : ScriptLine} {s t : State} (h : runEvents (lineEvents s l) s = .next t) :
    runScript [l] s = .next t :=
  runScript_cons h

theorem registerOffsetOk_offset (r : Reg) : registerOffsetOk r.offset = true := by cases r <;> rfl

/-- `WRR` to a register other than `CMD` stores what the register takes (R96, R63). -/
theorem runEvents_wrr {r : Reg} (hr : r ≠ .cmd) (v : Word) (s : State) :
    runEvents (wrrEvents r v) s = .next (writeReg s v r) := by
  have hp : regWrite s r.offset v = .next (writeReg s v r) := by simp only [regWrite, regAt_offset]
  simp only [wrrEvents, runEvents, deliver, transact, Transaction.wellFormed, registerOffsetOk_offset, if_true, perform,
    hp]

/-- `RDR` hands the register's value to the host (R96). -/
theorem runEvents_rdr (r : Reg) (s : State) : runEvents (rdrEvents r) s = .next (s.reply (.word (readReg s r))) := by
  simp only [rdrEvents, runEvents, deliver, transact, Transaction.wellFormed, registerOffsetOk_offset, if_true, perform,
    regRead, regAt_offset]

/-- `RDB` hands the bytes to the host in ascending order (R96); no read changes what a later one returns (R69). -/
theorem runEvents_rdb (space : Space) (i n : Nat) (s : State) :
    runEvents (rdbEvents space i n) s =
      .next { s with replies := s.replies ++ (List.range n).map fun k => .byte (s.bufRead space (i + k)) } := by
  induction n with
  | zero => simp [rdbEvents, runEvents]
  | succ n ih =>
    have hsnoc : rdbEvents space i (n + 1) = rdbEvents space i n ++ [.transact (.bufRead space (i + n))] := by
      simp [rdbEvents, List.range_succ]
    rw [hsnoc, runEvents_append ih]
    cases space <;>
      simp [runEvents, deliver, transact, Transaction.wellFormed, perform, State.reply, State.bufRead, List.range_succ]

theorem deliver_commandWrite (w : Word) (s : State) : deliver (commandWrite w) s = command w s := rfl

/-- `CMD` of a command runs it (R96, R24). -/
theorem runEvents_cmd {i : Instr} {s t : State} (h : exec i s = .next t) :
    runEvents [commandWrite (encode i)] s = .next t := by
  simp only [runEvents, deliver_commandWrite, command, decode_encode, h]

/-! ### `GETOUT` -/

/-- Settles O58: `RDR OUT_LEN`, then `RDB OUT` below `OUT_LEN`, where the host reads the stored bytes. -/
theorem getoutReturnsTheResult : Obligations.GetoutReturnsTheResult := by
  unfold Obligations.GetoutReturnsTheResult
  intro s
  have hbytes : ((List.range s.outLen.toNat).map fun k => Reply.byte (s.bufRead .output (0 + k))) =
      (List.range s.outLen.toNat).map fun k => .byte (s.output.read k) :=
    List.map_congr_left fun k hk => by simp [State.bufRead, List.mem_range.1 hk]
  apply runScript_singleton
  rw [lineEvents, runEvents_append (runEvents_rdr .outLen s), runEvents_rdb, ← hbytes]
  simp [State.reply, State.bufRead, readReg]

/-! ### Operands -/

section

variable {s : State} {hex : List Byte}

/-- The state after `SETIN` of a string that fits. -/
theorem runEvents_setin (h : hex.length ≤ s.params.inCap) :
    runEvents (setinEvents hex) s =
      .next { s with input := s.input.writeRange 0 hex, inLen := BitVec.ofNat 32 hex.length } := by
  rw [setinEvents, runEvents_append (runEvents_wrb_input s 0 hex (by simpa using h)), runEvents_wrr (r := .inLen) nofun]
  rfl

/-- The state after `SETAUX` of a string that fits. -/
theorem runEvents_setaux (h : hex.length ≤ s.params.auxCap) :
    runEvents (setauxEvents hex) s =
      .next { s with aux := s.aux.writeRange 0 hex, auxLen := BitVec.ofNat 32 hex.length } := by
  rw [setauxEvents, runEvents_append (runEvents_wrb_aux s 0 hex (by simpa using h)), runEvents_wrr (r := .auxLen) nofun]
  rfl

/-- Every string that fits `IN` or `AUX` has a length a length register can hold (R6). -/
theorem toNat_ofNat_length {cap : Nat} (hcap : cap < 2 ^ 32) (h : hex.length ≤ cap) :
    (BitVec.ofNat 32 hex.length).toNat = hex.length := by
  rw [BitVec.toNat_ofNat, Nat.mod_eq_of_lt (by omega)]

/-- The operand is the string stored, when the length register holds its length. -/
theorem inStar_eq {t : State} (hw : s.input.wf) (hin : t.input = s.input.writeRange 0 hex)
    (hlen : t.inLen.toNat = hex.length) (h : hex.length ≤ t.params.inCap) : inStar t = hex := by
  rw [inStar, map_bufRead_input (by omega), hin, hlen, Memory.readRange_writeRange hw]

theorem auxStar_eq {t : State} (hw : s.aux.wf) (haux : t.aux = s.aux.writeRange 0 hex)
    (hlen : t.auxLen.toNat = hex.length) (h : hex.length ≤ t.params.auxCap) : auxStar t = hex := by
  rw [auxStar, map_bufRead_aux (by omega), haux, hlen, Memory.readRange_writeRange hw]

end

/-- `CTR_LO`, then `CTR_HI`: the two halves of a number make the number (R31). -/
theorem writeReg_ctr_halves (s : State) (v : BitVec 64) :
    writeReg (writeReg s (v.extractLsb' 0 32) .ctrLo) (v.extractLsb' 32 32) .ctrHi = { s with ctr := v } := by
  simp only [writeReg]
  rw [BitVec.extractLsb'_append_eq_right, BitVec.extractLsb'_append_extractLsb']

/-- `SETCTR` (R97). -/
theorem runEvents_setctr (s : State) (v : BitVec 64) :
    runEvents (lineEvents s (.setctr v)) s = .next { s with ctr := v } := by
  rw [lineEvents, runEvents_append (runEvents_wrr (r := .ctrLo) nofun _ s),
    runEvents_wrr (r := .ctrHi) nofun, writeReg_ctr_halves]

/-! ### `KEY` -/

/-- `LOADKEY` with sixteen bytes in `AUX` binds them (R111). -/
theorem exec_loadkey_of_sixteen {s : State} {bs : List Byte} (h16 : s.auxLen = 16) (hcap : 16 ≤ s.params.auxCap)
    (hread : s.aux.readRange 0 16 = bs) :
    exec .loadkey s = .next ((s.bindKey (blockOfBytes bs)).complete .none) := by
  have hr : OperandsInRange .loadkey s := ⟨nofun, fun _ => by rw [h16]; exact hcap⟩
  rw [exec_in_range (by decide) hr nofun]
  simp only [bodyOf, if_pos h16, effectOf, hread]

/-- A successful completion as the host sees it (R264), for a canonical `OUT` and a result that fits the length
register. -/
theorem completed_complete {s : State} {r : Result} (hw : s.output.wf) (hl : r.data.length < 2 ^ 32) :
    Completed (s.complete r) r.data r.scalar r.vfy where
  outLen := by rw [State.complete_outLen, BitVec.toNat_ofNat, Nat.mod_eq_of_lt hl]
  out := State.bufRead_complete hw hl
  result := rfl
  vfy := rfl
  err := rfl
  fail := rfl
  done := rfl

/-- `KEY` of sixteen bytes: `SETAUX`, then `LOADKEY` of the string stored (R97). -/
theorem runEvents_key {s : State} {hex : List Byte} (hw : s.aux.wf) (h16 : hex.length = 16)
    (hcap : 16 ≤ s.params.auxCap) :
    runEvents (lineEvents s (.key hex)) s =
      .next ((State.bindKey { s with aux := s.aux.writeRange 0 hex, auxLen := 16 }
        (blockOfBytes hex)).complete .none) := by
  have hread : (s.aux.writeRange 0 hex).readRange 0 16 = hex := h16 ▸ Memory.readRange_writeRange hw hex
  rw [lineEvents, runEvents_append (runEvents_setaux (by omega)), h16]
  exact runEvents_cmd (exec_loadkey_of_sixteen rfl hcap hread)

/-- Settles O57: each line ends in the state its lemma above gives; the string fits, so reading it back gives it. -/
theorem scriptLinesLoadOperands : Obligations.ScriptLinesLoadOperands := by
  unfold Obligations.ScriptLinesLoadOperands
  intro s hex v hinv
  obtain ⟨_, hinCap, hauxMin, hauxCap⟩ := hinv.params
  refine ⟨fun h => ?_, fun h => ?_, runScript_singleton (runEvents_setctr s v), fun h16 => ?_⟩
  · exact ⟨_, runScript_singleton (runEvents_setin h),
      inStar_eq hinv.input_wf.1 rfl (toNat_ofNat_length (by omega) h) h, rfl⟩
  · exact ⟨_, runScript_singleton (runEvents_setaux h),
      auxStar_eq hinv.aux_wf.1 rfl (toNat_ofNat_length (by omega) h) h, rfl⟩
  · exact ⟨_, runScript_singleton (runEvents_key hinv.aux_wf.1 h16 hauxMin), blockBytes_blockOfBytes h16, rfl,
      completed_complete hinv.output_wf.1 (by decide)⟩

end Sys2Proof.Machine
end

section
/-! PROOF. The system commands `NOP`, `LOADKEY`, `CLEAR` and `ZEROIZE`, command by command (R110 to R113). -/

namespace Sys2Proof.Machine

open Sys2Proof.Claims

/-! ### The two completions, as the host sees them -/

/-- A success without a data or scalar result (R114) shows no byte of `OUT`, whatever the buffer holds. -/
theorem completed_complete_none (s : State) : Completed (s.complete .none) [] 0 0 where
  outLen := rfl
  out := fun _ => rfl
  result := rfl
  vfy := rfl
  err := rfl
  fail := rfl
  done := rfl

/-- A failing completion writes neither an operand nor the key (R266). -/
theorem failsWith_of_raise {i : Instr} {s : State} {f : Failure} (h : exec i s = .next (s.raise f)) :
    FailsWith i s f.error.code f.vfy :=
  ⟨_, h, failed_raise s f, keepsOperands_raise s f, rfl, rfl⟩

/-! ### `NOP` -/

/-- Settles O30: `NOP` acknowledges, which is the update of these three fields. -/
theorem nopOnlyAcknowledges : Obligations.NopOnlyAcknowledges := by
  unfold Obligations.NopOnlyAcknowledges
  exact ⟨decode_encode .nop, fun _ => rfl⟩

/-! ### `LOADKEY` -/

section

variable {s : State}

/-- Sixteen bytes of operand are the bytes 0 to 15 of `AUX` (R11). -/
theorem auxStar_of_sixteen (h16 : s.auxLen = 16) (hcap : 16 ≤ s.params.auxCap) :
    auxStar s = s.aux.readRange 0 16 := by
  have hr : s.auxLen.toNat ≤ s.params.auxCap := by rw [h16]; exact hcap
  rw [auxStar, map_bufRead_aux hr, h16]
  rfl

/-- An operand in range of any other length is no key (R111). -/
theorem exec_loadkey_of_ne_sixteen (hr : s.auxLen.toNat ≤ s.params.auxCap) (h16 : s.auxLen ≠ 16) :
    exec .loadkey s = .next (s.raise (.of .keyLength)) := by
  have hrange : OperandsInRange .loadkey s := ⟨nofun, fun _ => hr⟩
  rw [exec_in_range (by decide) hrange nofun]
  simp only [bodyOf, if_neg h16]

end

/-- Settles O31: by `AUX_LEN`: sixteen, another length in range, or above the capacity. -/
theorem loadkeyBindsSixteenBytes : Obligations.LoadkeyBindsSixteenBytes := by
  unfold Obligations.LoadkeyBindsSixteenBytes
  refine ⟨decode_encode .loadkey, fun s => ⟨fun h16 hcap => ?_, fun hr h16 => ?_, fun hover => ?_⟩⟩
  · have hexec := exec_loadkey_of_sixteen h16 hcap (auxStar_of_sixteen h16 hcap).symm
    have hlen : (auxStar s).length = 16 := by simp [auxStar, h16]
    exact ⟨_, hexec, blockBytes_blockOfBytes hlen, rfl, completed_complete_none _,
      commandsKeepTheirOperands .loadkey s _ nofun nofun hexec⟩
  · exact failsWith_of_raise (exec_loadkey_of_ne_sixteen hr h16)
  · exact failsWith_of_raise (exec_out_of_range fun hr => absurd (hr.2 rfl) (Nat.not_le.2 hover))

/-! ### `CLEAR` and `ZEROIZE` -/

/-- Settles O32: `CLEAR` completes the erased state, and the empty result leaves the buffers erased. -/
theorem clearErasesAllButTheKey : Obligations.ClearErasesAllButTheKey := by
  unfold Obligations.ClearErasesAllButTheKey
  exact ⟨decode_encode .clear, fun s => ⟨s.erase.complete .none, rfl, completed_complete_none _,
    ⟨rfl, rfl⟩, rfl, rfl, rfl, Memory.read_erased, Memory.read_erased, Memory.read_erased, rfl, rfl, rfl, rfl⟩⟩

/-- Settles O33: erased, without a key and completed without a result, every register has its reset value. -/
theorem zeroizeReturnsToTheResetState : Obligations.ZeroizeReturnsToTheResetState := by
  unfold Obligations.ZeroizeReturnsToTheResetState
  exact ⟨decode_encode .zeroize, fun s => ⟨s.erase.unbindKey.complete .none, rfl, rfl,
    Memory.read_erased, Memory.read_erased, Memory.read_erased⟩⟩

end Sys2Proof.Machine
end

section
/-! PROOF. The padding of the digests, and their two commands (R130, R146, R147). -/

namespace Sys2Proof.Machine

open Sys2Proof.Claims

/-! ### Padding -/

theorem shaPad_length (m : List Byte) : (shaPad m).length = m.length + 1 + shaZeros m.length + 8 := by
  simp only [shaPad, List.length_append, List.length_singleton, rep_length, toBE64_length]

/-- Settles O37: the model's number of zero bytes fills the last block up to its length field. -/
theorem shaPadFillsWholeBlocks : Obligations.ShaPadFillsWholeBlocks := by
  unfold Obligations.ShaPadFillsWholeBlocks
  intro m hm
  obtain ⟨hz, h56⟩ := shaZeros_spec m.length
  refine ⟨shaZeros m.length, hz, h56, toBE64 (BitVec.ofNat 64 (8 * m.length)), toBE64_length _, ?_, rfl, ?_⟩
  · rw [natOfBE_toBE64, BitVec.toNat_ofNat, Nat.mod_eq_of_lt hm]
  · rw [shaPad_length]; omega

/-! ### Commands -/

/-- A command that binds and erases nothing completes with the result of its body, once its checks have passed, and
keeps everything else (R264). -/
theorem completesWith_of_bodyOf {i : Instr} {s : State} {r : Result} (hinv : BlockInv s) (hn : i ≠ .nop)
    (heff : effectOf i s = s) (hr : OperandsInRange i s) (hk : usesKey i = true → s.keyv = true)
    (hb : bodyOf i s = .ok r) : CompletesWith i s r.data r.scalar r.vfy := by
  have hexec : exec i s = .next (s.complete r) := by rw [exec_in_range hn hr hk, hb, heff]
  obtain ⟨_, hfits, _⟩ := bodyOf_ok hinv.params hr hb
  exact ⟨_, hexec, completed_complete hinv.output_wf.1 hfits, by constructor <;> rfl, by constructor <;> rfl⟩

/-- An operand longer than its buffer ends any command with `LengthRangeError` (R270). -/
theorem failsWith_of_out_of_range {i : Instr} {s : State} (h : ¬ OperandsInRange i s) : FailsWith i s 10 0 :=
  failsWith_of_raise (exec_out_of_range h)

/-- Settles O34: both commands need `IN` alone, and their bodies are the digests of what they read there. -/
theorem hashCommandsDigestTheInput : Obligations.HashCommandsDigestTheInput := by
  unfold Obligations.HashCommandsDigestTheInput
  refine ⟨decode_encode .hash160, decode_encode .hash256, fun s hinv => ⟨fun hin => ?_, fun hover => ?_⟩⟩
  · have hread : inStar s = s.input.readRange 0 s.inLen.toNat := map_bufRead_input hin
    rw [hread]
    exact ⟨completesWith_of_bodyOf (r := .ofData (hash160 _)) hinv nofun rfl ⟨fun _ => hin, nofun⟩ nofun rfl,
      hash160_length _,
      completesWith_of_bodyOf (r := .ofData (hash256 _)) hinv nofun rfl ⟨fun _ => hin, nofun⟩ nofun rfl,
      hash256_length _⟩
  · have hnot : ¬ s.inLen.toNat ≤ s.params.inCap := Nat.not_le.2 hover
    exact ⟨failsWith_of_out_of_range fun h => hnot (h.1 rfl), failsWith_of_out_of_range fun h => hnot (h.1 rfl)⟩

end Sys2Proof.Machine
end

section
/-! PROOF. The two hash functions, rule by rule (R131 to R142): the words of a block, the rounds, the chain of blocks,
and the digest. -/

namespace Sys2Proof.Machine

open Sys2Proof.Claims

/-! ### Words and blocks -/

@[simp] theorem digestBytes_nil : digestBytes [] = [] := rfl

/-- A digest lists its words one after another, most significant byte first (R136, R142). -/
@[simp] theorem digestBytes_cons (w : Word) (ws : List Word) :
    digestBytes (w :: ws) = bigEndian w ++ digestBytes ws := by
  rw [digestBytes, List.flatMap_cons, toBE32_eq]
  rfl

/-- Word `t` of a whole block (R131). -/
theorem messageWords_eq_wordAt {block : List Byte} (h : block.length = 64) {t : Nat} (ht : t < 16) :
    (messageWords block).getD t 0 = wordAt block (4 * t) := by
  rw [messageWords_getD _ _ ht, take_four (by omega), be32_four]
  rfl

section

variable {σ : Type} (compress : σ → List Byte → σ) (init : σ) (m : List Byte)

/-- The chaining state after the first `j` blocks of a padded message (R136, R142). -/
def shaChain (j : Nat) : σ := ((shaBlocks m).take j).foldl compress init

theorem shaChain_succ {j : Nat} (h : j < (shaPad m).length / 64) :
    shaChain compress init m (j + 1) =
      compress (shaChain compress init m j) (((shaPad m).drop (64 * j)).take 64) := by
  have hj : j < (shaBlocks m).length := by rwa [shaBlocks_length]
  rw [shaChain, foldl_take_succ _ _ _ _ hj, shaBlocks_getElem]
  rfl

theorem foldl_shaBlocks : (shaBlocks m).foldl compress init = shaChain compress init m ((shaPad m).length / 64) := by
  rw [shaChain, ← shaBlocks_length, List.take_length]

end

/-! ### SHA-1 -/

/-- `f_t` as R133 lists it: the second and the fourth range share one function. -/
theorem sha1F_eq (t : Nat) (b c d : Word) :
    sha1F t b c d = if t < 20 then (b &&& c) ||| (~~~b &&& d)
      else if 40 ≤ t ∧ t < 60 then (b &&& c) ||| (b &&& d) ||| (c &&& d)
      else b ^^^ c ^^^ d := by
  by_cases h20 : t < 20
  · simp only [sha1F, if_pos h20]
  by_cases h40 : t < 40
  · have hrange : ¬ (40 ≤ t ∧ t < 60) := by omega
    simp only [sha1F, if_neg h20, if_pos h40, if_neg hrange]
  · have hrange : (40 ≤ t ∧ t < 60) ↔ t < 60 := by omega
    simp only [sha1F, if_neg h20, if_neg h40, hrange]

/-- `K_t` is the same for twenty rounds (R133). -/
theorem sha1K_eq {t : Nat} (h : t < 80) :
    sha1K t = [0x5A827999, 0x6ED9EBA1, 0x8F1BBCDC, 0xCA62C1D6].getD (t / 20) 0 := by
  have hall : ∀ t < 80, sha1K t = [0x5A827999, 0x6ED9EBA1, 0x8F1BBCDC, 0xCA62C1D6].getD (t / 20) 0 := by decide
  exact hall t h

/-- The working variables of SHA-1 after the first `t` rounds over a block (R135). -/
def sha1After (h : Sha1State) (block : List Byte) (t : Nat) : Sha1State :=
  sha1Rounds 0 ((sha1Schedule block).take t) h

theorem sha1After_succ (h : Sha1State) (block : List Byte) {t : Nat} (ht : t < 80) :
    sha1After h block (t + 1) = sha1Round t ((sha1Schedule block).getD t 0) (sha1After h block t) := by
  have hl : t < (sha1Schedule block).length := by rwa [sha1Schedule_length]
  rw [sha1After, ← List.take_append_getElem hl, sha1Rounds_append, List.length_take_of_le hl.le, Nat.zero_add,
    List.getD_eq_getElem _ _ hl]
  rfl

theorem sha1Compress_eq (h : Sha1State) (block : List Byte) :
    sha1Compress h block =
      ⟨h.a + (sha1After h block 80).a, h.b + (sha1After h block 80).b, h.c + (sha1After h block 80).c,
        h.d + (sha1After h block 80).d, h.e + (sha1After h block 80).e⟩ := by
  rw [sha1After, ← sha1Schedule_length block, List.take_length]
  rfl

/-- The examples of R136. -/
theorem hash160_examples :
    natOfBE (hash160 []) = 0xda39a3ee5e6b4b0d3255bfef95601890afd80709 ∧
    natOfBE (hash160 [0x61, 0x62, 0x63]) = 0xa9993e364706816aba3e25717850c26c9cd0d89d := by decide +kernel

/-- Settles O59: the schedule's laws, and as sequences of states the rounds and the chain over prefixes. -/
theorem hash160FollowsItsRules : Obligations.Hash160FollowsItsRules := by
  unfold Obligations.Hash160FollowsItsRules
  refine ⟨fun block hb => ⟨sha1Schedule_length block, fun t ht => ?_, fun t h16 ht => ?_⟩,
    fun h block _ => ⟨sha1After h block, rfl, fun t ht => ?_, sha1Compress_eq h block⟩,
    fun m => ⟨shaChain sha1Compress sha1Init m, rfl, fun j hj => shaChain_succ _ _ _ hj, ?_⟩, hash160_examples⟩
  · exact (sha1Schedule_message block ht).trans (messageWords_eq_wordAt hb ht)
  · exact (sha1Schedule_recurrence block h16 ht).trans (rotl32_eq_rotateLeft _ (by decide))
  · rw [sha1After_succ h block ht, sha1Round, rotl32_eq_rotateLeft _ (by decide), rotl32_eq_rotateLeft _ (by decide),
      sha1F_eq, sha1K_eq ht]
  · simp [hash160, foldl_shaBlocks]

/-! ### SHA-256 -/

/-- The initial words are square roots of primes (R137). -/
theorem initialWords_squareRoots :
    ∀ t, t < 8 → ∃ c, c ≤ 4 ∧
      (c * 2 ^ 32 + (initialWords.getD t 0).toNat) ^ 2 ≤ firstPrimes.getD t 0 * 2 ^ 64 ∧
      firstPrimes.getD t 0 * 2 ^ 64 < (c * 2 ^ 32 + (initialWords.getD t 0).toNat + 1) ^ 2 := by
  decide +kernel

/-- The round constants are cube roots of primes (R138). -/
theorem roundConstants_cubeRoots :
    ∀ t, t < 64 → ∃ c, c ≤ 6 ∧
      (c * 2 ^ 32 + (roundConstants.getD t 0).toNat) ^ 3 ≤ firstPrimes.getD t 0 * 2 ^ 96 ∧
      firstPrimes.getD t 0 * 2 ^ 96 < (c * 2 ^ 32 + (roundConstants.getD t 0).toNat + 1) ^ 3 := by
  decide +kernel

theorem sha256SSig0_eq (x : Word) : sha256SSig0 x = x.rotateRight 7 ^^^ x.rotateRight 18 ^^^ (x >>> 3) := by
  simp only [sha256SSig0, rotr32_eq_rotateRight, Nat.reduceLT]

theorem sha256SSig1_eq (x : Word) : sha256SSig1 x = x.rotateRight 17 ^^^ x.rotateRight 19 ^^^ (x >>> 10) := by
  simp only [sha256SSig1, rotr32_eq_rotateRight, Nat.reduceLT]

theorem sha256BSig0_eq (x : Word) : sha256BSig0 x = x.rotateRight 2 ^^^ x.rotateRight 13 ^^^ x.rotateRight 22 := by
  simp only [sha256BSig0, rotr32_eq_rotateRight, Nat.reduceLT]

theorem sha256BSig1_eq (x : Word) : sha256BSig1 x = x.rotateRight 6 ^^^ x.rotateRight 11 ^^^ x.rotateRight 25 := by
  simp only [sha256BSig1, rotr32_eq_rotateRight, Nat.reduceLT]

/-- The working variables of SHA-256 after the first `t` rounds over a block (R141). -/
def sha256After (h : Sha256State) (block : List Byte) (t : Nat) : Sha256State :=
  ((sha256Constants.zip (sha256Schedule block)).take t).foldl sha256Round h

theorem sha256Rounds_length (block : List Byte) : (sha256Constants.zip (sha256Schedule block)).length = 64 := by
  rw [List.length_zip, sha256Schedule_length]
  rfl

theorem sha256After_succ (h : Sha256State) (block : List Byte) {t : Nat} (ht : t < 64) :
    sha256After h block (t + 1) =
      sha256Round (sha256After h block t) (roundConstants.getD t 0, (sha256Schedule block).getD t 0) := by
  have hl : t < (sha256Constants.zip (sha256Schedule block)).length := by rwa [sha256Rounds_length]
  have hk : t < roundConstants.length := ht
  have hw : t < (sha256Schedule block).length := by rwa [sha256Schedule_length]
  rw [sha256After, foldl_take_succ _ _ _ _ hl, List.getElem_zip, List.getD_eq_getElem _ _ hk,
    List.getD_eq_getElem _ _ hw]
  rfl

theorem sha256Compress_eq (h : Sha256State) (block : List Byte) :
    sha256Compress h block =
      ⟨h.a + (sha256After h block 64).a, h.b + (sha256After h block 64).b, h.c + (sha256After h block 64).c,
        h.d + (sha256After h block 64).d, h.e + (sha256After h block 64).e, h.f + (sha256After h block 64).f,
        h.g + (sha256After h block 64).g, h.h + (sha256After h block 64).h⟩ := by
  rw [sha256After, ← sha256Rounds_length block, List.take_length]
  rfl

/-- The examples of R142. -/
theorem hash256_examples :
    natOfBE (hash256 []) = 0xe3b0c44298fc1c149afbf4c8996fb92427ae41e4649b934ca495991b7852b855 ∧
    natOfBE (hash256 [0x61, 0x62, 0x63]) = 0xba7816bf8f01cfea414140de5dae2223b00361a396177a9cb410ff61f20015ad := by
  decide +kernel

/-- Settles O60: as for O59, with the constants compared to the roots they are taken from. -/
theorem hash256FollowsItsRules : Obligations.Hash256FollowsItsRules := by
  unfold Obligations.Hash256FollowsItsRules
  refine ⟨roundConstants_cubeRoots, initialWords_squareRoots,
    fun block hb => ⟨sha256Schedule_length block, fun t ht => ?_, fun t h16 ht => ?_⟩,
    fun h block _ => ⟨sha256After h block, rfl, fun t ht => ?_, sha256Compress_eq h block⟩,
    fun m => ⟨shaChain sha256Compress sha256Init m, rfl, fun j hj => shaChain_succ _ _ _ hj, ?_⟩, hash256_examples⟩
  · exact (sha256Schedule_message block ht).trans (messageWords_eq_wordAt hb ht)
  · rw [← sha256SSig0_eq, ← sha256SSig1_eq]
    exact sha256Schedule_recurrence block h16 ht
  · rw [sha256After_succ h block ht, sha256Round, sha256BSig0_eq, sha256BSig1_eq, sha256Ch, sha256Maj]
  · simp [hash256, foldl_shaBlocks]

end Sys2Proof.Machine
end

section
/-! PROOF. The keyed digest over a hash function (R162 to R165), and its two commands (R166, R167). -/

namespace Sys2Proof.Machine

open Sys2Proof.Claims

/-! ### The construction -/

theorem hmacKey_of_length_le (hash : List Byte → List Byte) {secret : List Byte} (h : secret.length ≤ 64) :
    hmacKey hash secret = secret ++ List.replicate (64 - secret.length) 0 := by
  simp only [hmacKey, if_neg (Nat.not_lt.2 h), rep]

theorem hmacKey_of_lt_length (hash : List Byte → List Byte) {secret : List Byte} (h : 64 < secret.length) :
    hmacKey hash secret = hash secret ++ List.replicate (64 - (hash secret).length) 0 := by
  simp only [hmacKey, if_pos h, rep]

/-- A pad of 64 bytes meets every byte of a key block (R163, R164). -/
theorem innerPad_eq_map {k0 : List Byte} (h : k0.length = 64) : innerPad k0 = k0.map (· ^^^ 0x36) := by
  rw [innerPad, ← h, xorBytes_rep]

theorem outerPad_eq_map {k0 : List Byte} (h : k0.length = 64) : outerPad k0 = k0.map (· ^^^ 0x5c) := by
  rw [outerPad, ← h, xorBytes_rep]

/-- A hash function whose digests fit a key block makes a keyed digest of R162 to R165. -/
theorem hmacRules_of_length_le {hash : List Byte → List Byte} (h : ∀ m, (hash m).length ≤ 64) : HmacRules hash := by
  intro secret message
  have hlen : (hmacKey hash secret).length = 64 := hmacKey_length h secret
  refine ⟨hmacKey hash secret, hlen, hmacKey_of_length_le hash, hmacKey_of_lt_length hash, ?_⟩
  rw [hmac, innerPad_eq_map hlen, outerPad_eq_map hlen]

/-- The examples of R165. -/
theorem hmac_examples :
    natOfBE (hmac hash160 (List.replicate 20 0x0b) [0x48, 0x69, 0x20, 0x54, 0x68, 0x65, 0x72, 0x65]) =
      0xb617318655057264e28bc0b6fb378c8ef146be00 ∧
    natOfBE (hmac hash256 (List.replicate 20 0x0b) [0x48, 0x69, 0x20, 0x54, 0x68, 0x65, 0x72, 0x65]) =
      0xb0344c61d8db38535ca8afceaf0bf12b881dc200c9833da726e9376c2e32cff7 := by
  decide +kernel

/-! ### Commands -/

/-- Settles O35: the bodies of both commands are keyed digests of what they read in `AUX` and `IN`, and both hash
functions have digests that fit a key block. -/
theorem keyedDigestsAuthenticateTheInput : Obligations.KeyedDigestsAuthenticateTheInput := by
  unfold Obligations.KeyedDigestsAuthenticateTheInput
  refine ⟨decode_encode .kdig160, decode_encode .kdig256, fun s hinv => ⟨fun haux hin => ?_, fun hover => ?_⟩,
    hmacRules_of_length_le fun m => by rw [hash160_length]; decide,
    hmacRules_of_length_le fun m => by rw [hash256_length]; decide, hmac_examples⟩
  · have hsecret : auxStar s = s.aux.readRange 0 s.auxLen.toNat := map_bufRead_aux haux
    have hmessage : inStar s = s.input.readRange 0 s.inLen.toNat := map_bufRead_input hin
    rw [hsecret, hmessage]
    exact ⟨completesWith_of_bodyOf (r := .ofData (hmac hash160 _ _)) hinv nofun rfl ⟨fun _ => hin, fun _ => haux⟩
        nofun rfl, hmac_hash160_length _ _,
      completesWith_of_bodyOf (r := .ofData (hmac hash256 _ _)) hinv nofun rfl ⟨fun _ => hin, fun _ => haux⟩
        nofun rfl, hmac_hash256_length _ _⟩
  · have hnot : ¬ (s.inLen.toNat ≤ s.params.inCap ∧ s.auxLen.toNat ≤ s.params.auxCap) := by omega
    exact ⟨failsWith_of_out_of_range fun h => hnot ⟨h.1 rfl, h.2 rfl⟩,
      failsWith_of_out_of_range fun h => hnot ⟨h.1 rfl, h.2 rfl⟩⟩

end Sys2Proof.Machine
end

section
/-! PROOF. The byte field and the substitution tables (R181 to R183), and the key schedule (R184, R186). -/

namespace Sys2Proof.Machine

open Sys2Proof.Claims

/-! ### Tables -/

/-- The affine map of R182. -/
def affineMap (b : Byte) : Byte :=
  b ^^^ b.rotateLeft 1 ^^^ b.rotateLeft 2 ^^^ b.rotateLeft 3 ^^^ b.rotateLeft 4 ^^^ 0x63

/-- The inverse of the affine map. -/
def affineInverse (v : Byte) : Byte := v.rotateLeft 1 ^^^ v.rotateLeft 3 ^^^ v.rotateLeft 6 ^^^ 0x05

theorem affineMap_affineInverse : ∀ v : Byte, affineMap (affineInverse v) = v := by decide +kernel

/-- A table entry, taken back through the affine map, is the inverse of its index (R182). -/
theorem gmul_affineInverse_sbox : ∀ a : Byte, a ≠ 0 → gmul a (affineInverse (sbox a)) = 1 := by decide +kernel

/-- The two tables undo each other (R183). -/
@[simp] theorem invSbox_sbox : ∀ a : Byte, invSbox (sbox a) = a := by decide +kernel

@[simp] theorem sbox_invSbox : ∀ a : Byte, sbox (invSbox a) = a := by decide +kernel

/-- Settles O38: the inverse of an index is read off its table entry. -/
theorem substitutionTables : Obligations.SubstitutionTables := by
  unfold Obligations.SubstitutionTables
  exact ⟨xtime_toNat, gmul_eq_foldl, by decide, by decide, by decide,
    fun a ha => ⟨affineInverse (sbox a), gmul_affineInverse_sbox a ha, (affineMap_affineInverse (sbox a)).symm⟩,
    fun a => ⟨invSbox_sbox a, sbox_invSbox a⟩⟩

/-! ### Key schedule -/

theorem extendKey_length (n i : Nat) (ws : List Column) : (extendKey n i ws).length = ws.length + n := by
  induction n generalizing i ws with
  | zero => rfl
  | succ n ih => rw [extendKey, ih, List.length_cons]; omega

/-- The last of the `n + 1` new words comes from the words before it. -/
theorem extendKey_succ (n i : Nat) (ws : List Column) :
    extendKey (n + 1) i ws = ((extendKey n i ws).getD 3 .zero).xor
      (scheduleTerm (i + n) ((extendKey n i ws).getD 0 .zero)) :: extendKey n i ws := by
  induction n generalizing i ws with
  | zero => rfl
  | succ n ih => rw [extendKey, ih, show i + 1 + n = i + (n + 1) by omega]; rfl

/-- Words once made stay. -/
theorem extendKey_suffix {m n : Nat} (h : m ≤ n) (i : Nat) (ws : List Column) :
    extendKey m i ws <:+ extendKey n i ws := by
  induction n, h using Nat.le_induction with
  | base => exact List.suffix_rfl
  | succ n _ ih => rw [extendKey_succ]; exact ih.trans (List.suffix_cons ..)

/-- The first `n + 4` words of a key schedule, newest first. -/
def scheduleSoFar (k : Block) (n : Nat) : List Column := extendKey n 4 [k.c3, k.c2, k.c1, k.c0]

theorem scheduleSoFar_length (k : Block) (n : Nat) : (scheduleSoFar k n).length = n + 4 := by
  rw [scheduleSoFar, extendKey_length, Nat.add_comm]; rfl

theorem keySchedule_length (k : Block) : (keySchedule k).length = 44 := by
  rw [keySchedule, List.length_reverse, extendKey_length]; rfl

/-- The words made first are the first of the schedule. -/
theorem keySchedule_take (k : Block) {n : Nat} (h : n ≤ 40) :
    (keySchedule k).take (n + 4) = (scheduleSoFar k n).reverse := by
  have hp : (scheduleSoFar k n).reverse <+: keySchedule k := List.reverse_prefix.2 (extendKey_suffix h ..)
  rw [List.prefix_iff_eq_take.1 hp, List.length_reverse, scheduleSoFar_length]

theorem keySchedule_getD (k : Block) {n j : Nat} (h : n ≤ 40) (hj : j < n + 4) :
    (keySchedule k).getD j .zero = (scheduleSoFar k n).getD (n + 3 - j) .zero := by
  have hl : j < (scheduleSoFar k n).length := by rwa [scheduleSoFar_length]
  rw [List.getD_eq_getElem?_getD, ← List.getElem?_take_of_lt hj, keySchedule_take k h, List.getElem?_reverse hl,
    scheduleSoFar_length, List.getD_eq_getElem?_getD, show n + 4 - 1 - j = n + 3 - j by omega]

/-- The recurrence of R186. -/
theorem keySchedule_recurrence (k : Block) {i : Nat} (h4 : 4 ≤ i) (hi : i < 44) :
    (keySchedule k).getD i .zero =
      ((keySchedule k).getD (i - 4) .zero).xor (scheduleTerm i ((keySchedule k).getD (i - 1) .zero)) := by
  obtain ⟨n, rfl⟩ := Nat.exists_eq_add_of_le h4
  rw [keySchedule_getD k (n := n + 1) (by omega) (by omega), keySchedule_getD k (n := n) (by omega) (by omega),
    keySchedule_getD k (n := n) (by omega) (by omega), scheduleSoFar, extendKey_succ,
    show n + 1 + 3 - (4 + n) = 0 by omega, show n + 3 - (4 + n - 4) = 3 by omega,
    show n + 3 - (4 + n - 1) = 0 by omega]
  rfl

/-- The recurrence, byte by byte. -/
theorem xor_scheduleTerm (i : Nat) (base prev : Column) :
    base.xor (scheduleTerm i prev) =
      if i % 4 = 0 then
        ⟨base.r0 ^^^ (sbox prev.r1 ^^^ rcon (i / 4)), base.r1 ^^^ sbox prev.r2, base.r2 ^^^ sbox prev.r3,
          base.r3 ^^^ sbox prev.r0⟩
      else ⟨base.r0 ^^^ prev.r0, base.r1 ^^^ prev.r1, base.r2 ^^^ prev.r2, base.r3 ^^^ prev.r3⟩ := by
  unfold scheduleTerm
  split
  · simp [Column.xor, subWord, rotWord]
  · rfl

/-- A round key is the bytes of four words in a row (R186). -/
theorem blockBytes_roundKey {w : List Column} {j : Nat} (h : 4 * j + 4 ≤ w.length) :
    blockBytes (roundKey w j) = ((w.drop (4 * j)).take 4).flatMap columnBytes := by
  have hget : ∀ r, w.getD (4 * j + r) .zero = (w.drop (4 * j)).getD r .zero := by
    simp [List.getD_eq_getElem?_getD, List.getElem?_drop]
  have hlen : 4 ≤ (w.drop (4 * j)).length := by rw [List.length_drop]; omega
  have hzero := hget 0
  rw [Nat.add_zero] at hzero
  rw [roundKey, hzero, hget, hget, hget]
  match w.drop (4 * j), hlen with
  | _ :: _ :: _ :: _ :: _, _ => rfl

/-- The examples of R186. -/
theorem keySchedule_examples :
    ((keySchedule sampleKey).drop 4).take 4 = [⟨0xa0, 0xfa, 0xfe, 0x17⟩, ⟨0x88, 0x54, 0x2c, 0xb1⟩,
      ⟨0x23, 0xa3, 0x39, 0x39⟩, ⟨0x2a, 0x6c, 0x76, 0x05⟩] ∧
    (keySchedule sampleKey).drop 43 = [⟨0xb6, 0x63, 0x0c, 0xa6⟩] ∧
    natOfBE (blockBytes (roundKey (keySchedule countingKey) 1)) = 0xd6aa74fdd2af72fadaa678f1d6ab76fe ∧
    natOfBE (blockBytes (roundKey (keySchedule countingKey) 10)) = 0x13111d7fe3944a17f307a78b4d2b30c5 := by
  decide +kernel

/-- Settles O39: the schedule is extended word by word, and a word once made stays. -/
theorem keyScheduleRecurrence : Obligations.KeyScheduleRecurrence := by
  unfold Obligations.KeyScheduleRecurrence
  refine ⟨rfl, by decide, fun k => ⟨keySchedule_length k, keySchedule_take k (Nat.zero_le 40), fun i h4 hi => ?_,
    fun j hj => ?_⟩, keySchedule_examples⟩
  · exact (keySchedule_recurrence k h4 hi).trans (xor_scheduleTerm i _ _)
  · exact blockBytes_roundKey (by rw [keySchedule_length]; omega)

end Sys2Proof.Machine
end

section
/-! PROOF. The round transformations (R187 to R191) and the block cipher (R192 to R194): each step
is undone by its inverse. -/

namespace Sys2Proof.Machine

open Sys2Proof.Claims

/-! ### The two column transformations -/

/-- Both column transformations add up over sums. -/
theorem mixColumn_xor (a b : Column) : mixColumn (a.xor b) = (mixColumn a).xor (mixColumn b) := by
  simp only [mixColumn, Column.xor, gmul_xor, Column.mk.injEq]
  exact ⟨by ac_rfl, by ac_rfl, by ac_rfl, by ac_rfl⟩

theorem invMixColumn_xor (a b : Column) : invMixColumn (a.xor b) = (invMixColumn a).xor (invMixColumn b) := by
  simp only [invMixColumn, Column.xor, gmul_xor, Column.mk.injEq]
  exact ⟨by ac_rfl, by ac_rfl, by ac_rfl, by ac_rfl⟩

/-- Both do the same in every row, one row further on. -/
theorem mixColumn_rotWord (a : Column) : mixColumn (rotWord a) = rotWord (mixColumn a) := by
  simp only [mixColumn, rotWord, Column.mk.injEq]
  exact ⟨by ac_rfl, by ac_rfl, by ac_rfl, by ac_rfl⟩

theorem invMixColumn_rotWord (a : Column) : invMixColumn (rotWord a) = rotWord (invMixColumn a) := by
  simp only [invMixColumn, rotWord, Column.mk.injEq]
  exact ⟨by ac_rfl, by ac_rfl, by ac_rfl, by ac_rfl⟩

/-- A column is the sum of its bytes, each brought to its row. -/
theorem column_eq_xor (a : Column) :
    a = ((⟨a.r0, 0, 0, 0⟩ : Column).xor (rotWord (rotWord (rotWord ⟨a.r1, 0, 0, 0⟩)))).xor
      ((rotWord (rotWord ⟨a.r2, 0, 0, 0⟩)).xor (rotWord ⟨a.r3, 0, 0, 0⟩)) := by
  simp [Column.xor, rotWord]

/-- A map of columns that adds up over sums, and does the same in every row, leaves all columns alone if it leaves
alone those with three zero bytes. -/
theorem column_map_eq_self {f : Column → Column} (hxor : ∀ a b, f (a.xor b) = (f a).xor (f b))
    (hrot : ∀ a, f (rotWord a) = rotWord (f a)) (hbyte : ∀ b, f ⟨b, 0, 0, 0⟩ = ⟨b, 0, 0, 0⟩) (a : Column) :
    f a = a := by
  rw [column_eq_xor a]
  simp only [hxor, hrot, hbyte]

/-- The products of the two coefficient rows of R190 and R191, byte by byte. -/
theorem invMixColumn_mixColumn_byte : ∀ b : Byte, invMixColumn (mixColumn ⟨b, 0, 0, 0⟩) = ⟨b, 0, 0, 0⟩ := by
  decide +kernel

theorem mixColumn_invMixColumn_byte : ∀ b : Byte, mixColumn (invMixColumn ⟨b, 0, 0, 0⟩) = ⟨b, 0, 0, 0⟩ := by
  decide +kernel

@[simp] theorem invMixColumn_mixColumn (a : Column) : invMixColumn (mixColumn a) = a :=
  column_map_eq_self (f := fun a => invMixColumn (mixColumn a))
    (fun a b => by rw [mixColumn_xor, invMixColumn_xor]) (fun a => by rw [mixColumn_rotWord, invMixColumn_rotWord])
    invMixColumn_mixColumn_byte a

@[simp] theorem mixColumn_invMixColumn (a : Column) : mixColumn (invMixColumn a) = a :=
  column_map_eq_self (f := fun a => mixColumn (invMixColumn a))
    (fun a b => by rw [invMixColumn_xor, mixColumn_xor]) (fun a => by rw [invMixColumn_rotWord, mixColumn_rotWord])
    mixColumn_invMixColumn_byte a

/-- `InvMixColumns` undoes `MixColumns`, and the other way round (R191). -/
@[simp] theorem invMixColumns_mixColumns (s : Block) : invMixColumns (mixColumns s) = s := by
  simp [invMixColumns, mixColumns]

@[simp] theorem mixColumns_invMixColumns (s : Block) : mixColumns (invMixColumns s) = s := by
  simp [invMixColumns, mixColumns]

/-- Settles O40: the equations hold column by column; the inverses by linearity, from single bytes. -/
theorem invMixColumnsUndoesMixColumns : Obligations.InvMixColumnsUndoesMixColumns := by
  unfold Obligations.InvMixColumnsUndoesMixColumns
  refine ⟨fun s c hc => ?_, fun s => ⟨invMixColumns_mixColumns s, mixColumns_invMixColumns s⟩, by decide +kernel,
    by decide +kernel⟩
  match c, hc with
  | 0, _ | 1, _ | 2, _ | 3, _ => exact ⟨rfl, rfl, rfl, rfl, rfl, rfl, rfl, rfl⟩

/-! ### The other round transformations -/

/-- A map of bytes undone byte by byte is undone on blocks. -/
theorem mapBlock_mapBlock {f g : Byte → Byte} (h : ∀ a, g (f a) = a) (s : Block) :
    mapBlock g (mapBlock f s) = s := by
  simp [mapBlock, mapColumn, h]

/-- `InvSubBytes` undoes `SubBytes`, and the other way round (R188). -/
@[simp] theorem invSubBytes_subBytes (s : Block) : invSubBytes (subBytes s) = s := mapBlock_mapBlock invSbox_sbox s

@[simp] theorem subBytes_invSubBytes (s : Block) : subBytes (invSubBytes s) = s := mapBlock_mapBlock sbox_invSbox s

theorem byteOf_mapBlock (f : Byte → Byte) (s : Block) {i : Nat} (h : i < 16) :
    byteOf (mapBlock f s) i = f (byteOf s i) := by
  have hmap : blockBytes (mapBlock f s) = (blockBytes s).map f := rfl
  rw [byteOf, byteOf, hmap, List.getD_eq_getElem _ _ (by simpa using h), List.getD_eq_getElem _ _ (by simpa using h),
    List.getElem_map]

theorem byteOf_xor (s t : Block) {i : Nat} (h : i < 16) : byteOf (s.xor t) i = byteOf s i ^^^ byteOf t i := by
  have hzip : blockBytes (s.xor t) = List.zipWith (· ^^^ ·) (blockBytes s) (blockBytes t) := rfl
  rw [byteOf, byteOf, byteOf, hzip, List.getD_eq_getElem _ _ (by simpa using h),
    List.getD_eq_getElem _ _ (by simpa using h), List.getD_eq_getElem _ _ (by simpa using h), List.getElem_zipWith]

/-- The formulas of R189. -/
theorem byteOf_shiftRows (s : Block) {r c : Nat} (hr : r < 4) (hc : c < 4) :
    byteOf (shiftRows s) (r + 4 * c) = byteOf s (r + 4 * ((c + r) % 4)) ∧
    byteOf (invShiftRows s) (r + 4 * c) = byteOf s (r + 4 * ((c + 4 - r) % 4)) := by
  interval_cases r <;> interval_cases c <;> exact ⟨rfl, rfl⟩

/-! ### The rounds -/

/-- A decryption round, met between the substitutions of an encryption round, undoes it (R193). -/
theorem decryptRound_encryptRound (w : List Column) (s : Block) (j : Nat) :
    decryptRound w (shiftRows (subBytes (encryptRound w s j))) j = shiftRows (subBytes s) := by
  simp [decryptRound, encryptRound]

theorem encryptRound_decryptRound (w : List Column) (s : Block) (j : Nat) :
    encryptRound w (invSubBytes (invShiftRows (decryptRound w s j))) j = invSubBytes (invShiftRows s) := by
  simp [decryptRound, encryptRound]

/-- Steps `f` that steps `g` undo, seen through `h`: all of them, undone in the opposite order. -/
theorem foldl_reverse_foldl {α β : Type} {f g : β → α → β} {h : β → β} (hstep : ∀ s j, g (h (f s j)) j = h s)
    (js : List α) (s : β) : js.reverse.foldl g (h (js.foldl f s)) = h s := by
  induction js generalizing s with
  | nil => rfl
  | cons j js ih =>
    rw [List.reverse_cons, List.foldl_append]
    exact (congrArg (g · j) (ih (f s j))).trans (hstep s j)

/-- Decryption undoes encryption, and the other way round (R194). -/
@[simp] theorem aesDecryptBlock_aesEncryptBlock (k x : Block) : aesDecryptBlock k (aesEncryptBlock k x) = x := by
  have hrounds := foldl_reverse_foldl (h := fun s => shiftRows (subBytes s))
    (decryptRound_encryptRound (keySchedule k)) [1, 2, 3, 4, 5, 6, 7, 8, 9]
  simp only [List.reverse_cons, List.reverse_nil, List.nil_append, List.cons_append] at hrounds
  simp only [aesDecryptBlock, aesEncryptBlock, addRoundKey_addRoundKey, hrounds, invShiftRows_shiftRows,
    invSubBytes_subBytes]

@[simp] theorem aesEncryptBlock_aesDecryptBlock (k y : Block) : aesEncryptBlock k (aesDecryptBlock k y) = y := by
  have hrounds := foldl_reverse_foldl (h := fun s => invSubBytes (invShiftRows s))
    (encryptRound_decryptRound (keySchedule k)) [9, 8, 7, 6, 5, 4, 3, 2, 1]
  simp only [List.reverse_cons, List.reverse_nil, List.nil_append, List.cons_append] at hrounds
  simp only [aesDecryptBlock, aesEncryptBlock, addRoundKey_addRoundKey, hrounds, shiftRows_invShiftRows,
    subBytes_invSubBytes]

/-- The state of encryption after the rounds 1 to `j` (R192). -/
def encryptState (k x : Block) (j : Nat) : Block :=
  (List.range' 1 j).foldl (encryptRound (keySchedule k)) (addRoundKey x (roundKey (keySchedule k) 0))

theorem encryptState_succ (k x : Block) (j : Nat) :
    encryptState k x (j + 1) = encryptRound (keySchedule k) (encryptState k x j) (j + 1) := by
  rw [encryptState, List.range'_1_concat, List.foldl_append, Nat.add_comm 1 j]
  rfl

/-- The state of decryption after the rounds 9 down to `j` (R193). -/
def decryptState (k y : Block) (j : Nat) : Block :=
  (List.range' j (10 - j)).reverse.foldl (decryptRound (keySchedule k)) (addRoundKey y (roundKey (keySchedule k) 10))

theorem decryptState_of_lt (k y : Block) {j : Nat} (h : j < 10) :
    decryptState k y j = decryptRound (keySchedule k) (decryptState k y (j + 1)) j := by
  rw [decryptState, show 10 - j = (10 - (j + 1)) + 1 by omega, List.range'_succ, List.reverse_cons, List.foldl_append]
  rfl

/-- The examples of R192 and R193. -/
theorem aesBlock_examples :
    natOfBE (blockBytes (aesEncryptBlock countingKey (blockOfBytes
      [0x00, 0x11, 0x22, 0x33, 0x44, 0x55, 0x66, 0x77, 0x88, 0x99, 0xaa, 0xbb, 0xcc, 0xdd, 0xee, 0xff]))) =
        0x69c4e0d86a7b0430d8cdb78070b4c55a ∧
    natOfBE (blockBytes (aesDecryptBlock countingKey (blockOfBytes
      [0x69, 0xc4, 0xe0, 0xd8, 0x6a, 0x7b, 0x04, 0x30, 0xd8, 0xcd, 0xb7, 0x80, 0x70, 0xb4, 0xc5, 0x5a]))) =
        0x00112233445566778899aabbccddeeff := by
  decide +kernel

/-- Settles O41: byte by byte the transformations, as folds over their numbers the rounds; each round undoes its
own. -/
theorem blockCipherIsInvertible : Obligations.BlockCipherIsInvertible := by
  unfold Obligations.BlockCipherIsInvertible
  exact ⟨fun s rk i hi => ⟨byteOf_xor s rk hi, byteOf_xor s rk hi, byteOf_mapBlock sbox s hi,
      byteOf_mapBlock invSbox s hi⟩,
    fun s rk => ⟨addRoundKey_addRoundKey s rk, rfl, rfl⟩,
    fun s r c hr hc => byteOf_shiftRows s hr hc,
    fun k x => ⟨encryptState k x, rfl, fun j _ => encryptState_succ k x j, rfl⟩,
    fun k y => ⟨decryptState k y, rfl, fun j _ hj => decryptState_of_lt k y (Nat.lt_succ_of_le hj), rfl⟩,
    fun k x => ⟨aesDecryptBlock_aesEncryptBlock k x, aesEncryptBlock_aesDecryptBlock k x⟩, aesBlock_examples⟩

end Sys2Proof.Machine
end

section
/-! PROOF. Padding (R196 to R198) and the two cipher modes (R201 to R205, R213). -/

namespace Sys2Proof.Machine

open Sys2Proof.Claims

/-! ### Padding -/

/-- `Unpad` says yes when as many last bytes as the last byte names hold it, and the padder makes that many (R197). -/
theorem unpad_append_replicate (p : List Byte) {n : Nat} (h1 : 1 ≤ n) (h16 : n ≤ 16) :
    unpad (p ++ List.replicate n (BitVec.ofNat 8 n)) = .ok p := by
  have hlast : (p ++ List.replicate n (BitVec.ofNat 8 n)).getD (p.length + n - 1) 0 = BitVec.ofNat 8 n := by
    rw [List.getD_append_right _ _ _ _ (by omega), List.getD_replicate _ (by omega)]
  have hn : (BitVec.ofNat 8 n).toNat = n := by rw [BitVec.toNat_ofNat]; omega
  have hrange : ¬ (n = 0 ∨ 16 < n) := by omega
  simp only [unpad, List.length_append, List.length_replicate, hlast, hn, if_neg hrange, Nat.add_sub_cancel,
    List.drop_left, List.take_left, List.all_replicate, BEq.rfl, ite_self, if_true]

/-- What `Unpad` takes off is copies of their number (R197). -/
theorem eq_append_of_unpad {q p : List Byte} (hq : 16 ≤ q.length) (h : unpad q = .ok p) :
    ∃ n, 1 ≤ n ∧ n ≤ 16 ∧ q = p ++ List.replicate n (BitVec.ofNat 8 n) := by
  generalize hb : q.getD (q.length - 1) 0 = b
  simp only [unpad, hb] at h
  split at h
  · cases h
  next hrange =>
    split at h
    · next hall =>
      cases h
      have hlen : (q.drop (q.length - b.toNat)).length = b.toNat := by rw [List.length_drop]; omega
      have hpad : q.drop (q.length - b.toNat) = List.replicate b.toNat b :=
        List.eq_replicate_iff.2 ⟨hlen, by simpa using hall⟩
      refine ⟨b.toNat, by omega, by omega, ?_⟩
      rw [BitVec.ofNat_toNat, BitVec.setWidth_eq, ← hpad, List.take_append_drop]
    · cases h

/-- `Unpad` undoes `Pad` (R198). -/
@[simp] theorem unpad_pad (p : List Byte) : unpad (pad p) = .ok p := by
  obtain ⟨h1, h16, _⟩ := padCount_spec p.length
  exact unpad_append_replicate p h1 h16

/-- Settles O42: the padder's count is one that `Unpad` takes. -/
theorem unpadUndoesPad : Obligations.UnpadUndoesPad := by
  unfold Obligations.UnpadUndoesPad
  exact fun p => ⟨pad_length p, unpad_pad p⟩

/-- Settles O43: what `Unpad` takes off is padding, and padding it takes off. -/
theorem unpadAcceptsExactlyConsistentPadding : Obligations.UnpadAcceptsExactlyConsistentPadding := by
  unfold Obligations.UnpadAcceptsExactlyConsistentPadding
  refine fun q hq h16 => ⟨fun p => ⟨eq_append_of_unpad (by omega), ?_⟩, fun e => unpad_error⟩
  rintro ⟨n, h1, hn, rfl⟩
  exact unpad_append_replicate p h1 hn

/-! ### Modes -/

/-- Block `j` of the bytes of blocks, and of a sequence cut into blocks (R200). -/
theorem blockAt_bytesOf {bs : List Block} {j : Nat} (h : j < bs.length) : blockAt (bytesOf bs) j = bs.getD j .zero :=
  bytesOf_block bs h

theorem getD_blocksOf {q : List Byte} {j : Nat} (h : j < q.length / 16) : (blocksOf q).getD j .zero = blockAt q j :=
  blocksOf_getD q h

/-- A map of the blocks of a sequence, block by block. -/
theorem getD_map_blocksOf (f : Block → Block) {q : List Byte} {j : Nat} (h : j < q.length / 16) :
    ((blocksOf q).map f).getD j .zero = f (blockAt q j) := by
  have hj : j < (blocksOf q).length := by rwa [blocksOf_length]
  rw [← getD_blocksOf h, List.getD_eq_getElem _ _ (by rwa [List.length_map]), List.getElem_map,
    List.getD_eq_getElem _ _ hj]

theorem Block.xor_zero (b : Block) : b.xor .zero = b := by
  simp [Block.xor, Column.xor, Block.zero, Column.zero]

section

variable (k : Block)

/-! #### Encryption -/

section

variable (p : List Byte)

theorem blocksOf_pad_length : (blocksOf (pad p)).length = p.length / 16 + 1 := by
  rw [blocksOf_length, pad_length, Nat.mul_div_cancel_left _ (by decide)]

/-- The recurrence of R201, over the bytes of the ciphertext. -/
theorem blockAt_cbcEncrypt {j : Nat} (hj : j < p.length / 16 + 1) :
    blockAt (cbcEncrypt k p) j =
      aesEncryptBlock k ((blockAt (pad p) j).xor (if j = 0 then .zero else blockAt (cbcEncrypt k p) (j - 1))) := by
  have hp : j < (blocksOf (pad p)).length := by rwa [blocksOf_pad_length]
  have hc : ∀ i ≤ j, blockAt (cbcEncrypt k p) i = (cbcEncryptBlocks k zeroIv (blocksOf (pad p))).getD i .zero :=
    fun i hi => blockAt_bytesOf (by rw [cbcEncryptBlocks_length]; omega)
  rw [hc j le_rfl, hc (j - 1) (Nat.sub_le j 1), cbcEncryptBlocks_getD k zeroIv _ hp,
    getD_blocksOf (by rwa [← blocksOf_length])]
  rfl

/-- Each block alone (R204). -/
theorem blockAt_ecbEncrypt {j : Nat} (hj : j < p.length / 16 + 1) :
    blockAt (ecbEncrypt k p) j = aesEncryptBlock k (blockAt (pad p) j) := by
  have hp : j < (blocksOf (pad p)).length := by rwa [blocksOf_pad_length]
  rw [ecbEncrypt, blockAt_bytesOf (by rwa [List.length_map]), getD_map_blocksOf _ (by rwa [← blocksOf_length])]

/-- A plaintext that makes one block is encrypted alike in both modes. -/
theorem ecbEncrypt_eq_cbcEncrypt (h : p.length ≤ 15) : ecbEncrypt k p = cbcEncrypt k p := by
  have hone : (blocksOf (pad p)).length = 1 := by rw [blocksOf_pad_length]; omega
  obtain ⟨b, hb⟩ := List.length_eq_one_iff.1 hone
  simp only [ecbEncrypt, cbcEncrypt, hb, List.map_cons, List.map_nil, cbcEncryptBlocks, zeroIv, Block.xor_zero]

end

/-! #### Decryption -/

section

variable {c : List Byte}

/-- The length check of R203. -/
theorem cbcDecrypt_of_badLength (h : c.length = 0 ∨ c.length % 16 ≠ 0) : cbcDecrypt k c = .error .inputLength := by
  rw [cbcDecrypt, if_neg (by rw [ciphertextLengthOk_iff]; omega)]

theorem ecbDecrypt_of_badLength (h : c.length = 0 ∨ c.length % 16 ≠ 0) : ecbDecrypt k c = .error .inputLength := by
  rw [ecbDecrypt, if_neg (by rw [ciphertextLengthOk_iff]; omega)]

theorem cbcDecrypt_of_wholeBlocks (h0 : c.length ≠ 0) (h16 : c.length % 16 = 0) :
    cbcDecrypt k c = unpad (bytesOf (cbcDecryptBlocks k zeroIv (blocksOf c))) := by
  rw [cbcDecrypt, if_pos ((ciphertextLengthOk_iff c).2 ⟨h0, h16⟩)]

theorem ecbDecrypt_of_wholeBlocks (h0 : c.length ≠ 0) (h16 : c.length % 16 = 0) :
    ecbDecrypt k c = unpad (bytesOf ((blocksOf c).map (aesDecryptBlock k))) := by
  rw [ecbDecrypt, if_pos ((ciphertextLengthOk_iff c).2 ⟨h0, h16⟩)]

/-- As many blocks as a sequence of whole blocks has are as many bytes. -/
theorem bytesOf_length_of_wholeBlocks (h16 : c.length % 16 = 0) {bs : List Block}
    (h : bs.length = (blocksOf c).length) : (bytesOf bs).length = c.length := by
  rw [bytesOf_length, h, blocksOf_length]; omega

/-- The recurrence of R202, over the bytes of the ciphertext. -/
theorem blockAt_cbcDecryptBlocks {j : Nat} (hj : j < c.length / 16) :
    blockAt (bytesOf (cbcDecryptBlocks k zeroIv (blocksOf c))) j =
      (aesDecryptBlock k (blockAt c j)).xor (if j = 0 then .zero else blockAt c (j - 1)) := by
  have hl : j < (blocksOf c).length := by rwa [blocksOf_length]
  rw [blockAt_bytesOf (by rwa [cbcDecryptBlocks_length]), cbcDecryptBlocks_getD k zeroIv _ hl, getD_blocksOf hj,
    getD_blocksOf (by omega : j - 1 < c.length / 16)]
  rfl

/-- Each block alone (R205). -/
theorem blockAt_ecbDecryptBlocks {j : Nat} (hj : j < c.length / 16) :
    blockAt (bytesOf ((blocksOf c).map (aesDecryptBlock k))) j = aesDecryptBlock k (blockAt c j) := by
  rw [blockAt_bytesOf (by rwa [List.length_map, blocksOf_length]), getD_map_blocksOf _ hj]

end

/-! #### Round trips -/

/-- Decryption of the blocks undoes their encryption, from the same chaining block on. -/
theorem cbcDecryptBlocks_cbcEncryptBlocks (chain : Block) (qs : List Block) :
    cbcDecryptBlocks k chain (cbcEncryptBlocks k chain qs) = qs := by
  induction qs generalizing chain with
  | nil => rfl
  | cons q qs ih =>
    simp only [cbcEncryptBlocks, cbcDecryptBlocks, ih, aesDecryptBlock_aesEncryptBlock, Block.xor_self_right]

@[simp] theorem cbcDecrypt_cbcEncrypt (p : List Byte) : cbcDecrypt k (cbcEncrypt k p) = .ok p := by
  have hlen := cbcEncrypt_length k p
  rw [cbcDecrypt_of_wholeBlocks k (by omega) (by omega), cbcEncrypt, blocksOf_bytesOf,
    cbcDecryptBlocks_cbcEncryptBlocks, bytesOf_blocksOf (by rw [pad_length]; omega), unpad_pad]

@[simp] theorem ecbDecrypt_ecbEncrypt (p : List Byte) : ecbDecrypt k (ecbEncrypt k p) = .ok p := by
  have hlen := ecbEncrypt_length k p
  have hinv : aesDecryptBlock k ∘ aesEncryptBlock k = id := funext (aesDecryptBlock_aesEncryptBlock k)
  rw [ecbDecrypt_of_wholeBlocks k (by omega) (by omega), ecbEncrypt, blocksOf_bytesOf, List.map_map, hinv, List.map_id,
    bytesOf_blocksOf (by rw [pad_length]; omega), unpad_pad]

end

/-- The examples of R201 and R202. -/
theorem cbc_examples :
    natOfBE (cbcEncrypt countingKey []) = 0x954f64f2e4e86e9eee82d20216684899 ∧
    cbcDecrypt countingKey
      [0x95, 0x4f, 0x64, 0xf2, 0xe4, 0xe8, 0x6e, 0x9e, 0xee, 0x82, 0xd2, 0x02, 0x16, 0x68, 0x48, 0x99] = .ok [] := by
  decide +kernel

/-- Settles O44: block by block both modes, the length check, and the round trips of blocks and of padding. -/
theorem cipherModesRoundTrip : Obligations.CipherModesRoundTrip := by
  unfold Obligations.CipherModesRoundTrip
  exact ⟨fun k p => ⟨cbcEncrypt_length k p, ecbEncrypt_length k p,
      fun j hj => ⟨blockAt_cbcEncrypt k p hj, blockAt_ecbEncrypt k p hj⟩⟩,
    fun k c h => ⟨cbcDecrypt_of_badLength k h, ecbDecrypt_of_badLength k h⟩,
    fun k c h0 h16 => ⟨cbcDecrypt_of_wholeBlocks k h0 h16, ecbDecrypt_of_wholeBlocks k h0 h16,
      bytesOf_length_of_wholeBlocks h16 (cbcDecryptBlocks_length k _ _),
      bytesOf_length_of_wholeBlocks h16 (List.length_map _),
      fun j hj => ⟨blockAt_cbcDecryptBlocks k hj, blockAt_ecbDecryptBlocks k hj⟩⟩,
    fun k p => ⟨cbcDecrypt_cbcEncrypt k p, ecbDecrypt_ecbEncrypt k p, ecbEncrypt_eq_cbcEncrypt k p⟩,
    cbc_examples⟩

/-! ### A changed ciphertext block -/

section

variable {k chain : Block}

theorem aesDecryptBlock_injective : Function.Injective (aesDecryptBlock k) :=
  Function.LeftInverse.injective (aesEncryptBlock_aesDecryptBlock k)

theorem Block.xor_left_injective (b : Block) : Function.Injective (Block.xor · b) :=
  Function.LeftInverse.injective (g := (Block.xor · b)) (Block.xor_self_right · b)

theorem Block.xor_eq_xor_xor_xor (a c c' : Block) : a.xor c' = (a.xor c).xor (c.xor c') := by
  have h : ∀ x y z : Byte, x ^^^ z = x ^^^ y ^^^ (y ^^^ z) := fun x y z => by
    rw [BitVec.xor_assoc, ← BitVec.xor_assoc y y z, BitVec.xor_self, BitVec.zero_xor]
  simp only [Block.xor, Column.xor, ← h]

theorem getD_append_cons_length (before after : List Block) (c : Block) :
    (before ++ c :: after).getD before.length .zero = c := by
  simp

/-- Elsewhere a list with one element changed is the same. -/
theorem getD_append_cons_of_ne {before after : List Block} {c c' : Block} {j : Nat} (h : j ≠ before.length) :
    (before ++ c' :: after).getD j .zero = (before ++ c :: after).getD j .zero := by
  have hset : before ++ c' :: after = (before ++ c :: after).set before.length c' := by simp
  rw [hset, List.getD_eq_getElem?_getD, List.getElem?_set_ne h.symm, List.getD_eq_getElem?_getD]

/-- A plaintext block depends on no ciphertext block but its own and the one before it (R202). -/
theorem cbcDecryptBlocks_getD_congr {cs cs' : List Block} {j : Nat} (hlen : cs'.length = cs.length)
    (hown : cs'.getD j .zero = cs.getD j .zero) (hprev : j ≠ 0 → cs'.getD (j - 1) .zero = cs.getD (j - 1) .zero) :
    (cbcDecryptBlocks k chain cs').getD j .zero = (cbcDecryptBlocks k chain cs).getD j .zero := by
  by_cases hj : j < cs.length
  · rw [cbcDecryptBlocks_getD _ _ _ hj, cbcDecryptBlocks_getD _ _ _ (hlen ▸ hj), hown]
    split
    · rfl
    · next h0 => rw [hprev h0]
  · rw [List.getD_eq_default _ _ (by simpa [hlen] using hj), List.getD_eq_default _ _ (by simpa using hj)]

section

variable (before after : List Block) (c c' : Block)

theorem cbcDecryptBlocks_changed_length :
    (cbcDecryptBlocks k chain (before ++ c :: after)).length = before.length + 1 + after.length := by
  rw [cbcDecryptBlocks_length, List.length_append, List.length_cons]; omega

/-- The blocks before the changed one and those after the next one (R213). -/
theorem cbcDecryptBlocks_changed_other {j : Nat} (hown : j ≠ before.length) (hnext : j ≠ before.length + 1) :
    (cbcDecryptBlocks k chain (before ++ c' :: after)).getD j .zero =
      (cbcDecryptBlocks k chain (before ++ c :: after)).getD j .zero :=
  cbcDecryptBlocks_getD_congr (by simp) (getD_append_cons_of_ne hown)
    fun h0 => getD_append_cons_of_ne (by omega)

/-- The changed block's own plaintext block: one chaining block for both of them. -/
theorem cbcDecryptBlocks_changed_own (h : c ≠ c') :
    (cbcDecryptBlocks k chain (before ++ c' :: after)).getD before.length .zero ≠
      (cbcDecryptBlocks k chain (before ++ c :: after)).getD before.length .zero := by
  have hchain : (if before.length = 0 then chain else (before ++ c' :: after).getD (before.length - 1) .zero) =
      if before.length = 0 then chain else (before ++ c :: after).getD (before.length - 1) .zero := by
    split
    · rfl
    · exact getD_append_cons_of_ne (by omega)
  rw [cbcDecryptBlocks_getD k chain _ (by simp), cbcDecryptBlocks_getD k chain _ (by simp), hchain,
    getD_append_cons_length, getD_append_cons_length]
  exact fun heq => h (aesDecryptBlock_injective (Block.xor_left_injective _ heq)).symm

/-- The next plaintext block: one ciphertext block under both chaining blocks. -/
theorem cbcDecryptBlocks_changed_next (h : 0 < after.length) :
    (cbcDecryptBlocks k chain (before ++ c' :: after)).getD (before.length + 1) .zero =
      ((cbcDecryptBlocks k chain (before ++ c :: after)).getD (before.length + 1) .zero).xor (c.xor c') := by
  have hnext : (before ++ c' :: after).getD (before.length + 1) .zero =
      (before ++ c :: after).getD (before.length + 1) .zero := getD_append_cons_of_ne (by omega)
  rw [cbcDecryptBlocks_getD k chain _ (by simpa), cbcDecryptBlocks_getD k chain _ (by simpa), hnext,
    if_neg (Nat.succ_ne_zero _), if_neg (Nat.succ_ne_zero _), Nat.add_sub_cancel, getD_append_cons_length,
    getD_append_cons_length, ← Block.xor_eq_xor_xor_xor]

end

end

/-- Settles O45: each plaintext block is read off its own ciphertext block and the one before it. -/
theorem cbcErrorPropagation : Obligations.CbcErrorPropagation := by
  unfold Obligations.CbcErrorPropagation
  intro k chain c c' before after
  exact ⟨cbcDecryptBlocks_changed_length before after c,
    (cbcDecryptBlocks_changed_length before after c').trans (cbcDecryptBlocks_changed_length before after c).symm,
    fun j hj => cbcDecryptBlocks_changed_other before after c c' (by omega) (by omega),
    fun j hj => cbcDecryptBlocks_changed_other before after c c' (by omega) (by omega),
    cbcDecryptBlocks_changed_own before after c c', cbcDecryptBlocks_changed_next before after c c'⟩

end Sys2Proof.Machine
end

section
/-! PROOF. The commands of the cipher unit (R206 to R209), and the length check all decrypting commands share (R203). -/

namespace Sys2Proof.Machine

open Sys2Proof.Claims

/-! ### Checks and endings -/

section

variable {i : Instr} {s : State}

/-- A command that uses the key reads `IN` and no other buffer (R270, R271). -/
theorem operandsInRange_iff_of_usesKey (hu : usesKey i = true) :
    OperandsInRange i s ↔ s.inLen.toNat ≤ s.params.inCap := by
  have hread : readsIn i = true ∧ readsAux i = false := by cases i <;> simp_all [usesKey, readsIn, readsAux]
  simp [OperandsInRange, hread]

theorem commonErrors_of_usesKey (hu : usesKey i = true) : CommonErrors i s :=
  ⟨fun hover => failsWith_of_out_of_range fun h =>
      Nat.not_le.2 hover ((operandsInRange_iff_of_usesKey hu).1 h),
    fun hin hk => failsWith_of_raise (exec_unbound ((operandsInRange_iff_of_usesKey hu).2 hin) hu hk)⟩

variable (hu : usesKey i = true) (hin : s.inLen.toNat ≤ s.params.inCap) (hk : s.keyv = true)

include hu hin hk

/-- With its operands checked, such a command ends with the error its body raises (R265). -/
theorem failsWith_of_bodyOf {f : Failure} (hb : bodyOf i s = .error f) : FailsWith i s f.error.code f.vfy := by
  have hn : i ≠ .nop := by rintro rfl; cases hu
  refine failsWith_of_raise ?_
  rw [exec_in_range hn ((operandsInRange_iff_of_usesKey hu).2 hin) fun _ => hk, hb]

/-- With its operands checked, such a command ends with the result its body gives (R264). -/
theorem completesWith_of_usesKey (hinv : BlockInv s) {r : Result} (hb : bodyOf i s = .ok r) :
    CompletesWith i s r.data r.scalar r.vfy := by
  have hn : i ≠ .nop := by rintro rfl; cases hu
  have heff : effectOf i s = s :=
    effectOf_eq_self s (by rintro rfl; cases hu) (by rintro rfl; cases hu) (by rintro rfl; cases hu)
  exact completesWith_of_bodyOf hinv hn heff ((operandsInRange_iff_of_usesKey hu).2 hin) (fun _ => hk) hb

end

/-! ### Encryption -/

/-- The examples of R206 and R208. -/
theorem encrypt_examples :
    natOfBE (cbcEncrypt countingKey [0x61, 0x62, 0x63]) = 0xb08b1f809a035064420d1d754022ab55 ∧
    natOfBE (ecbEncrypt countingKey ((List.range 16).map fun i => BitVec.ofNat 8 (0x41 + i))) =
      0x9cdd85de85b48bed892f02d8a5cbdacb954f64f2e4e86e9eee82d20216684899 := by
  decide +kernel

@[simp] theorem inStar_length (s : State) : (inStar s).length = s.inLen.toNat := by simp [inStar]

/-- Settles O46: the bodies of both commands encrypt what they read in `IN`. -/
theorem encryptCommands : Obligations.EncryptCommands := by
  unfold Obligations.EncryptCommands
  refine ⟨decode_encode .cbcenc, decode_encode .ecbenc,
    fun s hinv => ⟨commonErrors_of_usesKey rfl, commonErrors_of_usesKey rfl, fun hin hk => ?_⟩, encrypt_examples⟩
  have hread : inStar s = s.input.readRange 0 s.inLen.toNat := map_bufRead_input hin
  rw [cbcEncrypt_length, ecbEncrypt_length, inStar_length, hread]
  exact ⟨completesWith_of_usesKey (i := .cbcenc) (r := .ofData (cbcEncrypt _ _)) rfl hin hk hinv rfl,
    completesWith_of_usesKey (i := .ecbenc) (r := .ofData (ecbEncrypt _ _)) rfl hin hk hinv rfl, rfl, rfl⟩

/-! ### Decryption -/

section

variable {s : State} (hin : s.inLen.toNat ≤ s.params.inCap)

include hin

theorem bodyOf_cbcdec : bodyOf .cbcdec s = dataOrRaise (cbcDecrypt s.key (inStar s)) := by
  rw [inStar, map_bufRead_input hin]; rfl

theorem bodyOf_ecbdec : bodyOf .ecbdec s = dataOrRaise (ecbDecrypt s.key (inStar s)) := by
  rw [inStar, map_bufRead_input hin]; rfl

theorem bodyOf_cdecode : bodyOf .cdecode s = decodeContainer s.key (inStar s) := by
  rw [inStar, map_bufRead_input hin]; rfl

end

theorem decodeContainer_of_cbcDecrypt_error {k : Block} {c : List Byte} {e : CmdError}
    (h : cbcDecrypt k c = .error e) : decodeContainer k c = .error (.of e) := by
  simp only [decodeContainer, openContainer, h]

/-- `IN_LEN`, wrong for a ciphertext or right for one, says so of the bytes read. -/
theorem inStar_badLength {s : State} (h : s.inLen = 0 ∨ s.inLen.toNat % 16 ≠ 0) :
    (inStar s).length = 0 ∨ (inStar s).length % 16 ≠ 0 := by
  rw [inStar_length]
  exact h.imp_left fun h0 => by rw [h0]; rfl

theorem inStar_wholeBlocks {s : State} (h0 : s.inLen ≠ 0) (h16 : s.inLen.toNat % 16 = 0) :
    (inStar s).length ≠ 0 ∧ (inStar s).length % 16 = 0 := by
  rw [inStar_length]
  exact ⟨fun h => h0 (BitVec.eq_of_toNat_eq h), h16⟩

/-- A ciphertext of the wrong length ends every command that decrypts with `InputLengthError` (R203). -/
theorem failsWith_of_badLength {i : Instr} {s : State} (hi : i = .cbcdec ∨ i = .ecbdec ∨ i = .cdecode)
    (hin : s.inLen.toNat ≤ s.params.inCap) (hk : s.keyv = true) (hbad : s.inLen = 0 ∨ s.inLen.toNat % 16 ≠ 0) :
    FailsWith i s 2 0 := by
  have hlen := inStar_badLength hbad
  have hu : usesKey i = true := by rcases hi with rfl | rfl | rfl <;> rfl
  have hb : bodyOf i s = .error (.of .inputLength) := by
    rcases hi with rfl | rfl | rfl
    · rw [bodyOf_cbcdec hin, cbcDecrypt_of_badLength _ hlen]; rfl
    · rw [bodyOf_ecbdec hin, ecbDecrypt_of_badLength _ hlen]; rfl
    · rw [bodyOf_cdecode hin, decodeContainer_of_cbcDecrypt_error (cbcDecrypt_of_badLength _ hlen)]
  exact failsWith_of_bodyOf hu hin hk hb

section

variable {i : Instr} {s : State} (hu : usesKey i = true) (hin : s.inLen.toNat ≤ s.params.inCap) (hk : s.keyv = true)

variable {q : List Byte} (hb : bodyOf i s = dataOrRaise (unpad q))

include hu hin hk hb

/-- Decrypted blocks that do not unpad end the command with `PaddingError` (R207, R209). -/
theorem failsWith_of_unpad {e : CmdError} (h : unpad q = .error e) : FailsWith i s 3 0 := by
  have hpad : bodyOf i s = .error (.of .padding) := by rw [hb, h, unpad_error h]; rfl
  exact failsWith_of_bodyOf hu hin hk hpad

/-- Decrypted blocks that do are released without their padding. -/
theorem completesWith_of_unpad (hinv : BlockInv s) (hq : q.length = s.inLen.toNat) (h16 : 16 ≤ s.inLen.toNat)
    {p : List Byte} (h : unpad q = .ok p) :
    CompletesWith i s p 0 0 ∧ s.inLen.toNat ≤ p.length + 16 ∧ p.length < s.inLen.toNat := by
  have hok : bodyOf i s = .ok (.ofData p) := by rw [hb, h]; rfl
  obtain ⟨hlt, hle⟩ := unpad_length (hq ▸ h16) h
  exact ⟨completesWith_of_usesKey hu hin hk hinv hok, hq ▸ hle, hq ▸ hlt⟩

end

/-- Settles O47: the body of each command is its decryption, which checks the length and unpads the blocks. -/
theorem decryptCommands : Obligations.DecryptCommands := by
  unfold Obligations.DecryptCommands
  refine ⟨decode_encode .cbcdec, decode_encode .ecbdec,
    fun s hinv => ⟨commonErrors_of_usesKey rfl, commonErrors_of_usesKey rfl,
      fun hin hk => ⟨fun hbad => ?_, fun h0 h16 => ?_⟩⟩⟩
  · exact ⟨failsWith_of_badLength (.inl rfl) hin hk hbad, failsWith_of_badLength (.inr (.inl rfl)) hin hk hbad⟩
  · obtain ⟨hpos, hmod⟩ := inStar_wholeBlocks h0 h16
    have hcbc := bodyOf_cbcdec hin
    rw [cbcDecrypt_of_wholeBlocks _ hpos hmod] at hcbc
    have hecb := bodyOf_ecbdec hin
    rw [ecbDecrypt_of_wholeBlocks _ hpos hmod] at hecb
    have hblocks : ∀ bs : List Block, bs.length = (blocksOf (inStar s)).length → (bytesOf bs).length = s.inLen.toNat :=
      fun bs h => (bytesOf_length_of_wholeBlocks hmod h).trans (inStar_length s)
    have hone : 16 ≤ s.inLen.toNat := by rw [inStar_length] at hpos; omega
    exact ⟨fun p => completesWith_of_unpad rfl hin hk hcbc hinv (hblocks _ (cbcDecryptBlocks_length ..)) hone,
      fun e => failsWith_of_unpad rfl hin hk hcbc,
      fun p => completesWith_of_unpad rfl hin hk hecb hinv (hblocks _ (List.length_map _)) hone,
      fun e => failsWith_of_unpad rfl hin hk hecb⟩

/-- Settles O48: each of the three commands starts with one of the two decryptions, and those with the check. -/
theorem ciphertextLengthIsCheckedFirst : Obligations.CiphertextLengthIsCheckedFirst := by
  unfold Obligations.CiphertextLengthIsCheckedFirst
  exact ⟨fun k c h => ⟨cbcDecrypt_of_badLength k h, ecbDecrypt_of_badLength k h⟩,
    fun _ _ hi hin hk hbad => failsWith_of_badLength hi hin hk hbad⟩

end Sys2Proof.Machine
end

section
/-! PROOF. The container: its plaintext form, what the parser takes out of it, and the commands `CENCODE` and `CDECODE`
(R220 to R235). -/

namespace Sys2Proof.Machine

open Sys2Proof.Claims

/-! ### Slices -/

/-- What stands in front of a slice, and the slice, are the bytes up to its end. -/
theorem take_append_slice (q : List Byte) {i j : Nat} (h : i ≤ j) : q.take i ++ slice q i j = q.take j := by
  rw [slice, ← List.take_add, Nat.add_sub_cancel' h]

/-- The slice between two lengths is the part that stands there. -/
theorem slice_append_append {a b : List Byte} {i j : Nat} (hi : a.length = i) (hj : i + b.length = j) (c : List Byte) :
    slice (a ++ b ++ c) i j = b := by
  subst hi hj
  rw [slice, List.append_assoc, List.drop_left, Nat.add_sub_cancel_left, List.take_left]

theorem le32_slice_zero_four {q : List Byte} (h : 4 ≤ q.length) : le32 (slice q 0 4) = firstWordLE q := by
  rw [slice, take_four (by omega), le32_four, firstWordLE]

/-! ### The plaintext form -/

@[simp] theorem littleEndian_length (w : Word) : (littleEndian w).length = 4 := rfl

/-- The form `CENCODE` encrypts is the one with the right digests (R220, R221). -/
theorem pack_eq_packWith (p : List Byte) : pack p = packWith (hash160 p) p (hash256 p) := by
  rw [pack, packWith, toLE32_eq, littleEndian]

theorem password_eq_firstWordLE (p : List Byte) : password p = firstWordLE (hash256 p) :=
  le32_slice_zero_four (by rw [hash256_length]; decide)

theorem lengthField_eq_firstWordLE {q : List Byte} (h : 4 ≤ q.length) : lengthField q = (firstWordLE q).toNat := by
  rw [lengthField, le32_slice_zero_four h]

/-! ### Parsing -/

theorem parseContainer_of_lt {q : List Byte} (h : q.length < 56 + lengthField q) :
    parseContainer q = .error .truncatedContainer := by
  rcases parseContainer_cases q with he | ⟨hle, _⟩
  · exact he
  · omega

theorem parseContainer_of_le {q : List Byte} (h : 56 + lengthField q ≤ q.length) :
    parseContainer q = .ok ⟨slice q 4 24, slice q 24 (24 + lengthField q),
      slice q (24 + lengthField q) (24 + lengthField q + 32)⟩ := by
  have h56 : ¬ q.length < 56 := by omega
  have hfield : ¬ q.length - 56 < lengthField q := by omega
  simp only [parseContainer, if_neg h56, if_neg hfield]

/-- The length field, the three slices of the parser and what follows them are the whole sequence. -/
theorem eq_append_slices (q : List Byte) (n : Nat) :
    q = q.take 4 ++ slice q 4 24 ++ slice q 24 (24 + n) ++ slice q (24 + n) (24 + n + 32) ++ q.drop (56 + n) := by
  rw [take_append_slice q (by omega), take_append_slice q (by omega), take_append_slice q (by omega),
    (by omega : 24 + n + 32 = 56 + n), List.take_append_drop]

/-- Settles O50: the model's length field is the first word, and its slices lie one after another. -/
theorem parseChecksBoundsFirst : Obligations.ParseChecksBoundsFirst := by
  unfold Obligations.ParseChecksBoundsFirst
  intro q
  by_cases h56 : q.length < 56
  case pos => exact ⟨fun _ => parseContainer_of_lt (by omega), fun hle => by omega⟩
  rw [← lengthField_eq_firstWordLE (by omega)]
  refine ⟨fun hlt => parseContainer_of_lt (by omega), fun hle =>
    ⟨_, parseContainer_of_le hle, ?_, eq_append_slices q _, ?_, ?_⟩⟩ <;>
  · rw [slice_length]
    omega

theorem lengthField_packWith {p : List Byte} (hp : p.length < 2 ^ 32) (d160 d256 : List Byte) :
    lengthField (packWith d160 p d256) = p.length := by
  have hfield : slice (packWith d160 p d256) 0 4 = toLE32 (BitVec.ofNat 32 p.length) := by
    rw [toLE32_eq]; rfl
  rw [lengthField, hfield, le32_toLE32, BitVec.toNat_ofNat, Nat.mod_eq_of_lt hp]

/-- The parser takes a hand-packed form apart into its parts, whether the digests are right or not (R228). -/
theorem parseContainer_packWith {d160 p d256 : List Byte} (h160 : d160.length = 20) (h256 : d256.length = 32)
    (hp : p.length < 2 ^ 32) : parseContainer (packWith d160 p d256) = .ok ⟨d160, p, d256⟩ := by
  have hl := lengthField_packWith hp d160 d256
  have hlen : (packWith d160 p d256).length = 56 + p.length := by
    simp only [packWith, List.length_append, littleEndian_length, h160, h256]; omega
  have hfst : slice (packWith d160 p d256) 4 24 = d160 := by
    rw [packWith, List.append_assoc]
    exact slice_append_append (littleEndian_length _) (by omega) _
  have hsnd : slice (packWith d160 p d256) 24 (24 + p.length) = p :=
    slice_append_append (by rw [List.length_append, littleEndian_length, h160]) rfl _
  have hthd : slice (packWith d160 p d256) (24 + p.length) (24 + p.length + 32) = d256 := by
    have hfront : (littleEndian (BitVec.ofNat 32 p.length) ++ d160 ++ p).length = 24 + p.length := by
      rw [List.length_append, List.length_append, littleEndian_length, h160]
    simpa only [packWith, List.append_nil] using slice_append_append hfront (congrArg _ h256) []
  rw [parseContainer_of_le (by omega), hl, hfst, hsnd, hthd]

/-! ### Decoding -/

section

variable {k : Block} {c q : List Byte} (hq : cbcDecrypt k c = .ok q)

include hq

theorem openContainer_of_cbcDecrypt : openContainer k c = parseContainer q := by
  rw [openContainer, hq]

theorem decodeContainer_of_parse_error {e : CmdError} (hp : parseContainer q = .error e) :
    decodeContainer k c = .error (.of e) := by
  simp only [decodeContainer, openContainer_of_cbcDecrypt hq, hp]

variable {parsed : Parsed} (hp : parseContainer q = .ok parsed)

include hp

/-- Both digests right: the payload is released (R229). -/
theorem decodeContainer_of_verified (hv : verifyParsed parsed = 3) :
    decodeContainer k c = .ok ⟨parsed.payload, 0, 3⟩ := by
  simp only [decodeContainer, openContainer_of_cbcDecrypt hq, hp, if_pos hv]

/-- A digest wrong: the two bits say which (R229). -/
theorem decodeContainer_of_mismatch (hv : verifyParsed parsed ≠ 3) :
    decodeContainer k c = .error ⟨.digestMismatch, verifyParsed parsed⟩ := by
  simp only [decodeContainer, openContainer_of_cbcDecrypt hq, hp, if_neg hv]

end

/-- `Decode` undoes `Encode` (R233). -/
theorem decodeContainer_encodeContainer (k : Block) {p : List Byte} (hp : p.length < 2 ^ 32) :
    decodeContainer k (encodeContainer k p).1 = .ok ⟨p, 0, 3⟩ := by
  have hparse : parseContainer (pack p) = .ok ⟨hash160 p, p, hash256 p⟩ :=
    pack_eq_packWith p ▸ parseContainer_packWith (hash160_length p) (hash256_length p) hp
  exact decodeContainer_of_verified (cbcDecrypt_cbcEncrypt k (pack p)) hparse (by simp [verifyParsed_eq])

/-! ### `CDECODE` -/

section

variable {s : State} (hin : s.inLen.toNat ≤ s.params.inCap) (hk : s.keyv = true)

include hin hk

theorem failsWith_of_decodeContainer {f : Failure} (h : decodeContainer s.key (inStar s) = .error f) :
    FailsWith .cdecode s f.error.code f.vfy :=
  failsWith_of_bodyOf rfl hin hk ((bodyOf_cdecode hin).trans h)

theorem completesWith_of_decodeContainer (hinv : BlockInv s) {r : Result}
    (h : decodeContainer s.key (inStar s) = .ok r) : CompletesWith .cdecode s r.data r.scalar r.vfy :=
  completesWith_of_usesKey rfl hin hk hinv ((bodyOf_cdecode hin).trans h)

/-- A wrong digest ends `CDECODE` with `DigestMismatchError` and the bits of the right ones (R229, R230). -/
theorem failsWith_of_mismatch {q : List Byte} {c : Parsed} (hq : cbcDecrypt s.key (inStar s) = .ok q)
    (hc : parseContainer q = .ok c) {v : BitVec 2} (hv : verifyParsed c = v) (h3 : v ≠ 3) :
    FailsWith .cdecode s 5 v := by
  subst hv
  exact failsWith_of_decodeContainer hin hk (decodeContainer_of_mismatch hq hc h3)

end

/-- Settles O51: by what decryption, then the parser, then the comparison of the digests gives. -/
theorem cdecodeReleasesOnlyVerifiedPayload : Obligations.CdecodeReleasesOnlyVerifiedPayload := by
  unfold Obligations.CdecodeReleasesOnlyVerifiedPayload
  refine ⟨decode_encode .cdecode, fun s hinv => ⟨commonErrors_of_usesKey rfl, fun hin hk => ?_⟩⟩
  have hfail {f : Failure} := failsWith_of_decodeContainer hin hk (f := f)
  refine ⟨fun h => hfail (decodeContainer_of_cbcDecrypt_error h),
    fun h => hfail (decodeContainer_of_cbcDecrypt_error h), fun q hq =>
    ⟨fun h => hfail (decodeContainer_of_parse_error hq h), fun c hc => ?_⟩⟩
  have hmismatch {v : BitVec 2} := failsWith_of_mismatch hin hk hq hc (v := v)
  refine ⟨fun h160 h256 => ?_, fun h160 h256 => ?_, fun h160 h256 => ?_, fun h160 h256 => ?_⟩
  · have hv : verifyParsed c = 3 := by simp [verifyParsed_eq, h160, h256]
    exact completesWith_of_decodeContainer hin hk hinv (decodeContainer_of_verified hq hc hv)
  · exact hmismatch (by simp [verifyParsed_eq, h160, h256]) (by decide)
  · exact hmismatch (by simp [verifyParsed_eq, h160, h256]) (by decide)
  · exact hmismatch (by simp [verifyParsed_eq, h160, h256]) (by decide)

/-- Settles O52: decryption gives the hand-packed form back, the parser its parts, of which one digest is wrong. -/
theorem eachDigestAloneStopsDecoding : Obligations.EachDigestAloneStopsDecoding := by
  unfold Obligations.EachDigestAloneStopsDecoding
  intro s p d _ hin hk hp
  have hstop {d160 d256 : List Byte} (h160 : d160.length = 20) (h256 : d256.length = 32)
      (hc : inStar s = cbcEncrypt s.key (packWith d160 p d256)) {v : BitVec 2} :=
    failsWith_of_mismatch hin hk (hc ▸ cbcDecrypt_cbcEncrypt s.key _) (parseContainer_packWith h160 h256 hp) (v := v)
  refine ⟨fun hlen hne hc => ?_, fun hlen hne hc => ?_⟩
  · exact hstop hlen (hash256_length p) hc (by simp [verifyParsed_eq, hne]) (by decide)
  · exact hstop (hash160_length p) hlen hc (by simp [verifyParsed_eq, hne]) (by decide)

/-! ### `CENCODE` -/

/-- What `CENCODE` returns: the ciphertext as data, the password as scalar (R225). -/
def encodedResult (k : Block) (p : List Byte) : Result := ⟨(encodeContainer k p).1, (encodeContainer k p).2, 0⟩

theorem encodedResult_data (k : Block) (p : List Byte) : (encodedResult k p).data = (encodeContainer k p).1 := rfl

theorem encodedResult_data_length (k : Block) (p : List Byte) :
    (encodedResult k p).data.length = 16 * ((p.length + 56) / 16 + 1) := by
  rw [encodedResult_data, encodeContainer, cbcEncrypt_length, pack_length]

theorem bodyOf_cencode {s : State} (hin : s.inLen.toNat ≤ s.params.inCap) :
    bodyOf .cencode s = .ok (encodedResult s.key (inStar s)) := by
  rw [inStar, map_bufRead_input hin]; rfl

/-- Settles O49: the body of the command encodes what it reads in `IN`. -/
theorem cencodeBuildsTheContainer : Obligations.CencodeBuildsTheContainer := by
  unfold Obligations.CencodeBuildsTheContainer
  refine ⟨decode_encode .cencode, fun s hinv => ⟨commonErrors_of_usesKey rfl, fun hin hk => ?_⟩⟩
  have hlen := encodedResult_data_length s.key (inStar s)
  rw [inStar_length] at hlen
  rw [← pack_eq_packWith, ← password_eq_firstWordLE]
  exact ⟨_, rfl, hlen, completesWith_of_usesKey rfl hin hk hinv (bodyOf_cencode hin)⟩

end Sys2Proof.Machine
end

section
/-! PROOF. The host moves a result from `OUT` to `IN` (R97), and decodes what it has encoded (R233). -/

namespace Sys2Proof.Machine

open Sys2Proof.Claims

/-! ### `OUT2IN` -/

theorem Memory.readRange_succ (m : Memory) (i n : Nat) :
    m.readRange i (n + 1) = m.readRange i n ++ [m.read (i + n)] := by
  simp [Memory.readRange, List.range_succ]

theorem Memory.writeRange_append (m : Memory) (i : Nat) (bs cs : List Byte) :
    m.writeRange i (bs ++ cs) = (m.writeRange i bs).writeRange (i + bs.length) cs := by
  induction bs generalizing m i with
  | nil => rfl
  | cons b bs ih =>
    rw [List.cons_append, Memory.writeRange, ih, Memory.writeRange, List.length_cons, Nat.add_assoc, Nat.add_comm 1]

/-- The state after the host has read the first `n` bytes of `OUT` and stored each at its index in `IN` (R97). -/
def State.moveOutToIn (s : State) (n : Nat) : State :=
  { s with
    input := s.input.writeRange 0 (s.output.readRange 0 n)
    replies := s.replies ++ (List.range n).map fun k => .byte (s.output.read k) }

/-- The move of one byte more, when it is part of the result and has a place in `IN`. -/
theorem runEvents_moveOutToIn_succ {s : State} {n : Nat} (hout : n < s.outLen.toNat) (hcap : n < s.params.inCap) :
    runEvents [.transact (.bufRead .output n), .transact (.bufWrite .input n (s.bufRead .output n))] (s.moveOutToIn n) =
      .next (s.moveOutToIn (n + 1)) := by
  simp [runEvents, deliver, transact, Transaction.wellFormed, perform, State.bufRead, State.bufWrite, State.reply,
    State.moveOutToIn, hout, hcap, List.range_succ, Memory.readRange_succ, Memory.writeRange_append, Memory.writeRange]

theorem runEvents_moveOutToIn {s : State} {n : Nat} (hout : n ≤ s.outLen.toNat) (hcap : n ≤ s.params.inCap) :
    runEvents ((List.range n).flatMap fun k =>
      [.transact (.bufRead .output k), .transact (.bufWrite .input k (s.bufRead .output k))]) s =
      .next (s.moveOutToIn n) := by
  induction n with
  | zero => simp [runEvents, State.moveOutToIn, Memory.readRange, Memory.writeRange]
  | succ n ih =>
    rw [List.range_succ, List.flatMap_append, runEvents_append (ih (by omega) (by omega)), List.flatMap_singleton]
    exact runEvents_moveOutToIn_succ (by omega) (by omega)

/-- The state after `OUT2IN` of a result that fits `IN`: its bytes are the first of `IN`, its length is `IN_LEN`
(R97). -/
def State.afterOut2in (s : State) : State :=
  { (s.reply (.word s.outLen)).moveOutToIn s.outLen.toNat with inLen := s.outLen }

section

variable {s : State} (h : s.outLen.toNat ≤ s.params.inCap)

include h

theorem runEvents_out2in : runEvents (lineEvents s .out2in) s = .next s.afterOut2in := by
  have hmove := runEvents_moveOutToIn (s := s.reply (.word s.outLen)) le_rfl h
  rw [lineEvents, out2inEvents, List.append_assoc, runEvents_append (runEvents_rdr .outLen s)]
  exact (runEvents_append hmove).trans (runEvents_wrr (r := .inLen) nofun _ _)

/-- The data result has become the operand. -/
theorem inStar_afterOut2in (hw : s.input.wf) : inStar s.afterOut2in = s.output.readRange 0 s.outLen.toNat :=
  inStar_eq hw rfl (s.output.readRange_length ..).symm (by rwa [Memory.readRange_length])

theorem blockInv_afterOut2in (hinv : BlockInv s) : BlockInv s.afterOut2in :=
  { hinv with
    input_wf :=
      ⟨Memory.writeRange_wf hinv.input_wf.1 0 _, Memory.writeRange_within hinv.input_wf.2 (by simpa using h)⟩ }

end

/-! ### `CENCODE`, `OUT2IN`, `CDECODE` -/

theorem exec_cencode {s : State} (hin : s.inLen.toNat ≤ s.params.inCap) (hk : s.keyv = true) :
    exec .cencode s = .next (s.complete (encodedResult s.key (inStar s))) := by
  rw [exec_in_range (by decide) ((operandsInRange_iff_of_usesKey rfl).2 hin) fun _ => hk, bodyOf_cencode hin]
  rfl

section

variable {s : State} {r : Result} (hinv : BlockInv s) (hfits : r.data.length ≤ s.params.inCap)

include hinv hfits

theorem toNat_outLen_complete : (s.complete r).outLen.toNat = r.data.length := by
  obtain ⟨_, hinCap, _⟩ := hinv.params
  exact toNat_ofNat_length (by omega) hfits

/-- A data result moved to `IN` is the operand of the next command. -/
theorem inStar_complete_afterOut2in : inStar (s.complete r).afterOut2in = r.data := by
  have hout := toNat_outLen_complete hinv hfits
  rw [inStar_afterOut2in (hout.trans_le hfits) hinv.input_wf.1, hout]
  exact Memory.readRange_writeRange hinv.output_wf.1 r.data

end

/-- Settles O53: what `CDECODE` reads is the container `CENCODE` made, which decodes to the payload. -/
theorem containerRoundTripOnTheBlock : Obligations.ContainerRoundTripOnTheBlock := by
  unfold Obligations.ContainerRoundTripOnTheBlock
  refine ⟨fun k p hp => decodeContainer_encodeContainer k hp, fun s hinv hk hcap => ?_⟩
  have hfits : (encodedResult s.key (inStar s)).data.length ≤ s.params.inCap := by
    rw [encodedResult_data_length, inStar_length]; omega
  have henc := exec_cencode (by omega : s.inLen.toNat ≤ s.params.inCap) hk
  have hin := (toNat_outLen_complete hinv hfits).trans_le hfits
  have hdecode : decodeContainer s.key (inStar (s.complete (encodedResult s.key (inStar s))).afterOut2in) =
      .ok ⟨inStar s, 0, 3⟩ := by
    rw [inStar_complete_afterOut2in hinv hfits, encodedResult_data,
      decodeContainer_encodeContainer _ (by rw [inStar_length]; exact s.inLen.isLt)]
  obtain ⟨t, hdec, hcompleted, _⟩ :=
    completesWith_of_decodeContainer (s := (s.complete _).afterOut2in) hin hk
      (blockInv_afterOut2in hin (blockInv_exec hinv henc)) hdecode
  refine ⟨t, ?_, hcompleted⟩
  rw [runScript_cons (l := .cmd .cencode) (runEvents_cmd henc), runScript_cons (runEvents_out2in hin)]
  exact runScript_singleton (runEvents_cmd hdec)

end Sys2Proof.Machine
end

section
/-! PROOF. The one-time password: the truncation of the MAC (R245, R246), the command (R247, R248), and the known
answers (R249). -/

namespace Sys2Proof.Machine

open Sys2Proof.Claims

/-! ### The truncation -/

theorem truncationOffset_eq_mod (mac : List Byte) : truncationOffset mac = (mac.getD 19 0).toNat % 16 :=
  (BitVec.toNat_and ..).trans (Nat.and_two_pow_sub_one_eq_mod _ 4)

/-- The four bytes are one number in base 256, and the mask takes the bit of weight `2 ^ 31` from it (R246). -/
theorem binCode_eq_sum (mac : List Byte) {o : Nat} (ho : truncationOffset mac = o) :
    binCode mac = (mac.getD o 0).toNat % 128 * 2 ^ 24 + (mac.getD (o + 1) 0).toNat * 2 ^ 16 +
      (mac.getD (o + 2) 0).toNat * 2 ^ 8 + (mac.getD (o + 3) 0).toNat := by
  have hmask : (mac.getD o 0 &&& 0x7F).toNat = (mac.getD o 0).toNat % 128 :=
    (BitVec.toNat_and ..).trans (Nat.and_two_pow_sub_one_eq_mod _ 7)
  simp only [binCode, ho, natOfBE, List.foldl, hmask]
  omega

theorem binCode_lt (mac : List Byte) : binCode mac < 2 ^ 31 := by
  rw [binCode_eq_sum mac rfl]
  omega

/-- A code has at most six decimal digits (R248). -/
theorem hotp_le (secret : List Byte) (c : BitVec 64) : hotp secret c ≤ 999999 :=
  Nat.le_of_lt_succ (Nat.mod_lt _ (by decide))

/-- Settles O55: the bit masks are remainders, and the farthest offset, 15, leaves four of the 20 bytes. -/
theorem hotpTruncation : Obligations.HotpTruncation := by
  unfold Obligations.HotpTruncation
  intro secret c
  rw [← toBE64_extract]
  intro mac o
  have hlen : mac.length = 20 := hmac_hash160_length secret _
  refine ⟨?_, binCode_lt mac, hotp_le secret c, by omega⟩
  rw [← binCode_eq_sum mac (truncationOffset_eq_mod mac)]
  rfl

/-! ### The command -/

/-- A success without a data result (R114, R247) shows no byte of `OUT`, whatever the buffer holds. -/
theorem completed_complete_of_no_data (s : State) (scalar : Word) (v : BitVec 2) :
    Completed (s.complete ⟨[], scalar, v⟩) [] scalar v :=
  { completed_complete_none s with result := rfl, vfy := rfl }

theorem exec_hotp {s : State} (haux : s.auxLen.toNat ≤ s.params.auxCap) :
    exec .hotp s = .next (s.complete ⟨[], BitVec.ofNat 32 (hotp (auxStar s) s.ctr), 0⟩) := by
  rw [exec_in_range (i := .hotp) nofun ⟨nofun, fun _ => haux⟩ nofun, auxStar, map_bufRead_aux haux]
  rfl

/-- Settles O54: `AUX_LEN` decides between the completion with the code and the length-range error. -/
theorem hotpReturnsTheCode : Obligations.HotpReturnsTheCode := by
  unfold Obligations.HotpReturnsTheCode
  refine ⟨decode_encode .hotp, fun s => ⟨fun haux => ⟨?_, hotp_le _ _⟩, fun hover => ?_⟩⟩
  · exact ⟨_, exec_hotp haux, completed_complete_of_no_data s _ _, by constructor <;> rfl, by constructor <;> rfl⟩
  · exact failsWith_of_out_of_range fun h => Nat.not_le.2 hover (h.2 rfl)

/-! ### The known answers -/

/-- Settles O56, by evaluating two keyed digests in the kernel. -/
theorem hotpKnownAnswers : Obligations.HotpKnownAnswers := by
  unfold Obligations.HotpKnownAnswers
  decide +kernel

end Sys2Proof.Machine
end

section
/-! PROOF. The errors of the commands: which failure ends a command, and in which order the checks stand before its body
(R265 to R271). -/

namespace Sys2Proof.Machine

open Sys2Proof.Claims

/-! ### How a command ends -/

/-- The failures a command can end with in a state: the length-range check comes first, then the key check, then what
the body raises (R267). -/
inductive Raises (i : Instr) (s : State) : Failure → Prop
  | lengthRange (hr : ¬ OperandsInRange i s) : Raises i s (.of .lengthRange)
  | noKey (hr : OperandsInRange i s) (hu : usesKey i = true) (hk : s.keyv = false) : Raises i s (.of .noKey)
  | body {f : Failure} (hr : OperandsInRange i s) (hk : usesKey i = true → s.keyv = true)
      (hb : bodyOf i s = .error f) : Raises i s f

/-- Every command ends, with `ERR` and `FAIL` cleared or in a failing completion (R99, R264, R265). -/
theorem exec_completes (i : Instr) (s : State) :
    ∃ t, exec i s = .next t ∧ ((t.err = 0 ∧ t.fail = false) ∨ ∃ f, Raises i s f ∧ t = s.raise f) := by
  rcases exec_cases i s with ⟨_, he⟩ | ⟨hr, he⟩ | ⟨hr, hu, hk, he⟩ | ⟨_, hr, hk, ⟨f, hb, he⟩ | ⟨r, _, he⟩⟩
  · exact ⟨_, he, .inl ⟨rfl, rfl⟩⟩
  · exact ⟨_, he, .inr ⟨_, .lengthRange hr, rfl⟩⟩
  · exact ⟨_, he, .inr ⟨_, .noKey hr hu hk, rfl⟩⟩
  · exact ⟨_, he, .inr ⟨_, .body hr hk hb, rfl⟩⟩
  · exact ⟨_, he, .inl ⟨rfl, rfl⟩⟩

/-- `exec_completes` for the state a command is known to end in. -/
theorem exec_clears_or_raises {i : Instr} {s t : State} (h : exec i s = .next t) :
    (t.err = 0 ∧ t.fail = false) ∨ ∃ f, Raises i s f ∧ t = s.raise f := by
  obtain ⟨u, he, hu⟩ := exec_completes i s
  rw [he] at h
  cases h
  exact hu

/-! ### The rows of R268 -/

theorem zero_mem_possibleCodes (i : Instr) : 0 ∈ possibleCodes i := by cases i <;> decide

/-- Code 10 is in the row of every command that reads a buffer (R270). -/
theorem lengthRange_mem_possibleCodes {i : Instr} {s : State} (hr : ¬ OperandsInRange i s) : 10 ∈ possibleCodes i := by
  cases i
  case nop | clear | zeroize => exact absurd ⟨nofun, nofun⟩ hr
  all_goals decide

/-- Code 9 is in the row of every command that uses `KEY` (R271). -/
theorem noKey_mem_possibleCodes {i : Instr} (hu : usesKey i = true) : 9 ∈ possibleCodes i := by
  cases i
  case cbcenc | cbcdec | ecbenc | ecbdec | cencode | cdecode => decide
  all_goals cases hu

theorem Raises.code_mem {i : Instr} {s : State} {f : Failure} (h : Raises i s f) : f.error.code ∈ possibleCodes i := by
  cases h with
  | lengthRange hr => exact lengthRange_mem_possibleCodes hr
  | noKey _ hu _ => exact noKey_mem_possibleCodes hu
  | body _ _ hb =>
    obtain ⟨_, _, hcode⟩ := bodyOf_error hb
    exact hcode

/-- Settles O22: a command ends with code 0 or with that of a failure it can raise, and its row has both. -/
theorem commandsEndWithTheListedCodes : Obligations.CommandsEndWithTheListedCodes := by
  unfold Obligations.CommandsEndWithTheListedCodes
  intro i s t h
  rcases exec_clears_or_raises h with ⟨herr, _⟩ | ⟨f, hf, rfl⟩
  · rw [herr]
    exact zero_mem_possibleCodes i
  · exact hf.code_mem

/-! ### What a failure changes -/

/-- The digest bits a failure reports (R265): some only for a `CDECODE` with a wrong digest, and never both. -/
theorem Raises.vfy {i : Instr} {s : State} {f : Failure} (h : Raises i s f) (hv : f.vfy ≠ 0) :
    i = .cdecode ∧ f.error = .digestMismatch ∧ f.vfy ≠ 3 := by
  cases h with
  | lengthRange _ | noKey _ _ _ => exact absurd rfl hv
  | body _ _ hb =>
    obtain ⟨hbits, hne, _⟩ := bodyOf_error hb
    obtain ⟨hi, he⟩ := hbits hv
    exact ⟨hi, he, hne⟩

/-- A command word that ends with `FAIL = 1` ended in the failing completion, whose digest bits are as R265 says. -/
theorem command_failed {w : Word} {s t : State} (h : command w s = .next t) (hf : t.fail = true) :
    ∃ f, t = s.raise f ∧ (f.vfy ≠ 0 → decode w = .ok .cdecode ∧ f.error = .digestMismatch ∧ f.vfy ≠ 3) := by
  rcases command_cases h with ⟨i, hd, he⟩ | ⟨_, _, rfl⟩
  · rcases exec_clears_or_raises he with ⟨_, hclear⟩ | ⟨f, hr, rfl⟩
    · rw [hclear] at hf
      cases hf
    · refine ⟨f, rfl, fun hv => ?_⟩
      obtain ⟨rfl, herr, hne⟩ := hr.vfy hv
      exact ⟨hd, herr, hne⟩
  · exact ⟨_, rfl, fun hv => absurd rfl hv⟩

/-- Settles O23: the failing completion makes the six writes, and its code is one of R261. -/
theorem failureChangesSixRegistersOnly : Obligations.FailureChangesSixRegistersOnly := by
  unfold Obligations.FailureChangesSixRegistersOnly
  intro w s t h hf
  obtain ⟨f, rfl, hvfy⟩ := command_failed h hf
  refine ⟨rfl, s.bufRead_raise f, f.error.code_ne_zero, f.error.code_mem, fun hv => ?_⟩
  obtain ⟨hd, herr, hne⟩ := hvfy hv
  exact ⟨hd, by rw [State.raise_err, herr]; rfl, hne⟩

/-! ### The errors of the bodies -/

theorem CmdError.code_injective : Function.Injective CmdError.code := by
  intro a b
  cases a <;> cases b <;> decide

theorem eq_of_dataOrRaise {d : Except CmdError (List Byte)} {f : Failure} (h : dataOrRaise d = .error f) :
    d = .error f.error := by
  cases d <;> cases h
  rfl

theorem cbcDecrypt_error {k : Block} {c : List Byte} {e : CmdError} (h : cbcDecrypt k c = .error e) :
    e = .inputLength ∨ e = .padding := by
  rcases cbcDecrypt_cases k c with ⟨_, hc⟩ | ⟨_, hc⟩ | ⟨_, _, hc, _⟩ <;> rw [hc] at h <;> cases h
  · exact .inl rfl
  · exact .inr rfl

theorem ecbDecrypt_error {k : Block} {c : List Byte} {e : CmdError} (h : ecbDecrypt k c = .error e) :
    e = .inputLength ∨ e = .padding := by
  rcases ecbDecrypt_cases k c with ⟨_, hc⟩ | ⟨_, hc⟩ | ⟨_, _, hc, _⟩ <;> rw [hc] at h <;> cases h
  · exact .inl rfl
  · exact .inr rfl

theorem parseContainer_error {q : List Byte} {e : CmdError} (h : parseContainer q = .error e) :
    e = .truncatedContainer := by
  rcases parseContainer_cases q with hp | ⟨_, hp⟩ <;> rw [hp] at h <;> cases h
  rfl

theorem openContainer_error {k : Block} {c : List Byte} {e : CmdError} (h : openContainer k c = .error e) :
    e = .inputLength ∨ e = .padding ∨ e = .truncatedContainer := by
  cases hq : cbcDecrypt k c with
  | error e' =>
    rw [openContainer, hq] at h
    cases h
    exact (cbcDecrypt_error hq).imp_right .inl
  | ok q =>
    rw [openContainer_of_cbcDecrypt hq] at h
    exact .inr (.inr (parseContainer_error h))

theorem decodeContainer_error {k : Block} {c : List Byte} {f : Failure} (h : decodeContainer k c = .error f) :
    f.error = .inputLength ∨ f.error = .padding ∨ f.error = .truncatedContainer ∨ f.error = .digestMismatch := by
  rcases decodeContainer_cases k c with ⟨e, ho, hd⟩ | ⟨_, _, _, hd⟩ | ⟨_, _, _, hd⟩ <;> rw [hd] at h <;> cases h
  · exact (openContainer_error ho).imp_right (.imp_right .inl)
  · exact .inr (.inr (.inr rfl))

/-- The errors a body can raise (R268): never one of the two checks before it, nor that of an illegal word. -/
theorem bodyOf_error_name {i : Instr} {s : State} {f : Failure} (h : bodyOf i s = .error f) :
    f.error = .keyLength ∨ f.error = .inputLength ∨ f.error = .padding ∨ f.error = .truncatedContainer ∨
      f.error = .digestMismatch := by
  cases i
  case loadkey =>
    simp only [bodyOf] at h
    split at h <;> cases h
    exact .inl rfl
  case cbcdec => exact .inr ((cbcDecrypt_error (eq_of_dataOrRaise h)).imp_right .inl)
  case ecbdec => exact .inr ((ecbDecrypt_error (eq_of_dataOrRaise h)).imp_right .inl)
  case cdecode => exact .inr (decodeContainer_error h)
  all_goals cases h

/-- No body raises an error of the two checks before it (R270, R271). -/
theorem bodyOf_error_ne_check {i : Instr} {s : State} {f : Failure} (h : bodyOf i s = .error f) :
    f.error ≠ .lengthRange ∧ f.error ≠ .noKey := by
  rcases bodyOf_error_name h with he | he | he | he | he <;> rw [he] <;> decide

/-! ### The two common checks -/

section

variable {i : Instr} {s : State}

theorem Raises.error_ne_lengthRange (hr : OperandsInRange i s) {f : Failure} (h : Raises i s f) :
    f.error ≠ .lengthRange := by
  cases h with
  | lengthRange hnot => exact absurd hr hnot
  | noKey _ _ _ => exact nofun
  | body _ _ hb => exact (bodyOf_error_ne_check hb).1

theorem Raises.error_ne_noKey (hk : usesKey i = false ∨ s.keyv = true) {f : Failure} (h : Raises i s f) :
    f.error ≠ .noKey := by
  cases h with
  | lengthRange _ => exact nofun
  | noKey _ hu hunbound => simp [hu, hunbound] at hk
  | body _ _ hb => exact (bodyOf_error_ne_check hb).2

/-- A command that cannot raise an error completes with another code. -/
theorem exec_err_ne_code {e : CmdError} (h : ∀ {f}, Raises i s f → f.error ≠ e) :
    ∃ t, exec i s = .next t ∧ t.err ≠ e.code := by
  obtain ⟨t, he, ⟨herr, _⟩ | ⟨f, hf, rfl⟩⟩ := exec_completes i s
  · exact ⟨t, he, herr ▸ e.code_ne_zero.symm⟩
  · exact ⟨_, he, CmdError.code_injective.ne (h hf)⟩

end

/-- Settles O28: the length check stands first, and nothing after it raises its error. -/
theorem lengthAboveCapacityFailsFirst : Obligations.LengthAboveCapacityFailsFirst := by
  unfold Obligations.LengthAboveCapacityFailsFirst
  exact fun i s => ⟨failsWith_of_out_of_range,
    fun hr => exec_err_ne_code (e := .lengthRange) (Raises.error_ne_lengthRange hr)⟩

/-- Settles O29: with the lengths in range the key check stands next, and no body raises its error. -/
theorem missingKeyFailsSecond : Obligations.MissingKeyFailsSecond := by
  unfold Obligations.MissingKeyFailsSecond
  exact fun i s hr => ⟨fun hu hk => failsWith_of_raise (exec_unbound hr hu hk),
    fun hk => exec_err_ne_code (e := .noKey) (Raises.error_ne_noKey hk)⟩

end Sys2Proof.Machine
end

section
/-! PROOF. Every host event that exists at the interface completes (R85, R278). -/

namespace Sys2Proof.Machine

/-- Every word completes, a command's and any other (R94, R278). -/
theorem command_completes (w : Word) (s : State) : ∃ t, command w s = .next t := by
  unfold command
  split
  case h_1 i _ =>
    obtain ⟨t, he, _⟩ := exec_completes i s
    exact ⟨t, he⟩
  case h_2 => exact ⟨_, rfl⟩

theorem perform_completes (u : Transaction) (s : State) : ∃ t, perform u s = .next t := by
  cases u with
  | regRead off => exact ⟨_, rfl⟩
  | bufRead space i => exact ⟨_, rfl⟩
  | bufWrite space i b => exact ⟨_, rfl⟩
  | regWrite off v =>
    simp only [perform, regWrite]
    split
    · exact command_completes v s
    · exact ⟨_, rfl⟩
    · exact ⟨_, rfl⟩

theorem step_of_no_pending {s : State} (h : s.pending = []) : step s = .next s := by simp only [step, takeEvent, h]

/-- A step stops at nothing but a waiting event that does not exist at the interface (R278). -/
theorem step_completes {s : State} (hok : PendingOk s) : ∃ t, step s = .next t := by
  cases hp : s.pending with
  | nil => exact ⟨s, step_of_no_pending hp⟩
  | cons e rest =>
    cases e with
    | reset => exact ⟨_, step_reset hp⟩
    | transact u =>
      have hw : u.wellFormed = true := hok (.transact u) (by simp [hp])
      rw [step_transact hp hw]
      exact perform_completes u _

theorem command_pending {w : Word} {s t : State} (h : command w s = .next t) : t.pending = s.pending := by
  rcases command_cases h with ⟨i, _, he⟩ | ⟨_, _, rfl⟩
  · obtain ⟨_, hpending, _⟩ := exec_outside he
    exact hpending
  · rfl

/-- A step takes the event it delivers off the list, and leaves the later ones (R84). -/
theorem step_pending {s t : State} (h : step s = .next t) : t.pending = s.pending.tail := by
  rcases step_cases h with ⟨hp, rfl⟩ | ⟨_, hp, rfl⟩ | ⟨_, _, hp, _, rfl⟩ | ⟨_, _, _, hp, rfl⟩ | ⟨_, _, _, _, hp, rfl⟩ |
    ⟨_, _, hp, hc⟩ | ⟨_, _, _, hp, _, ⟨_, _, _, rfl⟩ | ⟨_, rfl⟩⟩
  case inr.inr.inr.inr.inr.inl => simpa [hp] using command_pending hc
  all_goals simp [hp]

/-- Settles O13: the step completes, and the events after it were waiting before. -/
theorem everyDefinedTransactionCompletes : Obligations.EveryDefinedTransactionCompletes := by
  unfold Obligations.EveryDefinedTransactionCompletes
  intro s hok
  obtain ⟨t, ht⟩ := step_completes hok
  refine ⟨t, ht, fun e he => hok e (List.mem_of_mem_tail ?_)⟩
  rwa [← step_pending ht]

end Sys2Proof.Machine
end

section
/-! PROOF. Reset and the idle block: what clears `DONE`, and a step with no event waiting (R25, R301, R303). -/

namespace Sys2Proof.Machine

/-- Each of the endings of a command sets `DONE` (R25, R110, R264, R265). -/
theorem exec_done {i : Instr} {s t : State} (h : exec i s = .next t) : t.done = true := by
  rcases exec_endings h with ⟨_, rfl⟩ | ⟨f, _, rfl⟩ | ⟨_, _, r, _, rfl⟩
  · exact State.acknowledge_done s
  · exact State.raise_done s f
  · exact State.complete_done (effectOf i s) r

/-- The execution of any word sets `DONE`, an illegal one's included (R25, R94). -/
theorem command_done {w : Word} {s t : State} (h : command w s = .next t) : t.done = true := by
  rcases command_cases h with ⟨_, _, he⟩ | ⟨_, _, rfl⟩
  · exact exec_done he
  · exact State.raise_done s _

/-- A step takes a reset, or it sets `DONE`, or it leaves `DONE` as it is (R25, R303). -/
theorem step_done {s t : State} (h : step s = .next t) :
    (∃ rest, s.pending = .reset :: rest) ∨ t.done = true ∨ t.done = s.done := by
  rcases step_cases h with ⟨_, rfl⟩ | ⟨rest, hp, _⟩ | ⟨_, _, _, _, rfl⟩ | ⟨_, _, _, _, rfl⟩ | ⟨_, _, _, _, _, rfl⟩ |
    ⟨_, _, _, hc⟩ | ⟨_, _, _, _, _, ⟨_, _, _, rfl⟩ | ⟨_, rfl⟩⟩
  case inr.inl => exact .inl ⟨rest, hp⟩
  case inr.inr.inr.inr.inr.inl => exact .inr (.inl (command_done hc))
  all_goals exact .inr (.inr (by simp))

/-- Settles O19: a step without a reset sets `DONE` or keeps it, so it cannot clear it. -/
theorem onlyResetClearsDone : Obligations.OnlyResetClearsDone := by
  unfold Obligations.OnlyResetClearsDone
  intro s t h hs ht
  rcases step_done h with hreset | hset | hkept
  · exact hreset
  · simp [ht] at hset
  · simp [ht, hs] at hkept

/-- Settles O7: with an empty list of events there is nothing to deliver. -/
theorem idleStepChangesNothing : Obligations.IdleStepChangesNothing := by
  unfold Obligations.IdleStepChangesNothing
  exact fun _ => step_of_no_pending

end Sys2Proof.Machine
end
